-- ==== Sys2Proof/Word.lean ====
section
/-! DEFINITION. The word types of the engine (00_scope R9, R10): a byte of `ENT` or of a symbol, a
32-bit register, and the 64-integer block the inverse transform works on. -/

namespace Sys2Proof

/-- One byte of the entropy buffer, one `OFFS` or `SYM` entry, one symbol byte. -/
abbrev Byte := BitVec 8

/-- A register as the host sees it, a `CODE` entry, a `GRID` element (00_scope R9, `COEF_W` = 32). -/
abbrev Word := BitVec 32

/-- The classes of Huffman tables (10_state R40: DC = 0, AC = 1). -/
inductive HuffClass where
  | dc
  | ac
deriving DecidableEq, Repr

/-- An 8x8 block of integers in natural order, element `8*row + col` (00_scope R15). -/
abbrev Block := Vector Int 64

end Sys2Proof
end

