-- ==== Sys2Proof/Syntax.lean ====
section
/-! DEFINITION. The instructions of both levels (00_scope R16): one constructor per mnemonic of
spec/opcode_table.json, its fields those of the encoding.  The two rows of DCCAT (categories 0..7
and 8..11) and the two rows of ACBAD (sizes 11 and 12..15) are one instruction each (log 17). -/

namespace Sys2Proof

/-- An instruction.  Level 1 are the commands of 30_encoding R104; level 2 are the entropy symbols of
30_encoding R109 and R112. -/
inductive Instr where
  /-- NOP (46_control R240). -/
  | nop
  /-- SCANINIT (46_control R241). -/
  | scaninit
  /-- RDBIT (40_bit_reader R134). -/
  | rdbit
  /-- RDBITS n (40_bit_reader R135), operand form N. -/
  | rdbits (n : BitVec 5)
  /-- ALIGN (40_bit_reader R136). -/
  | align
  /-- HTBUILD T (41_huffman_engine R150), operand form T. -/
  | htbuild (k : HuffClass) (t : Fin 4)
  /-- DECSYM T (41_huffman_engine R154), operand form T. -/
  | decsym (k : HuffClass) (t : Fin 4)
  /-- DECDC c (41_huffman_engine R156), operand form C. -/
  | decdc (c : BitVec 2)
  /-- DECAC c (41_huffman_engine R158), operand form C. -/
  | decac (c : BitVec 2)
  /-- DECBLK c (41_huffman_engine R160), operand form C. -/
  | decblk (c : BitVec 2)
  /-- DECMCU (41_huffman_engine R162). -/
  | decmcu
  /-- DECSCAN (41_huffman_engine R163). -/
  | decscan
  /-- DEQUANT (43_dequantizer R201). -/
  | dequant
  /-- IDCT (44_inverse_dct R217). -/
  | idct
  /-- COLOR (45_color_converter R234). -/
  | color
  /-- RESET (46_control R242). -/
  | reset
  /-- DCCAT (42_entropy_symbols R180): the symbol byte is the category. -/
  | dccat (cat : Byte)
  /-- DCBAD (42_entropy_symbols R181): any other byte of a DC table. -/
  | dcbad (b : Byte)
  /-- EOB (42_entropy_symbols R182). -/
  | eob
  /-- ZRL (42_entropy_symbols R183). -/
  | zrl
  /-- ZRUN (42_entropy_symbols R184). -/
  | zrun (run : BitVec 4)
  /-- ACCOEF (42_entropy_symbols R185). -/
  | accoef (run size : BitVec 4)
  /-- ACBAD (42_entropy_symbols R186). -/
  | acbad (run size : BitVec 4)
deriving DecidableEq, Repr

end Sys2Proof
end

