-- ==== Sys2Proof/WellFormed.lean ====
section
/-! DEFINITION. Which terms of `Instr` the encodings of the spec can express: the operand constraints of
30_encoding R102 to R104 and the byte ranges of R109 and R112. -/

namespace Sys2Proof

/-- The operand constraints of 30_encoding R102, R103 and the ranges of R109, R112, R113. -/
def Instr.wellFormed : Instr → Bool
  | .nop | .scaninit | .rdbit | .align | .htbuild _ _ | .decsym _ _ => true
  | .decmcu | .decscan | .dequant | .idct | .color | .reset => true
  | .rdbits n => decide (n.toNat ≤ 16)
  | .decdc c | .decac c | .decblk c => decide (c.toNat ≤ 2)
  | .dccat cat => decide (cat.toNat ≤ 11)
  | .dcbad b => decide (12 ≤ b.toNat)
  | .eob | .zrl => true
  | .zrun run => decide (1 ≤ run.toNat ∧ run.toNat ≤ 14)
  | .accoef _ size => decide (1 ≤ size.toNat ∧ size.toNat ≤ 10)
  | .acbad _ size => decide (11 ≤ size.toNat)

end Sys2Proof
end

