-- ==== Sys2Proof/Decode.lean ====
section
/-! DEFINITION. The decoders of both levels, total and rejecting by name, and after them the encoders, all
from the tables of 30_encoding: R100 to R105 for the command word, R109 for the byte of a DC table,
R111 and R112 for the byte of an AC table. -/

namespace Sys2Proof

/-- Why a word written to `CMD` selects no command (30_encoding R105).  All raise ILLCMD. -/
inductive Illegal where
  /-- Bits 31:16 of the write are not zero. -/
  | highBits
  /-- The operation code is not in the table of R104. -/
  | unknownOp
  /-- A must-be-zero bit of `ARG` is set. -/
  | strayArg
  /-- RDBITS with a count above 16. -/
  | countAbove16
  /-- DECDC, DECAC or DECBLK with c = 3. -/
  | component3
deriving DecidableEq, Repr

/-- A byte of a DC table as an instruction (30_encoding R109). -/
inductive DcSym where
  | dccat (cat : Byte)
  | dcbad (b : Byte)
deriving DecidableEq, Repr

/-- A byte of an AC table as an instruction (30_encoding R112). -/
inductive AcSym where
  | eob
  | zrl
  | zrun (run : BitVec 4)
  | accoef (run size : BitVec 4)
  | acbad (run size : BitVec 4)
deriving DecidableEq, Repr

/-- `OP`, bits 7:0 of the command word (30_encoding R100). -/
def opField (w : BitVec 16) : Byte := w.setWidth 8

/-- `ARG`, bits 15:8 of the command word (30_encoding R100). -/
def argField (w : BitVec 16) : Byte := (w >>> 8).setWidth 8

/-- The class bit `ARG[2]` of operand form T (30_encoding R101). -/
def argClass (arg : Byte) : HuffClass := if arg.getLsbD 2 then .ac else .dc

/-- The table id `ARG[1:0]` of operand form T (30_encoding R101). -/
def argTable (arg : Byte) : Fin 4 := (arg.setWidth 2).toFin

/-- A command without operand: `ARG` must be 0 (30_encoding R100). -/
def formNone (arg : Byte) (i : Instr) : Except Illegal Instr :=
  if arg = 0 then .ok i else .error .strayArg

/-- Operand form T: `ARG[7:3]` must be 0 (30_encoding R101). -/
def formT (arg : Byte) (f : HuffClass → Fin 4 → Instr) : Except Illegal Instr :=
  if arg &&& 0xF8#8 = 0 then .ok (f (argClass arg) (argTable arg)) else .error .strayArg

/-- Operand form C: `ARG[7:2]` must be 0 and `c` at most 2 (30_encoding R102). -/
def formC (arg : Byte) (f : BitVec 2 → Instr) : Except Illegal Instr :=
  if arg &&& 0xFC#8 = 0 then
    (if (arg.setWidth 2).toNat ≤ 2 then .ok (f (arg.setWidth 2)) else .error .component3)
  else .error .strayArg

/-- Operand form N: `ARG[7:5]` must be 0 and `n` at most 16 (30_encoding R103). -/
def formN (arg : Byte) (f : BitVec 5 → Instr) : Except Illegal Instr :=
  if arg &&& 0xE0#8 = 0 then
    (if (arg.setWidth 5).toNat ≤ 16 then .ok (f (arg.setWidth 5)) else .error .countAbove16)
  else .error .strayArg

/-- The operation codes of 30_encoding R104. -/
def decodeOp (op arg : Byte) : Except Illegal Instr :=
  match op.toNat with
  | 0x00 => formNone arg .nop
  | 0x01 => formNone arg .scaninit
  | 0x10 => formNone arg .rdbit
  | 0x11 => formN arg .rdbits
  | 0x12 => formNone arg .align
  | 0x20 => formT arg .htbuild
  | 0x21 => formT arg .decsym
  | 0x22 => formC arg .decdc
  | 0x23 => formC arg .decac
  | 0x24 => formC arg .decblk
  | 0x25 => formNone arg .decmcu
  | 0x26 => formNone arg .decscan
  | 0x30 => formNone arg .dequant
  | 0x31 => formNone arg .idct
  | 0x32 => formNone arg .color
  | 0xFF => formNone arg .reset
  | _ => .error .unknownOp

/-- The 16-bit command word (30_encoding R100, R104). -/
def decodeWord (w : BitVec 16) : Except Illegal Instr := decodeOp (opField w) (argField w)

/-- The 32-bit value of a write to `CMD` (30_encoding R105, 10_state R33). -/
def decodeCmd (w : Word) : Except Illegal Instr :=
  if w >>> 16 = 0 then decodeWord (w.setWidth 16) else .error .highBits

/-- The high nibble, `run` (30_encoding R111). -/
def runField (b : Byte) : BitVec 4 := (b >>> 4).setWidth 4

/-- The low nibble, `size` (30_encoding R111). -/
def sizeField (b : Byte) : BitVec 4 := b.setWidth 4

/-- 30_encoding R109: categories 0..11 are legal, every other byte is DCBAD. -/
def decodeDc (b : Byte) : DcSym :=
  if b &&& 0xF8#8 = 0x00#8 then .dccat b
  else if b &&& 0xFC#8 = 0x08#8 then .dccat b
  else .dcbad b

/-- 30_encoding R112: the rows tested in the order given. -/
def decodeAc (b : Byte) : AcSym :=
  if b = 0x00#8 then .eob
  else if b = 0xF0#8 then .zrl
  else if b &&& 0x0F#8 = 0x00#8 then .zrun (runField b)
  else if b &&& 0x0F#8 = 0x0B#8 then .acbad (runField b) (sizeField b)
  else if b &&& 0x0C#8 = 0x0C#8 then .acbad (runField b) (sizeField b)
  else .accoef (runField b) (sizeField b)

/-- The instruction a DC symbol is. -/
def DcSym.toInstr : DcSym → Instr
  | .dccat cat => .dccat cat
  | .dcbad b => .dcbad b

/-- The instruction an AC symbol is. -/
def AcSym.toInstr : AcSym → Instr
  | .eob => .eob
  | .zrl => .zrl
  | .zrun run => .zrun run
  | .accoef run size => .accoef run size
  | .acbad run size => .acbad run size

/-- The level-2 decoder: the class of the table a byte was decoded through selects its format
(30_encoding R114). -/
def decodeSymbolByte (k : HuffClass) (b : Byte) : Instr :=
  match k with
  | .dc => (decodeDc b).toInstr
  | .ac => (decodeAc b).toInstr

/-- Where an instruction's words stand: a command word, or a byte of a table of a class. -/
inductive Encoded where
  | command (w : BitVec 16)
  | symbol (k : HuffClass) (b : Byte)
deriving DecidableEq, Repr

/-- The decoder of both levels. -/
def decode : Encoded → Except Illegal Instr
  | .command w => decodeWord w
  | .symbol k b => .ok (decodeSymbolByte k b)

/-- `ARG << 8 | OP` (30_encoding R104). -/
def commandWord (arg op : Byte) : BitVec 16 := (arg.setWidth 16 <<< 8) ||| op.setWidth 16

/-- `ARG` of operand form T (30_encoding R101). -/
def encodeT (k : HuffClass) (t : Fin 4) : Byte :=
  match k with
  | .dc => BitVec.ofNat 8 t.val
  | .ac => 4#8 ||| BitVec.ofNat 8 t.val

/-- `run << 4 | size` (30_encoding R111). -/
def symbolByte (run size : BitVec 4) : Byte := (run.setWidth 8 <<< 4) ||| size.setWidth 8

/-- The encoder of both levels, from the tables of 30_encoding R104, R109, R112. -/
def encode : Instr → Encoded
  | .nop => .command (commandWord 0 0x00#8)
  | .scaninit => .command (commandWord 0 0x01#8)
  | .rdbit => .command (commandWord 0 0x10#8)
  | .rdbits n => .command (commandWord (n.setWidth 8) 0x11#8)
  | .align => .command (commandWord 0 0x12#8)
  | .htbuild k t => .command (commandWord (encodeT k t) 0x20#8)
  | .decsym k t => .command (commandWord (encodeT k t) 0x21#8)
  | .decdc c => .command (commandWord (c.setWidth 8) 0x22#8)
  | .decac c => .command (commandWord (c.setWidth 8) 0x23#8)
  | .decblk c => .command (commandWord (c.setWidth 8) 0x24#8)
  | .decmcu => .command (commandWord 0 0x25#8)
  | .decscan => .command (commandWord 0 0x26#8)
  | .dequant => .command (commandWord 0 0x30#8)
  | .idct => .command (commandWord 0 0x31#8)
  | .color => .command (commandWord 0 0x32#8)
  | .reset => .command (commandWord 0 0xFF#8)
  | .dccat cat => .symbol .dc cat
  | .dcbad b => .symbol .dc b
  | .eob => .symbol .ac 0x00#8
  | .zrl => .symbol .ac 0xF0#8
  | .zrun run => .symbol .ac (symbolByte run 0)
  | .accoef run size => .symbol .ac (symbolByte run size)
  | .acbad run size => .symbol .ac (symbolByte run size)

/-- The table class a symbol byte is taken to come from where only the byte is given: the opcode table
has an SYM_DC row and an SYM_AC row for every byte value and a byte does not say which.  The choice gives
each of the seven symbols some byte (log 3). -/
def tableByteClass (b : Byte) : HuffClass :=
  if (1 ≤ b.toNat ∧ b.toNat ≤ 10) ∨ b.toNat = 255 then .dc else .ac

/-- Where the bits of a row of spec/opcode_table.json stand: rows of at most 8 bits are symbol bytes,
wider rows the 32-bit value of a write to `CMD`. -/
def decodeTableWord (nbits w : Nat) : Option Instr :=
  if nbits ≤ 8 then
    some (decodeSymbolByte (tableByteClass (BitVec.ofNat 8 w)) (BitVec.ofNat 8 w))
  else (decodeCmd (BitVec.ofNat 32 w)).toOption

end Sys2Proof
end

