-- ==== Sys2Proof/Config.lean ====
section
/-! DEFINITION. The open parameters of 00_scope R9 and the free values of everything the spec calls
unspecified (93_implementation_defined).  The capacities and the choice of transform are plain data
carried by State (log 4), so that every statement holds for each of them; what stands here as a
constant without a body is a value nothing can be proved of (logs 5, 9). -/

namespace Sys2Proof

/-- The parameter `idct` (00_scope R9, 44_inverse_dct R212 to R216): the default `idct_ref`, the
source's literal `idct_src`, or any other transform that satisfies R213 to R215 (log 9). -/
inductive IdctChoice where
  | ref
  | src
  | other
deriving DecidableEq, Repr

/-- The open parameters (00_scope R9).  `ENT_CAP` is at most 2^32-1 by its type. -/
structure Config where
  entCap  : Word
  gridCap : Nat
  idct    : IdctChoice
deriving DecidableEq, Repr

/-- The defaults a model may take (92_eei_decisions, last table; log 4). -/
def Config.default : Config := { entCap := 0xFFFFFFFF#32, gridCap := 67108864, idct := .ref }

/-- Contents of `ENT[i]` that nothing has written since reset number `epoch` (10_state R43, log 5). -/
opaque Config.freeEnt (epoch i : Nat) : Byte

/-- Contents of `HT[k][t].OFFS[j]` that nothing has written (10_state R40, log 5). -/
opaque Config.freeOffs (epoch : Nat) (k : HuffClass) (t j : Nat) : Byte

/-- Contents of `HT[k][t].SYM[j]` that nothing has written (10_state R40, log 5). -/
opaque Config.freeSym (epoch : Nat) (k : HuffClass) (t j : Nat) : Byte

/-- Contents of `HT[k][t].CODE[j]` that nothing has written (10_state R40, log 5). -/
opaque Config.freeCode (epoch : Nat) (k : HuffClass) (t j : Nat) : Word

/-- Contents of `QT[t].Q[i]` that nothing has written (10_state R42, log 5). -/
opaque Config.freeQ (epoch t i : Nat) : BitVec 16

/-- Contents of the `GRID` element at key `a` that nothing has written since the grid was last
invalidated (10_state R44, 60_exceptions R262; log 5). -/
opaque Config.freeGrid (epoch a : Nat) : Word

/-- How far a transform chosen as `.other` departs from `idct_ref` at an element of a block within
its tolerance range; the model cuts it to -1..1 (44_inverse_dct R213, log 9). -/
opaque Config.idctDeviation (F : Block) (i : Nat) : Int

/-- What a transform chosen as `.other` gives for a block outside the tolerance range, where R213
says nothing (44_inverse_dct R213, log 9). -/
opaque Config.idctOutside (F : Block) (i : Nat) : Int

end Sys2Proof
end

