-- ==== Sys2Proof/Machine/State.lean ====
section
/-! DEFINITION. The state of the engine as plain data: everything 10_state R20 lists, the hidden state of
R45 that a lone entropy symbol needs, and the model's own fields (`cfg`, the epochs, `pending`,
`hostData`; logs 1, 4, 5, 8).  INVENTORY.md lists each with its rule and its reset value. -/

namespace Sys2Proof.Machine

/-- A sparse memory of `w`-bit elements: (address, value) pairs, addresses strictly rising, one pair
for each element something has written.  An unlisted element holds a value nothing is known of (log 5),
so no pair can repeat what an unlisted address reads as.  `Memory 8` is `List Host.Cell`. -/
abbrev Memory (w : Nat) := List (Nat × BitVec w)

/-- The canonical form of a memory: addresses strictly rising. -/
def Memory.wf {w : Nat} : Memory w → Bool
  | [] => true
  | [_] => true
  | p :: q :: rest => decide (p.1 < q.1) && Memory.wf (q :: rest)

/-- `STATUS.PHASE` (10_state R29).  Values 6 and 7 never occur (93 U20). -/
inductive Phase where
  | idle
  | decode
  | coef
  | deq
  | spatial
  | rgb
deriving DecidableEq, Repr

/-- `FAULT.CODE` (60_exceptions R261).  Values 12..15 are never produced (93 U20).  These are the engine's
own faults: raising one is a next state of the machine (R262). -/
inductive FaultCode where
  | none
  | underrun
  | nocode
  | dccat
  | acsize
  | acrun
  | table
  | config
  | sequence
  | illcmd
  | range
  | resource
deriving DecidableEq, Repr

/-- The fields of a `COMPc` register (10_state R32, R37); its other bits do not exist. -/
structure CompReg where
  qt  : BitVec 2
  dct : BitVec 2
  act : BitVec 2
  hs  : BitVec 4
  vs  : BitVec 4
deriving DecidableEq, Repr

/-- A Huffman table store `HT[k][t]` (10_state R40). -/
structure HuffTable where
  offs  : Memory 8
  sym   : Memory 8
  code  : Memory 32
  set   : Bool
  built : Bool
deriving DecidableEq, Repr

/-- A quantization table store `QT[t]` (10_state R42). -/
structure QuantTable where
  q   : Memory 16
  set : Bool
deriving DecidableEq, Repr

/-- The block grid (10_state R44): the elements written since it was last invalidated, and the number of
invalidations, which the free values of the unwritten elements are drawn at (log 5). -/
structure Grid where
  epoch : Nat
  cells : Memory 32
deriving DecidableEq, Repr

/-- The hidden context of an entropy symbol in execution (10_state R45): component index and zigzag
cursor.  Commands keep theirs as local values; this is the context of a symbol run alone (log 2). -/
structure SymCtx where
  comp : Fin 3
  k    : Nat
deriving DecidableEq, Repr

/-- An address of the host in one of the spaces `ENT`, `HT`, `QT`, `GRID`: (space, index) of 20_memory R70, with any
numbers as class, id and index.  Not every address has an element (R72). -/
inductive Address where
  | ent (i : Nat)
  | offs (k t j : Nat)
  | sym (k t j : Nat)
  | code (k t j : Nat)
  | htSet (k t : Nat)
  | htBuilt (k t : Nat)
  | q (t i : Nat)
  | qtSet (t : Nat)
  | grid (u p i : Nat)
deriving DecidableEq, Repr

/-- An element of `ENT`, of one of the eight Huffman stores, of one of the four quantization stores, or of `GRID`
(20_memory R70). -/
inductive Elem where
  | ent (i : Nat)
  | offs (k : HuffClass) (t : Fin 4) (j : Nat)
  | sym (k : HuffClass) (t : Fin 4) (j : Nat)
  | code (k : HuffClass) (t : Fin 4) (j : Nat)
  | htSet (k : HuffClass) (t : Fin 4)
  | htBuilt (k : HuffClass) (t : Fin 4)
  | q (t : Fin 4) (i : Nat)
  | qtSet (t : Fin 4)
  | grid (u p i : Nat)
deriving DecidableEq, Repr

/-- The host's four operations (46_control R243). -/
inductive HostOp where
  | regRead (n : Nat)
  | regWrite (n : Nat) (v : Word)
  | memRead (a : Address)
  | memWrite (a : Address) (v : Word)
deriving DecidableEq, Repr

/-- What waits to happen to the engine: an operation of the host, the hardware reset signal (70 R300), or
one entropy symbol run alone in the context `sym`, which no operation of the host produces (log 2). -/
inductive Pending where
  | op (o : HostOp)
  | hardReset
  | symbol (k : HuffClass) (b : Byte)
deriving DecidableEq, Repr

/-- The state of the engine (10_state R20) and of the queue of the host's operations. -/
structure State where
  /-- The open parameters (00_scope R9); no step changes them (log 4). -/
  cfg      : Config
  /-- `STATUS.VALID` (10_state R28). -/
  valid    : Bool
  /-- `STATUS.PHASE` (10_state R29). -/
  phase    : Phase
  /-- `STATUS.RFAIL` (10_state R30). -/
  rfail    : Bool
  /-- `FAULT.CODE` (60_exceptions R261). -/
  fault    : FaultCode
  /-- `RESULT` (10_state R23). -/
  result   : Word
  /-- `NCOMP` (10_state R34). -/
  ncomp    : BitVec 2
  /-- `WIDTH` (10_state R35). -/
  width    : BitVec 16
  /-- `HEIGHT` (10_state R35). -/
  height   : BitVec 16
  /-- `RSTI` (10_state R36). -/
  rsti     : BitVec 16
  /-- `COMP0..2` (10_state R37). -/
  comps    : Vector CompReg 3
  /-- `ENTLEN` (10_state R38). -/
  entLen   : Word
  /-- `BYTEIDX`, the byte part of the program counter (10_state R24). -/
  byteIdx  : Word
  /-- `BITIDX`, the bit part of the program counter (10_state R24). -/
  bitIdx   : BitVec 3
  /-- `BLKIDX` (10_state R27). -/
  blkIdx   : Word
  /-- `NUNITS` (10_state R39). -/
  nUnits   : Word
  /-- `PRED0..2`, signed (10_state R22). -/
  pred     : Vector Word 3
  /-- `HT[DC][0..3]` (10_state R40). -/
  dcTables : Vector HuffTable 4
  /-- `HT[AC][0..3]` (10_state R40). -/
  acTables : Vector HuffTable 4
  /-- `QT[0..3]` (10_state R42). -/
  qTables  : Vector QuantTable 4
  /-- `ENT` (10_state R43). -/
  ent      : Memory 8
  /-- `GRID` (10_state R44). -/
  grid     : Grid
  /-- How many resets have emptied `ENT`, `HT` and `QT` (log 5). -/
  memEpoch : Nat
  /-- The context of a symbol run alone (10_state R45, log 2). -/
  sym      : SymCtx
  /-- What waits to happen, oldest first (log 1). -/
  pending  : List Pending
  /-- The value the host's last read returned (log 8). -/
  hostData : Word
deriving DecidableEq, Repr

/-- Reasons for the machine to stop with a fault: there is none.  Every fatal condition of the spec is a
fault of the engine, which latches it and goes on taking commands (60_exceptions R262, 46_control R245);
see `FaultCode`.  An empty type: nobody raises one (safe and unsafe do not arise). -/
inductive Fault
deriving DecidableEq, Repr

/-- Reasons to refuse an instruction. -/
inductive Refusal where
  /-- Raised by an arm of `exec` whose instruction has no meaning yet; no arm does.  Safe: nothing can be
  proved of what such an instruction does. -/
  | notModelled (mnemonic : String)
deriving DecidableEq, Repr

/-- A Huffman table after reset: flags 0, contents unspecified (10_state R47). -/
def HuffTable.reset : HuffTable := { offs := [], sym := [], code := [], set := false, built := false }

/-- A quantization table after reset: flag 0, contents unspecified (10_state R47). -/
def QuantTable.reset : QuantTable := { q := [], set := false }

/-- A `COMPc` register after reset (10_state R47). -/
def CompReg.reset : CompReg := { qt := 0, dct := 0, act := 0, hs := 0, vs := 0 }

/-- The machine right after reset (10_state R47, 70 R301).  `sym`, the epochs, `pending`, `hostData` and
`cfg` are the model's own (logs 1, 2, 4, 5, 8). -/
def State.reset : State where
  cfg := Config.default
  valid := true
  phase := .idle
  rfail := false
  fault := .none
  result := 0
  ncomp := 0
  width := 0
  height := 0
  rsti := 0
  comps := Vector.replicate 3 CompReg.reset
  entLen := 0
  byteIdx := 0
  bitIdx := 0
  blkIdx := 0
  nUnits := 0
  pred := Vector.replicate 3 0
  dcTables := Vector.replicate 4 HuffTable.reset
  acTables := Vector.replicate 4 HuffTable.reset
  qTables := Vector.replicate 4 QuantTable.reset
  ent := []
  grid := { epoch := 0, cells := [] }
  memEpoch := 0
  sym := { comp := 0, k := 1 }
  pending := []
  hostData := 0

end Sys2Proof.Machine
end

