-- ==== Sys2Proof/Machine/Flags.lean ====
section
/-! DEFINITION. The codes of the status fields and the words the host reads of them: 10_state R28 to R32,
60_exceptions R261.  The engine has no arithmetic condition codes (10_state R31). -/

namespace Sys2Proof.Machine

/-- The value of `STATUS.PHASE` (10_state R29). -/
def Phase.code : Phase → Word
  | .idle => 0
  | .decode => 1
  | .coef => 2
  | .deq => 3
  | .spatial => 4
  | .rgb => 5

/-- The value of `FAULT.CODE` (60_exceptions R261). -/
def FaultCode.code : FaultCode → Word
  | .none => 0
  | .underrun => 1
  | .nocode => 2
  | .dccat => 3
  | .acsize => 4
  | .acrun => 5
  | .table => 6
  | .config => 7
  | .sequence => 8
  | .illcmd => 9
  | .range => 10
  | .resource => 11

/-- A one-bit field as a word. -/
def bitWord (b : Bool) : Word := if b then 1 else 0

/-- Register 1: `VALID` [0], `PHASE` [3:1], `RFAIL` [4] (10_state R32). -/
def statusWord (s : State) : Word :=
  bitWord s.valid ||| (s.phase.code <<< 1) ||| (bitWord s.rfail <<< 4)

/-- `RESULT` and `RFAIL` after RDBIT, RDBITS or DECSYM returned a value (10_state R23, R30). -/
def setResult (v : Word) (s : State) : State := { s with result := v, rfail := false }

/-- `RESULT` and `RFAIL` after RDBIT, RDBITS or DECSYM returned FAIL (10_state R23, R30). -/
def setFail (s : State) : State := { s with result := 0xFFFFFFFF#32, rfail := true }

/-- `STATUS.PHASE <- p` (10_state R29). -/
def setPhase (p : Phase) (s : State) : State := { s with phase := p }

end Sys2Proof.Machine
end

