-- ==== Sys2Proof/Machine/Operands.lean ====
section
/-! DEFINITION. Operand forms and the arithmetic the units share: `fits` and `ceil8` (00_scope R11),
`extend` (30_encoding R108), the zigzag map (R110), the component registers (10_state R32, R37), the
live component count (10_state R34). -/

namespace Sys2Proof.Machine

/-- Whether an integer lies in the signed 32-bit range (00_scope R11). -/
def fits (v : Int) : Bool := decide (-2147483648 ≤ v ∧ v ≤ 2147483647)

/-- `(a + 7) div 8` (00_scope R11). -/
def ceil8 (a : Nat) : Nat := (a + 7) / 8

/-- 30_encoding R108: the integer a raw value field of `s` bits encodes. -/
def extend (v s : Nat) : Int :=
  if s ≠ 0 ∧ v < 2 ^ (s - 1) then (v : Int) - ((2 : Int) ^ s - 1) else (v : Int)

/-- The zigzag map of 30_encoding R110, row by row (log 14). -/
def zigzagRows : List (List Nat) :=
  [[ 0,  1,  8, 16,  9,  2,  3, 10],
   [17, 24, 32, 25, 18, 11,  4,  5],
   [12, 19, 26, 33, 40, 48, 41, 34],
   [27, 20, 13,  6,  7, 14, 21, 28],
   [35, 42, 49, 56, 57, 50, 43, 36],
   [29, 22, 15, 23, 30, 37, 44, 51],
   [58, 59, 52, 45, 38, 31, 39, 46],
   [53, 60, 61, 54, 47, 55, 62, 63]]

/-- `ZZ[k]`, the natural index of zigzag position `k`, 0..63 (30_encoding R110). -/
def zz (k : Nat) : Nat := (zigzagRows.getD (k / 8) []).getD (k % 8) 0

/-- The inverse map of 30_encoding R110, natural index to zigzag position, row by row (log 14). -/
def zigzagInvRows : List (List Nat) :=
  [[ 0,  1,  5,  6, 14, 15, 27, 28],
   [ 2,  4,  7, 13, 16, 26, 29, 42],
   [ 3,  8, 12, 17, 25, 30, 41, 43],
   [ 9, 11, 18, 24, 31, 40, 44, 53],
   [10, 19, 23, 32, 39, 45, 52, 54],
   [20, 22, 33, 38, 46, 51, 55, 60],
   [21, 34, 37, 47, 50, 56, 59, 61],
   [35, 36, 48, 49, 57, 58, 62, 63]]

/-- `ZZinv[i]`, the zigzag position of natural index `i` (30_encoding R110). -/
def zzInv (i : Nat) : Nat := (zigzagInvRows.getD (i / 8) []).getD (i % 8) 0

/-- A table id field as an index (10_state R37). -/
def tableId (b : BitVec 2) : Fin 4 := b.toFin

/-- The component index an operand of form C names, none for the illegal `c = 3` (30_encoding R102). -/
def compIndex (c : BitVec 2) : Option (Fin 3) :=
  if h : c.toNat < 3 then some ⟨c.toNat, h⟩ else none

/-- Whether `NCOMP` is 1 or 3 (10_state R34). -/
def ncompOk (s : State) : Bool := decide (s.ncomp = 1#2 ∨ s.ncomp = 3#2)

/-- The component indices `0 .. NCOMP-1` in ascending order, for a legal `NCOMP` (10_state R34). -/
def components (s : State) : List (Fin 3) := if s.ncomp = 3#2 then [0, 1, 2] else [0]

/-- A `COMPc` register as the host reads it (10_state R32). -/
def CompReg.word (c : CompReg) : Word :=
  c.qt.setWidth 32 ||| (c.dct.setWidth 32 <<< 2) ||| (c.act.setWidth 32 <<< 4) |||
    (c.hs.setWidth 32 <<< 8) ||| (c.vs.setWidth 32 <<< 12)

/-- The fields of a `COMPc` register from the bits the host writes (10_state R32). -/
def CompReg.ofWord (v : Word) : CompReg where
  qt := v.setWidth 2
  dct := (v >>> 2).setWidth 2
  act := (v >>> 4).setWidth 2
  hs := (v >>> 8).setWidth 4
  vs := (v >>> 12).setWidth 4

end Sys2Proof.Machine
end

