-- ==== Sys2Proof/Machine/Ops.lean ====
section
/-! DEFINITION. The operations every meaning is written over: sparse memories and the five spaces of
20_memory R70, `raise` (60_exceptions R262) and the return to the reset state (10_state R47), the shape of
a command (46_control R245) and of a procedure that may raise. -/

namespace Sys2Proof.Machine

/-! ## Sparse memories -/

/-- The value something has written at an address. -/
def Memory.find {w : Nat} : Memory w → Nat → Option (BitVec w)
  | [], _ => none
  | p :: rest, a => if p.1 = a then some p.2 else Memory.find rest a

/-- A write, which keeps the addresses strictly rising. -/
def Memory.write {w : Nat} : Memory w → Nat → BitVec w → Memory w
  | [], a, v => [(a, v)]
  | p :: rest, a, v =>
    if a < p.1 then (a, v) :: p :: rest
    else if a = p.1 then (a, v) :: rest
    else p :: Memory.write rest a v

/-! ## Table stores -/

/-- `HT[k][t]` (10_state R40). -/
def State.ht (s : State) (k : HuffClass) (t : Fin 4) : HuffTable :=
  match k with
  | .dc => s.dcTables[t]
  | .ac => s.acTables[t]

/-- Replace `HT[k][t]`. -/
def setHt (k : HuffClass) (t : Fin 4) (h : HuffTable) (s : State) : State :=
  match k with
  | .dc => { s with dcTables := s.dcTables.set t h }
  | .ac => { s with acTables := s.acTables.set t h }

/-- `HT[k][t].OFFS[j]` (10_state R40; unwritten: log 5). -/
def offsByte (s : State) (k : HuffClass) (t : Fin 4) (j : Nat) : Byte :=
  ((s.ht k t).offs.find j).getD (Config.freeOffs s.memEpoch k t j)

/-- `HT[k][t].OFFS[j]` as a number. -/
def offsAt (s : State) (k : HuffClass) (t : Fin 4) (j : Nat) : Nat := (offsByte s k t j).toNat

/-- `HT[k][t].SYM[j]` (10_state R40; unwritten: log 5). -/
def symAt (s : State) (k : HuffClass) (t : Fin 4) (j : Nat) : Byte :=
  ((s.ht k t).sym.find j).getD (Config.freeSym s.memEpoch k t j)

/-- `HT[k][t].CODE[j]` (10_state R40; unwritten: log 5). -/
def codeAt (s : State) (k : HuffClass) (t : Fin 4) (j : Nat) : Word :=
  ((s.ht k t).code.find j).getD (Config.freeCode s.memEpoch k t j)

/-- `QT[t].Q[i]` (10_state R42; unwritten: log 5). -/
def quantAt (s : State) (t : Fin 4) (i : Nat) : BitVec 16 :=
  (s.qTables[t].q.find i).getD (Config.freeQ s.memEpoch t i)

/-- `ENT[i]` (10_state R43; unwritten: log 5). -/
def entAt (s : State) (i : Nat) : Byte := (s.ent.find i).getD (Config.freeEnt s.memEpoch i)

/-! ## The grid -/

/-- The key of `GRID[u][p][i]`. -/
def gridKey (u p i : Nat) : Nat := (u * 3 + p) * 64 + i

/-- `GRID[u][p][i]` as a word (10_state R44; unwritten: log 5). -/
def Grid.word (g : Grid) (u p i : Nat) : Word :=
  (g.cells.find (gridKey u p i)).getD (Config.freeGrid g.epoch (gridKey u p i))

/-- `GRID[u][p][i]` as the signed integer it is (10_state R44). -/
def Grid.read (g : Grid) (u p i : Nat) : Int := (g.word u p i).toInt

/-- `GRID[u][p][i] <- v`, for a value that fits (20_memory R77). -/
def Grid.put (g : Grid) (u p i : Nat) (v : Int) : Grid :=
  { g with cells := g.cells.write (gridKey u p i) (BitVec.ofInt 32 v) }

/-- Every element of the grid becomes unspecified (60_exceptions R262, 46_control R241). -/
def Grid.forget (g : Grid) : Grid := { epoch := g.epoch + 1, cells := [] }

/-- The store of zigzag position `m` of component `c` of unit `BLKIDX` (20_memory R81). -/
def putCoef (c : Fin 3) (m : Nat) (v : Int) (s : State) : State :=
  { s with grid := s.grid.put s.blkIdx.toNat c (zz m) v }

/-- Zeros at zigzag positions `m .. m+n-1` of component `c` of unit `BLKIDX` (42_entropy_symbols). -/
def zeroFill (c : Fin 3) (m : Nat) : Nat → State → State
  | 0, s => s
  | n + 1, s => zeroFill c (m + 1) n (putCoef c m 0 s)

/-! ## Registers -/

/-- `pc <- (b, k)` (00_scope R13). -/
def setCursor (b : Word) (k : BitVec 3) (s : State) : State := { s with byteIdx := b, bitIdx := k }

/-- `PRED[c] <- v` (10_state R22), for a value that fits. -/
def setPred (c : Fin 3) (v : Int) (s : State) : State := { s with pred := s.pred.set c (BitVec.ofInt 32 v) }

/-- `PRED[c]` as the signed integer it is (10_state R22). -/
def predAt (s : State) (c : Fin 3) : Int := s.pred[c].toInt

/-- All three predictors to 0 (41_huffman_engine R161, 46_control R241). -/
def clearPred (s : State) : State := { s with pred := Vector.replicate 3 0 }

/-! ## Faults and reset -/

/-- `raise F` (60_exceptions R262), the one trap entry of the engine: the code, the latch, the grid
invalidated, and nothing else.  There is no return from it but RESET (R279). -/
def raise (f : FaultCode) (s : State) : State :=
  { s with fault := f, valid := false, grid := s.grid.forget }

/-- Every piece of state to its reset value (10_state R47, 46_control R242, 70 R300): the one way on after
a fault.  The unspecified contents are drawn afresh; the configuration and the host's side (its queue, the
value it last read) are no state of the engine and stay (logs 4, 5, 13). -/
def resetEngine (s : State) : State :=
  { State.reset with
    cfg := s.cfg
    grid := s.grid.forget
    memEpoch := s.memEpoch + 1
    pending := s.pending
    hostData := s.hostData }

/-! ## Commands and procedures -/

/-- How a procedure of the engine ends: with a value, or in the state a `raise` has left (00_scope R14). -/
inductive Ran (α : Type) where
  | done (a : α) (s : State)
  | raised (s : State)
deriving Repr

/-- The state a procedure ends in. -/
def Ran.state {α : Type} : Ran α → State
  | .done _ s => s
  | .raised s => s

/-- Go on after a procedure unless it raised (00_scope R14, R262). -/
def Ran.andThen {α β : Type} (r : Ran α) (f : α → State → Ran β) : Ran β :=
  match r with
  | .done a s => f a s
  | .raised s => .raised s

/-- `require cond else raise F` (00_scope R13). -/
def require {α : Type} (cond : Bool) (f : FaultCode) (s : State) (go : State → Ran α) : Ran α :=
  if cond then go s else .raised (raise f s)

/-- A command: ignored while `VALID = 0` (46_control R245), else its procedure, whose end is the next
state whether it raised or not (60_exceptions R262). -/
def command {α : Type} (body : State → Ran α) (s : State) : Host.Outcome State Fault Refusal :=
  .next (if s.valid then (body s).state else s)

/-- A command that cannot raise. -/
def plainCommand (f : State → State) (s : State) : Host.Outcome State Fault Refusal :=
  .next (if s.valid then f s else s)

/-- A command of operand form C; an operand no encoding has is an illegal command (30_encoding R105,
log 11). -/
def compCommand {α : Type} (c : BitVec 2) (body : Fin 3 → State → Ran α) (s : State) :
    Host.Outcome State Fault Refusal :=
  match compIndex c with
  | some c' => command (body c') s
  | none => plainCommand (raise .illcmd) s

/-- A loop over components in the order given (41_huffman_engine R162). -/
def forComps (f : Fin 3 → State → Ran Unit) : List (Fin 3) → State → Ran Unit
  | [], s => .done () s
  | c :: cs, s => (f c s).andThen fun _ s' => forComps f cs s'

/-- A loop `for i in 0 .. n-1, ascending`. -/
def forUpTo {α : Type} (f : Nat → α → α) : Nat → α → α
  | 0, a => a
  | n + 1, a => f n (forUpTo f n a)

/-- A loop `for i in 0 .. n-1, ascending` that may stop. -/
def upTo {α : Type} (f : Nat → α → Option α) : Nat → α → Option α
  | 0, a => some a
  | n + 1, a => (upTo f n a).bind (f n)

end Sys2Proof.Machine
end

