-- ==== Sys2Proof/Machine/BitReader.lean ====
section
/-! DEFINITION. The Bit Reader (40_bit_reader): its three procedures R131 to R133 and the commands RDBIT,
RDBITS, ALIGN (R134 to R136). -/

namespace Sys2Proof.Machine

/-- `END` = min(`ENTLEN`, `ENT_CAP`) (40_bit_reader R130). -/
def endIdx (s : State) : Nat := min s.entLen.toNat s.cfg.entCap.toNat

/-- The bit at the cursor: bit `7 - BITIDX` of `ENT[BYTEIDX]` (40_bit_reader R131, 20_memory R73). -/
def cursorBit (s : State) : Nat :=
  ((entAt s s.byteIdx.toNat).getLsbD (7 - s.bitIdx.toNat)).toNat

/-- The cursor one bit on (40_bit_reader R131). -/
def advance (s : State) : State :=
  if s.bitIdx = 7#3 then setCursor (s.byteIdx + 1) 0 s else setCursor s.byteIdx (s.bitIdx + 1) s

/-- `ReadBit()` (40_bit_reader R131): `none` is FAIL, with nothing changed. -/
def readBit (s : State) : Option Nat × State :=
  if endIdx s ≤ s.byteIdx.toNat then (none, s) else (some (cursorBit s), advance s)

/-- The loop of `ReadBits` from a partial value `v` (40_bit_reader R132). -/
def readBitsFrom : Nat → Nat → State → Option Nat × State
  | 0, v, s => (some v, s)
  | n + 1, v, s =>
    match readBit s with
    | (some b, s') => readBitsFrom n (2 * v + b) s'
    | (none, s') => (none, s')

/-- `ReadBits(n)` (40_bit_reader R132): MSB first; on FAIL the bits read stay consumed. -/
def readBits (n : Nat) (s : State) : Option Nat × State := readBitsFrom n 0 s

/-- `Align()` (40_bit_reader R133). -/
def align (s : State) : State :=
  if endIdx s ≤ s.byteIdx.toNat then s
  else if s.bitIdx = 0#3 then s
  else setCursor (s.byteIdx + 1) 0 s

/-- `RESULT` and `RFAIL` from what a Bit Reader procedure returned (40_bit_reader R134, R135). -/
def returnBits (r : Option Nat × State) : State :=
  match r with
  | (some v, s) => setResult (BitVec.ofNat 32 v) s
  | (none, s) => setFail s

/-- RDBIT (40_bit_reader R134). -/
def execRdbit (s : State) : Host.Outcome State Fault Refusal :=
  plainCommand (fun s => returnBits (readBit s)) s

/-- RDBITS n (40_bit_reader R135); a count no encoding has is an illegal command (30_encoding R105,
log 11). -/
def execRdbits (n : BitVec 5) (s : State) : Host.Outcome State Fault Refusal :=
  if n.toNat ≤ 16 then plainCommand (fun s => returnBits (readBits n.toNat s)) s
  else plainCommand (raise .illcmd) s

/-- ALIGN (40_bit_reader R136). -/
def execAlign (s : State) : Host.Outcome State Fault Refusal := plainCommand align s

end Sys2Proof.Machine
end

