-- ==== Sys2Proof/Machine/Huffman.lean ====
section
/-! DEFINITION. Code generation and symbol decode (41_huffman_engine R150 to R154, R164): HTBUILD, DECSYM
and the procedures `DecodeSymbol` and `TableReady`. -/

namespace Sys2Proof.Machine

/-! ## HTBUILD -/

/-- Consecutive codes for `n` symbols of one length, from entry `j` and running value `code`
(41_huffman_engine R150, the inner loop). -/
def assignCodes : Nat → Nat → Nat → Memory 32 → Memory 32
  | 0, _, _, m => m
  | n + 1, j, code, m => assignCodes n (j + 1) (code + 1) (m.write j (BitVec.ofNat 32 code))

/-- The codes of the `n` lengths from `l` on (41_huffman_engine R150, the outer loop): after each length
the running value is shifted left by one. -/
def assignLengths (offs : Nat → Nat) : Nat → Nat → Nat → Memory 32 → Memory 32
  | 0, _, _, m => m
  | n + 1, l, code, m =>
    assignLengths offs n (l + 1) (2 * (code + (offs l - offs (l - 1))))
      (assignCodes (offs l - offs (l - 1)) (offs (l - 1)) code m)

/-- `OFFS[l-1] <= OFFS[l]` for the lengths `1 .. n` (41_huffman_engine R150). -/
def offsRising (offs : Nat → Nat) : Nat → Bool
  | 0 => true
  | n + 1 => offsRising offs n && decide (offs n ≤ offs (n + 1))

/-- The four checks of HTBUILD (41_huffman_engine R150); all report TABLE. -/
def tableWellFormed (s : State) (k : HuffClass) (t : Fin 4) : Bool :=
  (s.ht k t).set && decide (offsAt s k t 0 = 0) && offsRising (offsAt s k t) 16 &&
    decide (offsAt s k t 16 ≤ 162)

/-- `BUILT <- b` of a table. -/
def setBuilt (k : HuffClass) (t : Fin 4) (b : Bool) (s : State) : State :=
  setHt k t { s.ht k t with built := b } s

/-- The codes of a table from its offsets (41_huffman_engine R150, 10_state R46). -/
def storeCodes (k : HuffClass) (t : Fin 4) (s : State) : State :=
  setHt k t { s.ht k t with code := assignLengths (offsAt s k t) 16 1 0 (s.ht k t).code } s

/-- HTBUILD (41_huffman_engine R150). -/
def htbuildBody (k : HuffClass) (t : Fin 4) (s : State) : Ran Unit :=
  require (tableWellFormed s k t) .table (setBuilt k t false s) fun s' =>
    .done () (setBuilt k t true (storeCodes k t s'))

/-- HTBUILD T (41_huffman_engine R150). -/
def execHtbuild (k : HuffClass) (t : Fin 4) (s : State) : Host.Outcome State Fault Refusal :=
  command (htbuildBody k t) s

/-! ## Symbol decode -/

/-- The lowest of the `n` entries from `j` on whose code is `acc` (41_huffman_engine R153). -/
def findCode (s : State) (k : HuffClass) (t : Fin 4) (acc : Nat) : Nat → Nat → Option Nat
  | 0, _ => none
  | n + 1, j => if (codeAt s k t j).toNat = acc then some j else findCode s k t acc n (j + 1)

/-- The entry of length `l` whose code is `acc` (41_huffman_engine R153). -/
def matchAt (s : State) (k : HuffClass) (t : Fin 4) (l acc : Nat) : Option Nat :=
  findCode s k t acc (offsAt s k t l - offsAt s k t (l - 1)) (offsAt s k t (l - 1))

/-- The loop of `DecodeSymbol` over the `n` lengths from `l` on (41_huffman_engine R153). -/
def decodeSymbolFrom (k : HuffClass) (t : Fin 4) : Nat → Nat → Nat → State → Ran Byte
  | 0, _, _, s => .raised (raise .nocode s)
  | n + 1, l, acc, s =>
    match readBit s with
    | (none, s') => .raised (raise .underrun s')
    | (some b, s') =>
      match matchAt s' k t l (2 * acc + b) with
      | some j => .done (symAt s' k t j) s'
      | none => decodeSymbolFrom k t n (l + 1) (2 * acc + b) s'

/-- `DecodeSymbol(k, t)` (41_huffman_engine R153). -/
def decodeSymbol (k : HuffClass) (t : Fin 4) (s : State) : Ran Byte := decodeSymbolFrom k t 16 1 0 s

/-- The condition of `TableReady(k, t)` (41_huffman_engine R164). -/
def tableReady (s : State) (k : HuffClass) (t : Fin 4) : Bool := (s.ht k t).set && (s.ht k t).built

/-- What DECSYM does with the outcome of `DecodeSymbol`: also after a raise inside it `RESULT` and
`RFAIL` say so (41_huffman_engine R154). -/
def returnSymbol (r : Ran Byte) : Ran Unit :=
  match r with
  | .done b s => .done () (setResult (b.setWidth 32) s)
  | .raised s => .raised (setFail s)

/-- DECSYM (41_huffman_engine R154). -/
def decsymBody (k : HuffClass) (t : Fin 4) (s : State) : Ran Unit :=
  require (tableReady s k t) .table s fun s' => returnSymbol (decodeSymbol k t s')

/-- DECSYM T (41_huffman_engine R154). -/
def execDecsym (k : HuffClass) (t : Fin 4) (s : State) : Host.Outcome State Fault Refusal :=
  command (decsymBody k t) s

end Sys2Proof.Machine
end

