-- ==== Sys2Proof/Machine/Symbols.lean ====
section
/-! DEFINITION. The entropy symbols (42_entropy_symbols R180 to R187), the level-2 instructions.  Each is a
procedure over its context, the component `c` and for AC symbols the zigzag cursor `k`, with the target
unit `BLKIDX`; `DecodeDC` and `DecodeAC` run them with local contexts, the `exec…` definitions with the
context `sym` of the state (10_state R45, log 2). -/

namespace Sys2Proof.Machine

/-- A raw value field of `n` bits (30_encoding R108); UNDERRUN when it runs out (60_exceptions R263). -/
def valueField (n : Nat) (s : State) : Ran Nat :=
  match readBits n s with
  | (some v, s') => .done v s'
  | (none, s') => .raised (raise .underrun s')

/-- The sum of the DC decode (42_entropy_symbols R180): RANGE unless it fits. -/
def addPred (c : Fin 3) (diff : Int) (s : State) : Ran Unit :=
  require (fits (predAt s c + diff)) .range s fun s' =>
    .done () (putCoef c 0 (predAt s' c + diff) (setPred c (predAt s' c + diff) s'))

/-- DCCAT (42_entropy_symbols R180). -/
def symDccat (cat : Byte) (c : Fin 3) (s : State) : Ran Unit :=
  (valueField cat.toNat s).andThen fun v s' => addPred c (extend v cat.toNat) s'

/-- DCBAD (42_entropy_symbols R181). -/
def symDcbad (_b : Byte) (_c : Fin 3) (s : State) : Ran Unit := .raised (raise .dccat s)

/-- EOB (42_entropy_symbols R182); the value is the new zigzag cursor. -/
def symEob (c : Fin 3) (k : Nat) (s : State) : Ran Nat := .done 64 (zeroFill c k (64 - k) s)

/-- A run of `run` zeros (42_entropy_symbols R183, R184, R185): ACRUN unless it ends below position 64. -/
def zeroRun (run : Nat) (c : Fin 3) (k : Nat) (s : State) : Ran Nat :=
  require (decide (k + run < 64)) .acrun s fun s' => .done (k + run) (zeroFill c k run s')

/-- ZRL (42_entropy_symbols R183). -/
def symZrl (c : Fin 3) (k : Nat) (s : State) : Ran Nat := zeroRun 16 c k s

/-- ZRUN (42_entropy_symbols R184). -/
def symZrun (run : BitVec 4) (c : Fin 3) (k : Nat) (s : State) : Ran Nat := zeroRun run.toNat c k s

/-- ACCOEF (42_entropy_symbols R185). -/
def symAccoef (run size : BitVec 4) (c : Fin 3) (k : Nat) (s : State) : Ran Nat :=
  (zeroRun run.toNat c k s).andThen fun k' s1 =>
    (valueField size.toNat s1).andThen fun v s2 =>
      .done (k' + 1) (putCoef c k' (extend v size.toNat) s2)

/-- ACBAD (42_entropy_symbols R186). -/
def symAcbad (_run _size : BitVec 4) (_c : Fin 3) (_k : Nat) (s : State) : Ran Nat :=
  .raised (raise .acsize s)

/-- A DC symbol on component `c` (41_huffman_engine R155). -/
def runDcSym (i : DcSym) (c : Fin 3) (s : State) : Ran Unit :=
  match i with
  | .dccat cat => symDccat cat c s
  | .dcbad b => symDcbad b c s

/-- An AC symbol on component `c` at zigzag cursor `k` (41_huffman_engine R157). -/
def runAcSym (i : AcSym) (c : Fin 3) (k : Nat) (s : State) : Ran Nat :=
  match i with
  | .eob => symEob c k s
  | .zrl => symZrl c k s
  | .zrun run => symZrun run c k s
  | .accoef run size => symAccoef run size c k s
  | .acbad run size => symAcbad run size c k s

/-- A DC symbol run alone in the context of the state (log 2); nothing while `VALID = 0` (log 12). -/
def loneDc (f : Fin 3 → State → Ran Unit) (s : State) : Host.Outcome State Fault Refusal :=
  command (f s.sym.comp) s

/-- The new zigzag cursor into the context of the state (log 2). -/
def storeK (r : Ran Nat) : Ran Unit :=
  r.andThen fun k s => .done () { s with sym := { s.sym with k := k } }

/-- An AC symbol run alone in the context of the state (log 2); nothing while `VALID = 0` (log 12). -/
def loneAc (f : Fin 3 → Nat → State → Ran Nat) (s : State) : Host.Outcome State Fault Refusal :=
  command (fun s' => storeK (f s.sym.comp s.sym.k s')) s

/-- DCCAT (42_entropy_symbols R180). -/
def execDccat (cat : Byte) (s : State) : Host.Outcome State Fault Refusal := loneDc (symDccat cat) s

/-- DCBAD (42_entropy_symbols R181). -/
def execDcbad (b : Byte) (s : State) : Host.Outcome State Fault Refusal := loneDc (symDcbad b) s

/-- EOB (42_entropy_symbols R182). -/
def execEob (s : State) : Host.Outcome State Fault Refusal := loneAc symEob s

/-- ZRL (42_entropy_symbols R183). -/
def execZrl (s : State) : Host.Outcome State Fault Refusal := loneAc symZrl s

/-- ZRUN (42_entropy_symbols R184). -/
def execZrun (run : BitVec 4) (s : State) : Host.Outcome State Fault Refusal := loneAc (symZrun run) s

/-- ACCOEF (42_entropy_symbols R185). -/
def execAccoef (run size : BitVec 4) (s : State) : Host.Outcome State Fault Refusal :=
  loneAc (symAccoef run size) s

/-- ACBAD (42_entropy_symbols R186). -/
def execAcbad (run size : BitVec 4) (s : State) : Host.Outcome State Fault Refusal :=
  loneAc (symAcbad run size) s

end Sys2Proof.Machine
end

