-- ==== Sys2Proof/Machine/BlockDecode.lean ====
section
/-! DEFINITION. Block decode, restart and unit sequencing (41_huffman_engine R155 to R166): DECDC, DECAC,
DECBLK, DECMCU, DECSCAN. -/

namespace Sys2Proof.Machine

/-- The DC table of component `c`, `COMPc.DCT` (10_state R37). -/
def dcTableOf (s : State) (c : Fin 3) : Fin 4 := tableId s.comps[c].dct

/-- The AC table of component `c`, `COMPc.ACT` (10_state R37). -/
def acTableOf (s : State) (c : Fin 3) : Fin 4 := tableId s.comps[c].act

/-- `DecodeDC(c)` (41_huffman_engine R155). -/
def decodeDC (c : Fin 3) (s : State) : Ran Unit :=
  (decodeSymbol .dc (dcTableOf s c) s).andThen fun b s' => runDcSym (decodeDc b) c s'

/-- The loop of `DecodeAC` from zigzag cursor `k`, at most `n` symbols (41_huffman_engine R157). -/
def decodeACFrom (c : Fin 3) : Nat → Nat → State → Ran Unit
  | 0, _, s => .done () s
  | n + 1, k, s =>
    if k < 64 then
      (decodeSymbol .ac (acTableOf s c) s).andThen fun b s1 =>
        (runAcSym (decodeAc b) c k s1).andThen fun k' s2 => decodeACFrom c n k' s2
    else .done () s

/-- `DecodeAC(c)` (41_huffman_engine R157): the zigzag cursor starts at 1 and every symbol advances it, so
63 symbols are enough. -/
def decodeAC (c : Fin 3) (s : State) : Ran Unit := decodeACFrom c 63 1 s

/-- `DecodeBlock(c)` (41_huffman_engine R159). -/
def decodeBlock (c : Fin 3) (s : State) : Ran Unit := (decodeDC c s).andThen fun _ s' => decodeAC c s'

/-- The checks of DECDC, DECAC and DECBLK in order: SEQUENCE, CONFIG, then the tables they decode through
(41_huffman_engine R156, R158, R160). -/
def blockChecks (c : Fin 3) (tables : State → Bool) (s : State) (go : State → Ran Unit) : Ran Unit :=
  require (decide (s.phase = .decode)) .sequence s fun s =>
    require (ncompOk s && decide (c.val < s.ncomp.toNat)) .config s fun s =>
      require (tables s) .table s go

/-- Whether the DC table of component `c` may be decoded through (41_huffman_engine R164). -/
def dcReady (c : Fin 3) (s : State) : Bool := tableReady s .dc (dcTableOf s c)

/-- Whether the AC table of component `c` may be decoded through (41_huffman_engine R164). -/
def acReady (c : Fin 3) (s : State) : Bool := tableReady s .ac (acTableOf s c)

/-- DECDC (41_huffman_engine R156). -/
def decdcBody (c : Fin 3) (s : State) : Ran Unit := blockChecks c (dcReady c) s (decodeDC c)

/-- DECAC (41_huffman_engine R158). -/
def decacBody (c : Fin 3) (s : State) : Ran Unit := blockChecks c (acReady c) s (decodeAC c)

/-- DECBLK (41_huffman_engine R160). -/
def decblkBody (c : Fin 3) (s : State) : Ran Unit :=
  blockChecks c (fun s => dcReady c s && acReady c s) s (decodeBlock c)

/-- DECDC c (41_huffman_engine R156). -/
def execDecdc (c : BitVec 2) (s : State) : Host.Outcome State Fault Refusal := compCommand c decdcBody s

/-- DECAC c (41_huffman_engine R158). -/
def execDecac (c : BitVec 2) (s : State) : Host.Outcome State Fault Refusal := compCommand c decacBody s

/-- DECBLK c (41_huffman_engine R160). -/
def execDecblk (c : BitVec 2) (s : State) : Host.Outcome State Fault Refusal := compCommand c decblkBody s

/-! ## Units -/

/-- Whether unit `BLKIDX` opens a restart segment (41_huffman_engine R161). -/
def restartDue (s : State) : Bool := decide (s.rsti ≠ 0#16 ∧ s.blkIdx.toNat % s.rsti.toNat = 0)

/-- `RestartCheck()` (41_huffman_engine R161). -/
def restartCheck (s : State) : State := if restartDue s then align (clearPred s) else s

/-- The end of a unit: the block index advances, and the last unit ends the scan
(41_huffman_engine R162). -/
def nextUnit (s : State) : State :=
  if s.blkIdx + 1 = s.nUnits then { s with blkIdx := s.blkIdx + 1, phase := .coef }
  else { s with blkIdx := s.blkIdx + 1 }

/-- The unit `BLKIDX`: restart rule, blocks in ascending component order, next unit
(41_huffman_engine R162). -/
def decodeUnit (s : State) : Ran Unit :=
  (forComps decodeBlock (components s) (restartCheck s)).andThen fun _ s' => .done () (nextUnit s')

/-- Whether both tables of every component may be decoded through (41_huffman_engine R162, R164). -/
def allReady (s : State) : Bool := (components s).all fun c => dcReady c s && acReady c s

/-- DECMCU (41_huffman_engine R162). -/
def decmcuBody (s : State) : Ran Unit :=
  require (decide (s.phase = .decode)) .sequence s fun s =>
    require (ncompOk s) .config s fun s => require (allReady s) .table s decodeUnit

/-- DECMCU (41_huffman_engine R162). -/
def execDecmcu (s : State) : Host.Outcome State Fault Refusal := command decmcuBody s

/-- The loop of DECSCAN, at most `n` units (41_huffman_engine R163). -/
def scanFrom : Nat → State → Ran Unit
  | 0, s => .done () s
  | n + 1, s =>
    if s.phase = .decode then (decmcuBody s).andThen fun _ s' => scanFrom n s' else .done () s

/-- How many units bring `BLKIDX` to `NUNITS`, 1 to 2^32 (41_huffman_engine R163; log 10). -/
def unitsLeft (s : State) : Nat := (s.nUnits - s.blkIdx - 1).toNat + 1

/-- DECSCAN (41_huffman_engine R163). -/
def decscanBody (s : State) : Ran Unit :=
  require (decide (s.phase = .decode)) .sequence s fun s => scanFrom (unitsLeft s) s

/-- DECSCAN (41_huffman_engine R163). -/
def execDecscan (s : State) : Host.Outcome State Fault Refusal := command decscanBody s

end Sys2Proof.Machine
end

