-- ==== Sys2Proof/Machine/Dequantizer.lean ====
section
/-! DEFINITION. The Dequantizer (43_dequantizer R200, R201): DEQUANT. -/

namespace Sys2Proof.Machine

/-- The quantization table of component `c`, `COMPc.QT` (10_state R37). -/
def qTableOf (s : State) (c : Fin 3) : Fin 4 := tableId s.comps[c].qt

/-- One product of `DequantBlock`, none where it does not fit (43_dequantizer R200). -/
def dequantElem (s : State) (u : Nat) (c : Fin 3) (i : Nat) (g : Grid) : Option Grid :=
  let p := g.read u c i * ((quantAt s (qTableOf s c) i).toNat : Int)
  if fits p then some (g.put u c i p) else none

/-- `DequantBlock(u, c)` (43_dequantizer R200). -/
def dequantBlock (s : State) (u : Nat) (c : Fin 3) (g : Grid) : Option Grid :=
  upTo (dequantElem s u c) 64 g

/-- The components of one unit in ascending order, stopping at the first failure. -/
def overComps (f : Fin 3 → Grid → Option Grid) : List (Fin 3) → Grid → Option Grid
  | [], g => some g
  | c :: cs, g => (f c g).bind (overComps f cs)

/-- Every component of every unit (43_dequantizer R201, 44_inverse_dct R217). -/
def overUnits (s : State) (f : Nat → Fin 3 → Grid → Option Grid) : Option Grid :=
  upTo (fun u => overComps (f u) (components s)) s.nUnits.toNat s.grid

/-- The end of a grid stage: RANGE where an element did not fit, else the new grid and the next phase
(43_dequantizer R201, 44_inverse_dct R217). -/
def finishStage (p : Phase) (r : Option Grid) (s : State) : Ran Unit :=
  match r with
  | some g => .done () { s with grid := g, phase := p }
  | none => .raised (raise .range s)

/-- The checks every grid stage begins with: SEQUENCE, then CONFIG (43_dequantizer R201,
44_inverse_dct R217, 45_color_converter R234). -/
def stageChecks (p : Phase) (s : State) (go : State → Ran Unit) : Ran Unit :=
  require (decide (s.phase = p)) .sequence s fun s => require (ncompOk s) .config s go

/-- Whether the quantization table of every component is set (43_dequantizer R201). -/
def allQuantSet (s : State) : Bool := (components s).all fun c => s.qTables[qTableOf s c].set

/-- DEQUANT (43_dequantizer R201). -/
def dequantBody (s : State) : Ran Unit :=
  stageChecks .coef s fun s =>
    require (allQuantSet s) .table s fun s => finishStage .deq (overUnits s (dequantBlock s)) s

/-- DEQUANT (43_dequantizer R201). -/
def execDequant (s : State) : Host.Outcome State Fault Refusal := command dequantBody s

end Sys2Proof.Machine
end

