-- ==== Sys2Proof/Machine/Color.lean ====
section
/-! DEFINITION. The Color Converter (45_color_converter R230 to R235): COLOR. -/

namespace Sys2Proof.Machine

/-- `clamp(v, 0, 255)` (00_scope R12). -/
def clamp255 (v : Int) : Int := if v < 0 then 0 else if 255 < v then 255 else v

/-- The red channel (45_color_converter R231): an exact rational, truncated, clamped. -/
def redOf (y cr : Int) : Int := clamp255 ((1000 * y + 1402 * cr + 128000).tdiv 1000)

/-- The green channel (45_color_converter R231). -/
def greenOf (y cb cr : Int) : Int :=
  clamp255 ((1000000 * y - 344136 * cb - 714136 * cr + 128000000).tdiv 1000000)

/-- The blue channel (45_color_converter R231). -/
def blueOf (y cb : Int) : Int := clamp255 ((1000 * y + 1772 * cb + 128000).tdiv 1000)

/-- `GraySample(Y)` (45_color_converter R233). -/
def grayOf (y : Int) : Int := clamp255 (y + 128)

/-- The three stores of one sample (45_color_converter R234). -/
def putRgb (u i : Nat) (r g b : Int) (gr : Grid) : Grid :=
  ((gr.put u 0 i r).put u 1 i g).put u 2 i b

/-- One sample of COLOR (45_color_converter R234): all inputs are read before any output is written. -/
def colorElem (three : Bool) (u i : Nat) (gr : Grid) : Grid :=
  let y := gr.read u 0 i
  if three then
    let cb := gr.read u 1 i
    let cr := gr.read u 2 i
    putRgb u i (redOf y cr) (greenOf y cb cr) (blueOf y cb) gr
  else putRgb u i (grayOf y) (grayOf y) (grayOf y) gr

/-- Every sample of every unit (45_color_converter R234). -/
def colorGrid (s : State) : Grid :=
  forUpTo (fun u => forUpTo (colorElem (decide (s.ncomp = 3#2)) u) 64) s.nUnits.toNat s.grid

/-- COLOR (45_color_converter R234). -/
def colorBody (s : State) : Ran Unit :=
  stageChecks .spatial s fun s => finishStage .rgb (some (colorGrid s)) s

/-- COLOR (45_color_converter R234). -/
def execColor (s : State) : Host.Outcome State Fault Refusal := command colorBody s

end Sys2Proof.Machine
end

