-- ==== Sys2Proof/Machine/Control.lean ====
section
/-! DEFINITION. The control commands (46_control R240 to R242): NOP, SCANINIT, RESET. -/

namespace Sys2Proof.Machine

/-- NOP (46_control R240). -/
def execNop (s : State) : Host.Outcome State Fault Refusal := plainCommand id s

/-- The number of units the header asks for (10_state R39, 46_control R241). -/
def unitCount (s : State) : Nat := ceil8 s.height.toNat * ceil8 s.width.toNat

/-- The state a scan starts in (46_control R241). -/
def startScan (s : State) : State :=
  { clearPred (setCursor 0 0 s) with
    nUnits := BitVec.ofNat 32 (unitCount s)
    blkIdx := 0
    grid := s.grid.forget
    phase := .decode }

/-- SCANINIT (46_control R241): three CONFIG checks, RESOURCE, then the start of a scan. -/
def scaninitBody (s : State) : Ran Unit :=
  require (ncompOk s) .config s fun s =>
    require (decide (s.width ≠ 0#16 ∧ s.height ≠ 0#16)) .config s fun s =>
      require (decide (s.entLen.toNat ≤ s.cfg.entCap.toNat)) .config s fun s =>
        require (decide (unitCount s ≤ s.cfg.gridCap)) .resource s fun s => .done () (startScan s)

/-- SCANINIT (46_control R241). -/
def execScaninit (s : State) : Host.Outcome State Fault Refusal := command scaninitBody s

/-- RESET (46_control R242): the one command executed while `VALID = 0`. -/
def execReset (s : State) : Host.Outcome State Fault Refusal := .next (resetEngine s)

end Sys2Proof.Machine
end

