-- ==== Sys2Proof/Machine/InverseDct.lean ====
section
/-! DEFINITION. The Inverse DCT (44_inverse_dct R210 to R219): IDCT.  The reference transform is computed
exactly: with θ = 2cos(π/16), η = 2cos(π/8) and √2 = 2cos(π/4), sixteen times `ref(F)[i]` of R210 is an
integer combination of the products of √2, η and θ, and rounding it needs only the signs of such numbers,
which are decided by squaring.  No approximation of a cosine is used (log 9). -/

namespace Sys2Proof.Machine

/-! ## Exact numbers -/

/-- `a + b·√2`. -/
structure Z1 where
  a : Int
  b : Int
deriving DecidableEq, Repr

/-- `a + b·η`, with η = 2cos(π/8), so η² = 2 + √2. -/
structure Z2 where
  a : Z1
  b : Z1
deriving DecidableEq, Repr

/-- `a + b·θ`, with θ = 2cos(π/16), so θ² = 2 + η. -/
structure Z3 where
  a : Z2
  b : Z2
deriving DecidableEq, Repr

/-- An integer. -/
def Z1.ofInt (n : Int) : Z1 := ⟨n, 0⟩

/-- Sum. -/
def Z1.add (x y : Z1) : Z1 := ⟨x.a + y.a, x.b + y.b⟩

/-- Negation. -/
def Z1.neg (x : Z1) : Z1 := ⟨-x.a, -x.b⟩

/-- Product, with (√2)² = 2. -/
def Z1.mul (x y : Z1) : Z1 := ⟨x.a * y.a + 2 * (x.b * y.b), x.a * y.b + x.b * y.a⟩

/-- η² = 2 + √2. -/
def Z1.etaSq : Z1 := ⟨2, 1⟩

/-- A number without η. -/
def Z2.ofZ1 (x : Z1) : Z2 := ⟨x, Z1.ofInt 0⟩

/-- An integer. -/
def Z2.ofInt (n : Int) : Z2 := Z2.ofZ1 (Z1.ofInt n)

/-- Sum. -/
def Z2.add (x y : Z2) : Z2 := ⟨x.a.add y.a, x.b.add y.b⟩

/-- Negation. -/
def Z2.neg (x : Z2) : Z2 := ⟨x.a.neg, x.b.neg⟩

/-- Product, with η² = 2 + √2. -/
def Z2.mul (x y : Z2) : Z2 :=
  ⟨(x.a.mul y.a).add (Z1.etaSq.mul (x.b.mul y.b)), (x.a.mul y.b).add (x.b.mul y.a)⟩

/-- η. -/
def Z2.eta : Z2 := ⟨Z1.ofInt 0, Z1.ofInt 1⟩

/-- θ² = 2 + η. -/
def Z2.thetaSq : Z2 := ⟨Z1.ofInt 2, Z1.ofInt 1⟩

/-- A number without θ. -/
def Z3.ofZ2 (x : Z2) : Z3 := ⟨x, Z2.ofInt 0⟩

/-- An integer. -/
def Z3.ofInt (n : Int) : Z3 := Z3.ofZ2 (Z2.ofInt n)

/-- Sum. -/
def Z3.add (x y : Z3) : Z3 := ⟨x.a.add y.a, x.b.add y.b⟩

/-- Negation. -/
def Z3.neg (x : Z3) : Z3 := ⟨x.a.neg, x.b.neg⟩

/-- Product, with θ² = 2 + η. -/
def Z3.mul (x y : Z3) : Z3 :=
  ⟨(x.a.mul y.a).add (Z2.thetaSq.mul (x.b.mul y.b)), (x.a.mul y.b).add (x.b.mul y.a)⟩

/-- `n·x`. -/
def Z3.scale (n : Int) (x : Z3) : Z3 := (Z3.ofInt n).mul x

/-- Whether an integer is at least 0. -/
def intNonneg (n : Int) : Bool := decide (0 ≤ n)

/-- Whether `a + b·√2` is at least 0: by the signs of `a` and `b`, and by squaring where they differ. -/
def Z1.nonneg (x : Z1) : Bool :=
  match intNonneg x.a, intNonneg x.b with
  | true, true => true
  | true, false => intNonneg (x.a * x.a - 2 * (x.b * x.b))
  | false, true => intNonneg (2 * (x.b * x.b) - x.a * x.a)
  | false, false => false

/-- Whether `a + b·η` is at least 0. -/
def Z2.nonneg (x : Z2) : Bool :=
  match x.a.nonneg, x.b.nonneg with
  | true, true => true
  | true, false => ((x.a.mul x.a).add (Z1.etaSq.mul (x.b.mul x.b)).neg).nonneg
  | false, true => ((Z1.etaSq.mul (x.b.mul x.b)).add (x.a.mul x.a).neg).nonneg
  | false, false => false

/-- Whether `a + b·θ` is at least 0. -/
def Z3.nonneg (x : Z3) : Bool :=
  match x.a.nonneg, x.b.nonneg with
  | true, true => true
  | true, false => ((x.a.mul x.a).add (Z2.thetaSq.mul (x.b.mul x.b)).neg).nonneg
  | false, true => ((Z2.thetaSq.mul (x.b.mul x.b)).add (x.a.mul x.a).neg).nonneg
  | false, false => false

/-- A bound on the magnitude: √2, η and θ are below 2. -/
def Z1.bound (x : Z1) : Nat := x.a.natAbs + 2 * x.b.natAbs

/-- A bound on the magnitude: √2, η and θ are below 2. -/
def Z2.bound (x : Z2) : Nat := x.a.bound + 2 * x.b.bound

/-- A bound on the magnitude: √2, η and θ are below 2. -/
def Z3.bound (x : Z3) : Nat := x.a.bound + 2 * x.b.bound

/-- The largest integer of `m .. m + 2^n - 1` where a falling test holds, if it holds at `m`. -/
def searchFrom (test : Int → Bool) : Nat → Int → Int
  | 0, m => m
  | n + 1, m => if test (m + 2 ^ n) then searchFrom test n (m + 2 ^ n) else searchFrom test n m

/-- Half the width of the interval `floor(x / 16)` is sought in. -/
def Z3.reach (x : Z3) : Nat := x.bound / 16 + 1

/-- `floor(x / 16)`: the largest integer `m` with `16·m ≤ x`. -/
def Z3.floor16 (x : Z3) : Int :=
  searchFrom (fun m => (x.add (Z3.ofInt (-(16 * m)))).nonneg) ((2 * x.reach).log2 + 1) (-(x.reach : Int))

/-! ## The reference transform -/

/-- `2·cos(j·π/16)` for `j = 0 .. 8`. -/
def twoCosTable (j : Nat) : Z3 :=
  match j with
  | 0 => Z3.ofInt 2
  | 1 => ⟨Z2.ofInt 0, Z2.ofInt 1⟩
  | 2 => Z3.ofZ2 Z2.eta
  | 3 => ⟨Z2.ofInt 0, ⟨⟨-1, 0⟩, ⟨1, 0⟩⟩⟩
  | 4 => Z3.ofZ2 (Z2.ofZ1 ⟨0, 1⟩)
  | 5 => ⟨Z2.ofInt 0, ⟨⟨1, 1⟩, ⟨-1, 0⟩⟩⟩
  | 6 => Z3.ofZ2 ⟨⟨0, 0⟩, ⟨-1, 1⟩⟩
  | 7 => ⟨Z2.ofInt 0, ⟨⟨-1, -1⟩, ⟨0, 1⟩⟩⟩
  | _ => Z3.ofInt 0

/-- `2·cos(m·π/16)`, by `cos(2π - φ) = cos φ` and `cos(π - φ) = -cos φ`. -/
def twoCos (m : Nat) : Z3 :=
  let r := if m % 32 ≤ 16 then m % 32 else 32 - m % 32
  if r ≤ 8 then twoCosTable r else (twoCosTable (16 - r)).neg

/-- `2·C(u)·cos((2x+1)·u·π/16)` (44_inverse_dct R210): for `u = 0` it is √2. -/
def basis (x u : Nat) : Z3 := if u = 0 then twoCosTable 4 else twoCos ((2 * x + 1) * u)

/-- A vector from its elements. -/
def tabulate {α : Type} (n : Nat) (f : Nat → α) : Vector α n := ⟨((List.range n).map f).toArray, by simp⟩

/-- The sum of `f 0 .. f (n-1)`. -/
def sumZ3 (f : Nat → Z3) : Nat → Z3
  | 0 => Z3.ofInt 0
  | n + 1 => (sumZ3 f n).add (f n)

/-- Element `8*v + u` of a block (44_inverse_dct R210). -/
def blockAt (F : Block) (v u : Nat) : Int := F.getD (8 * v + u) 0

/-- The 1-D transform of row `v` at column `x`, four times over (44_inverse_dct R210, separable form). -/
def rowPass (F : Block) (v x : Nat) : Z3 := sumZ3 (fun u => Z3.scale (blockAt F v u) (basis x u)) 8

/-- `16·ref(F)[8*y + x]` (44_inverse_dct R210, separable form). -/
def refTimes16 (F : Block) (y x : Nat) : Z3 := sumZ3 (fun v => (rowPass F v x).mul (basis y v)) 8

/-- `16·(ref(F)[i] + 1/2)`. -/
def refPlusHalf (F : Block) (i : Nat) : Z3 := (refTimes16 F (i / 8) (i % 8)).add (Z3.ofInt 8)

/-- `idct_ref(F)[i]` = floor(ref(F)[i] + 1/2) (44_inverse_dct R212). -/
def idctRefAt (F : Block) (i : Nat) : Int := (refPlusHalf F i).floor16

/-- `idct_src(F)[i]` = trunc(ref(F)[i] + 1/2) (44_inverse_dct R216). -/
def idctSrcAt (F : Block) (i : Nat) : Int :=
  if (refPlusHalf F i).nonneg then (refPlusHalf F i).floor16 else -((refPlusHalf F i).neg).floor16

/-! ## Every conformant transform -/

/-- A deviation cut to -1..1 (44_inverse_dct R213). -/
def cutToOne (d : Int) : Int := if d < -1 then -1 else if 1 < d then 1 else d

/-- Whether only `F[0]` may be nonzero (44_inverse_dct R215). -/
def onlyDc (F : Block) : Bool := (List.range 63).all fun i => decide (F.getD (i + 1) 0 = 0)

/-- Whether every element lies in `-2^28 .. 2^28` (44_inverse_dct R213). -/
def inTolerance (F : Block) : Bool := F.toList.all fun v => decide (-268435456 ≤ v ∧ v ≤ 268435456)

/-- A transform of which nothing is known but R213 (within 1 of `idct_ref` in the tolerance range), R214
(zero to zero) and R215 (uniform on a DC-only block); log 9. -/
def idctOtherAt (F : Block) (i : Nat) : Int :=
  if onlyDc F ∧ F.getD 0 0 = 0 then 0
  else
    let j := if onlyDc F then 0 else i
    if inTolerance F then idctRefAt F j + cutToOne (Config.idctDeviation F j) else Config.idctOutside F j

/-- The transform the configuration names (00_scope R9). -/
def idctAt (c : IdctChoice) (F : Block) (i : Nat) : Int :=
  match c with
  | .ref => idctRefAt F i
  | .src => idctSrcAt F i
  | .other => idctOtherAt F i

/-- `idct` on a block (44_inverse_dct R213). -/
def idctOf (c : IdctChoice) (F : Block) : Block := tabulate 64 (idctAt c F)

/-! ## The command -/

/-- The block `GRID[u][c]` (44_inverse_dct R217). -/
def gridBlock (g : Grid) (u : Nat) (c : Fin 3) : Block := tabulate 64 (g.read u c)

/-- The stores of a block (44_inverse_dct R217). -/
def putBlock (u : Nat) (c : Fin 3) (B : Block) (g : Grid) : Grid :=
  forUpTo (fun i g => g.put u c i (B.getD i 0)) 64 g

/-- One block of IDCT (44_inverse_dct R217): all inputs are read before any output is written. -/
def idctBlock (choice : IdctChoice) (u : Nat) (c : Fin 3) (g : Grid) : Option Grid :=
  let B := idctOf choice (gridBlock g u c)
  if B.toList.all fits then some (putBlock u c B g) else none

/-- IDCT (44_inverse_dct R217). -/
def idctBody (s : State) : Ran Unit :=
  stageChecks .deq s fun s => finishStage .spatial (overUnits s (idctBlock s.cfg.idct)) s

/-- IDCT (44_inverse_dct R217). -/
def execIdct (s : State) : Host.Outcome State Fault Refusal := command idctBody s

end Sys2Proof.Machine
end

