-- ==== Sys2Proof/Machine/Dispatch.lean ====
section
/-! DEFINITION. One arm per instruction: the meaning it has. -/

namespace Sys2Proof.Machine

/-- The meaning of an instruction of either level (30_encoding R104, R109, R112). -/
def exec (i : Instr) (s : State) : Host.Outcome State Fault Refusal :=
  match i with
  | .nop => Sys2Proof.Machine.execNop s
  | .scaninit => Sys2Proof.Machine.execScaninit s
  | .rdbit => Sys2Proof.Machine.execRdbit s
  | .rdbits n => Sys2Proof.Machine.execRdbits n s
  | .align => Sys2Proof.Machine.execAlign s
  | .htbuild k t => Sys2Proof.Machine.execHtbuild k t s
  | .decsym k t => Sys2Proof.Machine.execDecsym k t s
  | .decdc c => Sys2Proof.Machine.execDecdc c s
  | .decac c => Sys2Proof.Machine.execDecac c s
  | .decblk c => Sys2Proof.Machine.execDecblk c s
  | .decmcu => Sys2Proof.Machine.execDecmcu s
  | .decscan => Sys2Proof.Machine.execDecscan s
  | .dequant => Sys2Proof.Machine.execDequant s
  | .idct => Sys2Proof.Machine.execIdct s
  | .color => Sys2Proof.Machine.execColor s
  | .reset => Sys2Proof.Machine.execReset s
  | .dccat cat => Sys2Proof.Machine.execDccat cat s
  | .dcbad b => Sys2Proof.Machine.execDcbad b s
  | .eob => Sys2Proof.Machine.execEob s
  | .zrl => Sys2Proof.Machine.execZrl s
  | .zrun run => Sys2Proof.Machine.execZrun run s
  | .accoef run size => Sys2Proof.Machine.execAccoef run size s
  | .acbad run size => Sys2Proof.Machine.execAcbad run size s

end Sys2Proof.Machine
end

