-- ==== Sys2Proof/Machine/HostPort.lean ====
section
/-! DEFINITION. The host's operations (46_control R243): registers as 10_state R32 lays them out, the elements
of the other spaces (20_memory R70, R72), the issue of a command (46_control R245), the hardware reset
signal (70 R300), and how a word is queued. -/

namespace Sys2Proof.Machine

/-- The value of register `n` (46_control R243, 10_state R32): 0 for `CMD` and for numbers above 18. -/
def regRead (s : State) (n : Nat) : Word :=
  match n with
  | 1 => statusWord s
  | 2 => s.fault.code
  | 3 => s.result
  | 4 => s.ncomp.setWidth 32
  | 5 => s.width.setWidth 32
  | 6 => s.height.setWidth 32
  | 7 => s.rsti.setWidth 32
  | 8 => s.comps[0].word
  | 9 => s.comps[1].word
  | 10 => s.comps[2].word
  | 11 => s.entLen
  | 12 => s.byteIdx
  | 13 => s.bitIdx.setWidth 32
  | 14 => s.blkIdx
  | 15 => s.nUnits
  | 16 => s.pred[0]
  | 17 => s.pred[1]
  | 18 => s.pred[2]
  | _ => 0

/-- A write of a register other than `CMD` (46_control R243, 10_state R32): only the RW registers change,
each its fields from the corresponding bits. -/
def regWrite (s : State) (n : Nat) (v : Word) : State :=
  match n with
  | 4 => { s with ncomp := v.setWidth 2 }
  | 5 => { s with width := v.setWidth 16 }
  | 6 => { s with height := v.setWidth 16 }
  | 7 => { s with rsti := v.setWidth 16 }
  | 8 => { s with comps := s.comps.set 0 (CompReg.ofWord v) }
  | 9 => { s with comps := s.comps.set 1 (CompReg.ofWord v) }
  | 10 => { s with comps := s.comps.set 2 (CompReg.ofWord v) }
  | 11 => { s with entLen := v }
  | _ => s

/-- Whether an element lies in the range the host reaches (20_memory R70, R72; `ENT`: log 6). -/
def elemInRange (s : State) : Elem → Bool
  | .ent i => decide (i < s.cfg.entCap.toNat)
  | .offs _ _ j => decide (j < 17)
  | .sym _ _ j => decide (j < 162)
  | .code _ _ j => decide (j < 162)
  | .htSet _ _ => true
  | .htBuilt _ _ => true
  | .q _ i => decide (i < 64)
  | .qtSet _ => true
  | .grid u p i => decide (u < s.nUnits.toNat ∧ p < 3 ∧ i < 64)

/-- The contents of an element as the host reads them (46_control R243). -/
def elemWord (s : State) : Elem → Word
  | .ent i => (entAt s i).setWidth 32
  | .offs k t j => (offsByte s k t j).setWidth 32
  | .sym k t j => (symAt s k t j).setWidth 32
  | .code k t j => codeAt s k t j
  | .htSet k t => bitWord (s.ht k t).set
  | .htBuilt k t => bitWord (s.ht k t).built
  | .q t i => (quantAt s t i).setWidth 32
  | .qtSet t => bitWord s.qTables[t].set
  | .grid u p i => s.grid.word u p i

/-- `MemRead` (46_control R243): 0 outside the range. -/
def memRead (s : State) (e : Elem) : Word := if elemInRange s e then elemWord s e else 0

/-- Replace `QT[t]`. -/
def setQt (t : Fin 4) (q : QuantTable) (s : State) : State := { s with qTables := s.qTables.set t q }

/-- The store of an element, cut to its width (46_control R243): a write of `OFFS`, `SYM` or `SET` clears
`BUILT` (20_memory R78); `CODE` and `BUILT` are not written by the host. -/
def elemStore (s : State) (e : Elem) (v : Word) : State :=
  match e with
  | .ent i => { s with ent := s.ent.write i (v.setWidth 8) }
  | .offs k t j =>
    setHt k t { s.ht k t with offs := (s.ht k t).offs.write j (v.setWidth 8), built := false } s
  | .sym k t j =>
    setHt k t { s.ht k t with sym := (s.ht k t).sym.write j (v.setWidth 8), built := false } s
  | .code _ _ _ => s
  | .htSet k t => setHt k t { s.ht k t with set := v.getLsbD 0, built := false } s
  | .htBuilt _ _ => s
  | .q t i => setQt t { s.qTables[t] with q := s.qTables[t].q.write i (v.setWidth 16) } s
  | .qtSet t => setQt t { s.qTables[t] with set := v.getLsbD 0 } s
  | .grid u p i => { s with grid := { s.grid with cells := s.grid.cells.write (gridKey u p i) v } }

/-- `MemWrite` (46_control R243): nothing outside the range. -/
def memWrite (s : State) (e : Elem) (v : Word) : State := if elemInRange s e then elemStore s e v else s

/-- The Huffman store with class number `k` and id `t` (20_memory R70: k in 0..1, 0 = DC, 1 = AC; t in 0..3). -/
def huffStore (k t : Nat) : Option (HuffClass × Fin 4) :=
  if h : k < 2 ∧ t < 4 then some (if k = 0 then .dc else .ac, ⟨t, h.2⟩) else none

/-- The quantization store with id `t` (20_memory R70). -/
def quantStore (t : Nat) : Option (Fin 4) := if h : t < 4 then some ⟨t, h⟩ else none

/-- The element at an address; none where the address names a store that does not exist (20_memory R70, R72). -/
def Address.elem (a : Address) : Option Elem :=
  match a with
  | .ent i => some (.ent i)
  | .offs k t j => (huffStore k t).map fun h => .offs h.1 h.2 j
  | .sym k t j => (huffStore k t).map fun h => .sym h.1 h.2 j
  | .code k t j => (huffStore k t).map fun h => .code h.1 h.2 j
  | .htSet k t => (huffStore k t).map fun h => .htSet h.1 h.2
  | .htBuilt k t => (huffStore k t).map fun h => .htBuilt h.1 h.2
  | .q t i => (quantStore t).map fun h => .q h i
  | .qtSet t => (quantStore t).map fun h => .qtSet h
  | .grid u p i => some (.grid u p i)

/-- `MemRead` at an address (46_control R243): 0 where there is no element (20_memory R72). -/
def addressRead (s : State) (a : Address) : Word :=
  match a.elem with
  | some e => memRead s e
  | none => 0

/-- `MemWrite` at an address (46_control R243): nothing where there is no element (20_memory R72). -/
def addressWrite (s : State) (a : Address) (v : Word) : State :=
  match a.elem with
  | some e => memWrite s e v
  | none => s

/-- The unit that holds pixel `(x, y)` of an image `width` pixels wide (20_memory R79). -/
def pixelUnit (width x y : Nat) : Nat := y / 8 * ceil8 width + x / 8

/-- The place of pixel `(x, y)` in its unit (20_memory R79). -/
def pixelIndex (x y : Nat) : Nat := 8 * (y % 8) + x % 8

/-- The address of sample `p` (0 red, 1 green, 2 blue) of pixel `(x, y)`, the output boundary of the engine
(20_memory R79, 00_scope R6). -/
def pixelAddress (s : State) (x y p : Nat) : Address := .grid (pixelUnit s.width.toNat x y) p (pixelIndex x y)

/-- A write of `w` to `CMD` (10_state R33, 46_control R245): an illegal word raises ILLCMD if
`VALID = 1` and is ignored otherwise; a legal word runs its command, which tests `VALID` itself. -/
def issue (w : Word) (s : State) : Host.Outcome State Fault Refusal :=
  match decodeCmd w with
  | .ok i => exec i s
  | .error _ => plainCommand (raise .illcmd) s

/-- One operation of the host (46_control R243); what a read returns is kept in `hostData` (log 8). -/
def hostStep (o : HostOp) (s : State) : Host.Outcome State Fault Refusal :=
  match o with
  | .regRead n => .next { s with hostData := regRead s n }
  | .regWrite 0 v => issue v s
  | .regWrite (n + 1) v => .next (regWrite s (n + 1) v)
  | .memRead a => .next { s with hostData := addressRead s a }
  | .memWrite a v => .next (addressWrite s a v)

/-- What the oldest pending entry does (log 1); a lone symbol is decoded by the format of its class and
executed (log 2). -/
def pendingStep (p : Pending) (s : State) : Host.Outcome State Fault Refusal :=
  match p with
  | .op o => hostStep o s
  | .hardReset => .next (resetEngine s)
  | .symbol k b => exec (decodeSymbolByte k b) s

/-- The entry that presents the bits of a row of spec/opcode_table.json (logs 1, 3). -/
def wordEntry (nbits w : Nat) : Pending :=
  if nbits ≤ 8 then .symbol (tableByteClass (BitVec.ofNat 8 w)) (BitVec.ofNat 8 w)
  else .op (.regWrite 0 (BitVec.ofNat 32 w))

end Sys2Proof.Machine
end

