-- ==== Sys2Proof/Machine/Step.lean ====
section
/-! DEFINITION. One step: the oldest pending entry happens (log 1).  With nothing pending the engine waits:
it executes nothing until the host writes `CMD` (70 R301). -/

namespace Sys2Proof.Machine

/-- One step of the machine (20_memory R83, 46_control R243). -/
def step (s : State) : Host.Outcome State Fault Refusal :=
  match s.pending with
  | [] => .next s
  | p :: rest => pendingStep p { s with pending := rest }

/-- The state with the bits of a row of spec/opcode_table.json pending first, so that the next step runs
that instruction (logs 1, 3). -/
def State.withFetchWord (s : State) (nbits w : Nat) : State :=
  { s with pending := wordEntry nbits w :: s.pending }

end Sys2Proof.Machine
end

