-- ==== Sys2Proof/Safety.lean ====
section
/-! DEFINITION. The terms the claims are stated in: the entropy stream as one string of bits (20_memory R73,
R74), the code at a position (30_encoding R107), the grammar of a block (30_encoding R106), the
invariants of the machine, and the rows of the opcode table (30_encoding R104).  Nothing here is part of
the machine: no step uses a definition of this file. -/

namespace Sys2Proof.Machine

/-! ## The stream -/

/-- The linear position of the cursor (10_state R24). -/
def cursorPos (s : State) : Nat := 8 * s.byteIdx.toNat + s.bitIdx.toNat

/-- The number of bits the Bit Reader may deliver, `8 * END` (40_bit_reader R130). -/
def streamEnd (s : State) : Nat := 8 * endIdx s

/-- Bit `n` of the stream (20_memory R73). -/
def streamBit (s : State) (n : Nat) : Nat := ((entAt s (n / 8)).getLsbD (7 - n % 8)).toNat

/-- The value of the `n` bits from position `p`, the first the most significant (20_memory R74). -/
def streamField (s : State) (p : Nat) : Nat → Nat
  | 0 => 0
  | n + 1 => 2 * streamField s p n + streamBit s (p + n)

/-- The state with the cursor at linear position `p` (10_state R24). -/
def atPos (p : Nat) (s : State) : State := setCursor (BitVec.ofNat 32 (p / 8)) (BitVec.ofNat 3 (p % 8)) s

/-- The cursor invariant (10_state R26). -/
def CursorOk (s : State) : Prop :=
  s.byteIdx.toNat ≤ s.entLen.toNat ∧ (s.byteIdx = s.entLen → s.bitIdx = 0#3)

/-! ## Codes -/

/-- Entry `j` has a code of `l` bits (10_state R40, 30_encoding R107). -/
def HasLength (s : State) (k : HuffClass) (t : Fin 4) (l j : Nat) : Prop :=
  1 ≤ l ∧ l ≤ 16 ∧ offsAt s k t (l - 1) ≤ j ∧ j < offsAt s k t l

/-- The `l` bits at position `p` are the code of entry `j` (30_encoding R107). -/
def CodeIs (s : State) (k : HuffClass) (t : Fin 4) (p l j : Nat) : Prop :=
  HasLength s k t l j ∧ (codeAt s k t j).toNat = streamField s p l

/-- Entry `j`, of length `l`, is the first match at position `p` (41_huffman_engine R153): across lengths
the shortest, within a length the lowest; all its bits are there. -/
def FirstMatch (s : State) (k : HuffClass) (t : Fin 4) (p l j : Nat) : Prop :=
  CodeIs s k t p l j ∧ p + l ≤ streamEnd s ∧
    ∀ l' j', CodeIs s k t p l' j' → l < l' ∨ (l' = l ∧ j ≤ j')

/-- A table HTBUILD accepts (41_huffman_engine R150, the four checks). -/
def OffsetsLegal (s : State) (k : HuffClass) (t : Fin 4) : Prop :=
  offsAt s k t 0 = 0 ∧ (∀ l, 1 ≤ l → l ≤ 16 → offsAt s k t (l - 1) ≤ offsAt s k t l) ∧
    offsAt s k t 16 ≤ 162

/-- The number of codes of `l` bits (41_huffman_engine R151). -/
def codeCount (offs : Nat → Nat) (l : Nat) : Nat := offs l - offs (l - 1)

/-- The running code value before the codes of `l + 1` bits (41_huffman_engine R150). -/
def firstCode (offs : Nat → Nat) : Nat → Nat
  | 0 => 0
  | l + 1 => 2 * (firstCode offs l + codeCount offs (l + 1))

/-- The sum over the first `n` lengths of `count[l] * 2^(16-l)` (41_huffman_engine R151). -/
def kraftSum (offs : Nat → Nat) : Nat → Nat
  | 0 => 0
  | n + 1 => kraftSum offs n + codeCount offs (n + 1) * 2 ^ (16 - (n + 1))

/-- The codes of a table are the ones HTBUILD generates from its offsets (10_state R46). -/
def CodesBuilt (s : State) (k : HuffClass) (t : Fin 4) : Prop :=
  ∀ l j, HasLength s k t l j →
    (codeAt s k t j).toNat = firstCode (offsAt s k t) (l - 1) + (j - offsAt s k t (l - 1))

/-- No code of the table stands whole at position `p` (41_huffman_engine R153: "a decode failure"). -/
def NoCode (s : State) (k : HuffClass) (t : Fin 4) (p : Nat) : Prop :=
  ∀ l j, p + l ≤ streamEnd s → ¬ CodeIs s k t p l j

/-- The cursor at the end of the stream, or where it is if it stands beyond (40_bit_reader R132). -/
def atEnd (s : State) : State := atPos (max (cursorPos s) (streamEnd s)) s

/-- The fault of a code that is not there (60_exceptions R263, R264): NOCODE after 16 bits, UNDERRUN where the
stream ends before them. -/
def lostCode (p : Nat) (s : State) : State :=
  if p + 16 ≤ streamEnd s then raise .nocode (atPos (p + 16) s) else raise .underrun (atEnd (atPos p s))

/-- The codes of the entries of a list stand one after another at position `p`
(41_huffman_engine R151, "a sequence of emitted codes"). -/
def Emitted (s : State) (k : HuffClass) (t : Fin 4) : Nat → List Nat → Prop
  | _, [] => True
  | p, j :: js => ∃ l, CodeIs s k t p l j ∧ p + l ≤ streamEnd s ∧ Emitted s k t (p + l) js

/-! ## The grammar of a block -/

/-- One DC item at position `p` (30_encoding R106, R108): the difference it encodes and where it ends. -/
def DcItem (s : State) (t : Fin 4) (p : Nat) (diff : Int) (p' : Nat) : Prop :=
  ∃ l j, FirstMatch s .dc t p l j ∧ (symAt s .dc t j).toNat ≤ 11 ∧
    p' = p + l + (symAt s .dc t j).toNat ∧ p' ≤ streamEnd s ∧
    diff = extend (streamField s (p + l) (symAt s .dc t j).toNat) (symAt s .dc t j).toNat

/-- AC items one after another: from zigzag position `k` and stream position `p`, with the values `vs` for the
zigzag positions passed over, to zigzag position `k'` and stream position `p'` (30_encoding R106, R112;
42_entropy_symbols R182 to R185).  At `k' = 64` the block is complete. -/
inductive AcItems (s : State) (t : Fin 4) : Nat → Nat → List Int → Nat → Nat → Prop
  | nil (k p : Nat) : AcItems s t k p [] k p
  | eob (k p l j : Nat) : k < 64 → FirstMatch s .ac t p l j → (symAt s .ac t j).toNat = 0x00 →
      AcItems s t k p (List.replicate (64 - k) 0) 64 (p + l)
  | zrl (k p l j : Nat) (vs : List Int) (k' p' : Nat) : FirstMatch s .ac t p l j →
      (symAt s .ac t j).toNat = 0xF0 → k + 16 < 64 → AcItems s t (k + 16) (p + l) vs k' p' →
      AcItems s t k p (List.replicate 16 0 ++ vs) k' p'
  | zrun (k p l j run : Nat) (vs : List Int) (k' p' : Nat) : FirstMatch s .ac t p l j →
      (symAt s .ac t j).toNat = 16 * run → 1 ≤ run → run ≤ 14 → k + run < 64 →
      AcItems s t (k + run) (p + l) vs k' p' → AcItems s t k p (List.replicate run 0 ++ vs) k' p'
  | coef (k p l j run size : Nat) (vs : List Int) (k' p' : Nat) : FirstMatch s .ac t p l j →
      (symAt s .ac t j).toNat = 16 * run + size → 1 ≤ size → size ≤ 10 → k + run < 64 →
      p + l + size ≤ streamEnd s → AcItems s t (k + run + 1) (p + l + size) vs k' p' →
      AcItems s t k p (List.replicate run 0 ++ extend (streamField s (p + l) size) size :: vs) k' p'

/-- Values stored at the zigzag positions from `m` on, of component `c` of unit `BLKIDX`
(20_memory R81). -/
def storeCoefs (c : Fin 3) : Nat → List Int → State → State
  | _, [], s => s
  | m, v :: vs, s => storeCoefs c (m + 1) vs (putCoef c m v s)

/-- A block of component `c` stands at the cursor of `s`, and `s'` is `s` with it decoded
(41_huffman_engine R159). -/
def BlockDecodes (c : Fin 3) (s s' : State) : Prop :=
  ∃ diff q vs p', DcItem s (dcTableOf s c) (cursorPos s) diff q ∧ fits (predAt s c + diff) = true ∧
    AcItems s (acTableOf s c) 1 q vs 64 p' ∧
    s' = atPos p' (storeCoefs c 0 ((predAt s c + diff) :: vs) (setPred c (predAt s c + diff) s))

/-- Blocks of the components of a list stand one after another at the cursor. -/
def BlocksDecode : List (Fin 3) → State → State → Prop
  | [], s, s' => s' = s
  | c :: cs, s, s' => ∃ m, BlockDecodes c s m ∧ BlocksDecode cs m s'

/-- The components of a unit in the order their blocks stand in the stream (20_memory R80, 41_huffman_engine R162). -/
def UnitOrder (s : State) (cs : List (Fin 3)) : Prop :=
  (s.ncomp.toNat = 1 ∧ cs = [0]) ∨ (s.ncomp.toNat = 3 ∧ cs = [0, 1, 2])

/-- The state with the unit `BLKIDX` counted as decoded; after the last unit of the scan the phase is COEF
(41_huffman_engine R162). -/
def unitCounted (s : State) : State :=
  { s with blkIdx := s.blkIdx + 1, phase := if s.blkIdx + 1 = s.nUnits then .coef else s.phase }

/-- The unit `BLKIDX` stands at the cursor, after the restart rule (41_huffman_engine R161, R162). -/
def UnitDecodes (s s' : State) : Prop :=
  ∃ cs m, UnitOrder s cs ∧ BlocksDecode cs (restartCheck s) m ∧ s' = unitCounted m

/-- Units stand one after another at the cursor, the last of them the last of the scan
(41_huffman_engine R163). -/
inductive ScanDecodes : State → State → Prop
  | last (s s' : State) : UnitDecodes s s' → s'.phase = .coef → ScanDecodes s s'
  | more (s m s' : State) : UnitDecodes s m → m.phase = .decode → ScanDecodes m s' → ScanDecodes s s'

/-! ## Where a stream breaks

`u` is the state with the fault raised: the cursor and the predictors where decoding had got to
(41_huffman_engine R166), the grid forgotten. -/

/-- The DC item at the cursor breaks (60_exceptions R276: the code, the symbol, the value field, the sum). -/
def DcBreaks (c : Fin 3) (s u : State) : Prop :=
  let t := dcTableOf s c
  let p := cursorPos s
  (NoCode s .dc t p ∧ u = lostCode p s) ∨
  (∃ l j, FirstMatch s .dc t p l j ∧
    ((12 ≤ (symAt s .dc t j).toNat ∧ u = raise .dccat (atPos (p + l) s)) ∨
     ((symAt s .dc t j).toNat ≤ 11 ∧ streamEnd s < p + l + (symAt s .dc t j).toNat ∧
      u = raise .underrun (atPos (streamEnd s) s)))) ∨
  ∃ diff p', DcItem s t p diff p' ∧ fits (predAt s c + diff) = false ∧ u = raise .range (atPos p' s)

/-- The AC item at stream position `p` and zigzag position `k` breaks (60_exceptions R276: the code, the size, the run,
the value field). -/
def AcItemBreaks (s : State) (t : Fin 4) (k p : Nat) (u : State) : Prop :=
  (NoCode s .ac t p ∧ u = lostCode p s) ∨
  ∃ l j, FirstMatch s .ac t p l j ∧
    let run := (symAt s .ac t j).toNat / 16
    let size := (symAt s .ac t j).toNat % 16
    ((11 ≤ size ∧ u = raise .acsize (atPos (p + l) s)) ∨
     (size ≤ 10 ∧ ¬ (run = 0 ∧ size = 0) ∧ 64 ≤ k + (if run = 15 ∧ size = 0 then 16 else run) ∧
      u = raise .acrun (atPos (p + l) s)) ∨
     (1 ≤ size ∧ size ≤ 10 ∧ k + run < 64 ∧ streamEnd s < p + l + size ∧
      u = raise .underrun (atPos (streamEnd s) s)))

/-- The AC items of a block break behind any number of good ones. -/
def AcBreaks (c : Fin 3) (s u : State) : Prop :=
  ∃ vs k q, AcItems s (acTableOf s c) 1 (cursorPos s) vs k q ∧ k < 64 ∧ AcItemBreaks s (acTableOf s c) k q u

/-- A block breaks in its DC item, or behind it: then the predictor already holds the new sum. -/
def BlockBreaks (c : Fin 3) (s u : State) : Prop :=
  DcBreaks c s u ∨
  ∃ diff q, DcItem s (dcTableOf s c) (cursorPos s) diff q ∧ fits (predAt s c + diff) = true ∧
    AcBreaks c (atPos q (setPred c (predAt s c + diff) s)) u

/-- One of the blocks of the components of a list breaks, behind good ones. -/
def BlocksBreak : List (Fin 3) → State → State → Prop
  | [], _, _ => False
  | c :: cs, s, u => BlockBreaks c s u ∨ ∃ m, BlockDecodes c s m ∧ BlocksBreak cs m u

/-- The unit `BLKIDX` breaks, after the restart rule. -/
def UnitBreaks (s u : State) : Prop := ∃ cs, UnitOrder s cs ∧ BlocksBreak cs (restartCheck s) u

/-- A unit of the scan breaks, behind good ones. -/
inductive ScanBreaks : State → State → Prop
  | here (s u : State) : UnitBreaks s u → ScanBreaks s u
  | later (s m u : State) : UnitDecodes s m → m.phase = .decode → ScanBreaks m u → ScanBreaks s u

/-- The conditions under which DECDC, DECAC and DECBLK get to the stream (41_huffman_engine R156). -/
def BlockReady (c : Fin 3) (s : State) : Prop :=
  s.valid = true ∧ s.phase = .decode ∧ (s.ncomp.toNat = 1 ∨ s.ncomp.toNat = 3) ∧ c.val < s.ncomp.toNat

/-- A Huffman table may be decoded through (41_huffman_engine R164). -/
def Ready (s : State) (k : HuffClass) (t : Fin 4) : Prop := (s.ht k t).set = true ∧ (s.ht k t).built = true

/-- The conditions under which DECMCU and DECSCAN get to the stream (41_huffman_engine R162). -/
def UnitReady (s : State) : Prop :=
  s.valid = true ∧ s.phase = .decode ∧ (s.ncomp.toNat = 1 ∨ s.ncomp.toNat = 3) ∧
    ∀ c : Fin 3, c.val < s.ncomp.toNat → Ready s .dc (dcTableOf s c) ∧ Ready s .ac (acTableOf s c)

/-- The operand of form C that names component `c` (30_encoding R102). -/
def compArg (c : Fin 3) : BitVec 2 := BitVec.ofNat 2 c.val

/-! ## What the host reaches -/

/-- The number of a class in an address (20_memory R70). -/
def classNumber (k : HuffClass) : Nat :=
  match k with
  | .dc => 0
  | .ac => 1

/-- The address of an element (20_memory R70); an address that is none of these has no element. -/
def Elem.address (e : Elem) : Address :=
  match e with
  | .ent i => .ent i
  | .offs k t j => .offs (classNumber k) t j
  | .sym k t j => .sym (classNumber k) t j
  | .code k t j => .code (classNumber k) t j
  | .htSet k t => .htSet (classNumber k) t
  | .htBuilt k t => .htBuilt (classNumber k) t
  | .q t i => .q t i
  | .qtSet t => .qtSet t
  | .grid u p i => .grid u p i

/-- The element lies in the valid range of its space (20_memory R70; `ENT`: log 6, `GRID`: log 7). -/
def Present (s : State) (e : Elem) : Prop :=
  match e with
  | .ent i => i < s.cfg.entCap.toNat
  | .offs _ _ j => j < 17
  | .sym _ _ j => j < 162
  | .code _ _ j => j < 162
  | .htSet _ _ => True
  | .htBuilt _ _ => True
  | .q _ i => i < 64
  | .qtSet _ => True
  | .grid u p i => u < s.nUnits.toNat ∧ p < 3 ∧ i < 64

/-! ## Invariants -/

/-- The keys of a memory are below a bound. -/
def Memory.below {w : Nat} (b : Nat) (m : Memory w) : Bool := m.all fun p => decide (p.1 < b)

/-- Every sparse memory of the machine is in its canonical form. -/
def MemoriesOk (s : State) : Prop :=
  Memory.wf s.ent = true ∧ Memory.wf s.grid.cells = true ∧
    (∀ k t, Memory.wf (s.ht k t).offs = true ∧ Memory.wf (s.ht k t).sym = true ∧
      Memory.wf (s.ht k t).code = true) ∧
    ∀ t : Fin 4, Memory.wf s.qTables[t].q = true

/-- No lone symbol is pending: what waits comes from the host (42_entropy_symbols: "never issued by the
host"; log 2). -/
def FromHost (s : State) : Prop := ∀ k b, Pending.symbol k b ∉ s.pending

/-- The latch and the first fault agree (10_state R28, 60_exceptions R261). -/
def LatchOk (s : State) : Prop := s.valid = true ↔ s.fault = .none

/-- The block counter, the phase and the size of the grid agree (10_state R27, R29, R39, 46_control R241). -/
def SequenceOk (s : State) : Prop :=
  s.nUnits.toNat ≤ s.cfg.gridCap ∧ s.nUnits.toNat ≤ 67108864 ∧
    match s.phase with
    | .idle => s.nUnits = 0 ∧ s.blkIdx = 0
    | .decode => s.blkIdx.toNat < s.nUnits.toNat
    | _ => s.blkIdx = s.nUnits

/-- A built table passes the checks of HTBUILD and holds the codes it generates, and what is stored lies within the stores (20_memory R72). -/
def RangesOk (s : State) : Prop :=
  (∀ k t, (s.ht k t).built = true → (s.ht k t).set = true ∧ OffsetsLegal s k t ∧
      CodesBuilt s k t) ∧
    (∀ k t, Memory.below 17 (s.ht k t).offs = true ∧ Memory.below 162 (s.ht k t).sym = true ∧
      Memory.below 162 (s.ht k t).code = true) ∧
    (∀ t : Fin 4, Memory.below 64 s.qTables[t].q = true) ∧
    Memory.below s.cfg.entCap.toNat s.ent = true ∧
    Memory.below (s.nUnits.toNat * 192) s.grid.cells = true

/-- The invariant of the machine. -/
def MachineInv (s : State) : Prop := FromHost s ∧ LatchOk s ∧ SequenceOk s ∧ RangesOk s

/-! ## Sequences of commands -/

/-- The same command issued `n` times. -/
def execTimes (i : Instr) : Nat → State → Host.Outcome State Fault Refusal
  | 0, s => .next s
  | n + 1, s =>
    match exec i s with
    | .next s' => execTimes i n s'
    | .fault f => .fault f
    | .refused r => .refused r

/-- `n` RDBIT commands whose results are assembled MSB-first from the partial value `v`; none where one fails
(40_bit_reader R137). -/
def bitsSingly : Nat → Nat → State → Option (Nat × State)
  | 0, v, s => some (v, s)
  | n + 1, v, s =>
    match exec .rdbit s with
    | .next s' => if s'.rfail then none else bitsSingly n (2 * v + s'.result.toNat) s'
    | _ => none

/-- `n` DECSYM commands and the list of their results (41_huffman_engine R151). -/
def readSymbols (k : HuffClass) (t : Fin 4) : Nat → State → Option (List Word × State)
  | 0, s => some ([], s)
  | n + 1, s =>
    match exec (.decsym k t) s with
    | .next s' => (readSymbols k t n s').map fun r => (s'.result :: r.1, r.2)
    | _ => none

/-- The state with other sampling factors (10_state R37). -/
def setSampling (hs vs : Vector (BitVec 4) 3) (s : State) : State :=
  { s with comps := Vector.ofFn fun c => { s.comps[c] with hs := hs[c], vs := vs[c] } }

/-- A change of the next state of an outcome. -/
def mapNext (f : State → State) (o : Host.Outcome State Fault Refusal) :
    Host.Outcome State Fault Refusal :=
  match o with
  | .next s => .next (f s)
  | .fault e => .fault e
  | .refused r => .refused r

/-! ## Grid stages -/

/-- The conditions under which a grid stage runs (43_dequantizer R201, 44_inverse_dct R217,
45_color_converter R234). -/
def StageReady (p : Phase) (s : State) : Prop :=
  s.valid = true ∧ s.phase = p ∧ (s.ncomp.toNat = 1 ∨ s.ncomp.toNat = 3)

/-- An element of a block a stage works on: a component of a unit of the scan. -/
def InScan (s : State) (u c i : Nat) : Prop := u < s.nUnits.toNat ∧ c < s.ncomp.toNat ∧ i < 64

/-- The coefficient of `ref`: `C(0) = 1/sqrt(2)`, else 1 (44_inverse_dct R210). -/
noncomputable def refC (k : Nat) : ℝ := if k = 0 then 1 / Real.sqrt 2 else 1

/-- `ref(F)[8*y + x]`, the direct 2-D inverse DCT over the reals (44_inverse_dct R210). -/
noncomputable def refReal (F : Block) (y x : Nat) : ℝ :=
  1 / 4 * ∑ v ∈ Finset.range 8, ∑ u ∈ Finset.range 8,
    refC u * refC v * (F.getD (8 * v + u) 0 : ℝ) *
      Real.cos ((2 * x + 1) * u * Real.pi / 16) * Real.cos ((2 * y + 1) * v * Real.pi / 16)

/-- `trunc` of 00_scope R12 on the reals. -/
noncomputable def truncReal (v : ℝ) : Int := if 0 ≤ v then ⌊v⌋ else ⌈v⌉

/-- `trunc` of 00_scope R12 on the rationals. -/
def truncRat (v : ℚ) : Int := if 0 ≤ v then ⌊v⌋ else ⌈v⌉

/-! ## The opcode table -/

/-- A row of 30_encoding R104: match, mask, operand constraint, the instruction a word selects. -/
structure OpcodeRow where
  pattern    : BitVec 16
  mask       : BitVec 16
  constraint : BitVec 16 → Bool
  instr      : BitVec 16 → Instr

/-- Class and table id of operand form T in a command word (30_encoding R101). -/
def wordClass (w : BitVec 16) : HuffClass := if w.getLsbD 10 then .ac else .dc

/-- The table id of operand form T in a command word: bits 9:8 (30_encoding R101). -/
def wordTable (w : BitVec 16) : Fin 4 := ⟨w.toNat / 256 % 4, by omega⟩

/-- The rows of 30_encoding R104. -/
def opcodeRows : List OpcodeRow :=
  let any : BitVec 16 → Bool := fun _ => true
  let form (f : HuffClass → Fin 4 → Instr) (w : BitVec 16) : Instr := f (wordClass w) (wordTable w)
  let comp (f : BitVec 2 → Instr) (w : BitVec 16) : Instr := f (BitVec.ofNat 2 (w.toNat / 256))
  let legal (w : BitVec 16) : Bool := decide (w.toNat / 256 % 4 ≤ 2)
  [⟨0x0000#16, 0xFFFF#16, any, fun _ => .nop⟩,
   ⟨0x0001#16, 0xFFFF#16, any, fun _ => .scaninit⟩,
   ⟨0x0010#16, 0xFFFF#16, any, fun _ => .rdbit⟩,
   ⟨0x0011#16, 0xE0FF#16, fun w => decide (w.toNat / 256 % 32 ≤ 16),
     fun w => .rdbits (BitVec.ofNat 5 (w.toNat / 256))⟩,
   ⟨0x0012#16, 0xFFFF#16, any, fun _ => .align⟩,
   ⟨0x0020#16, 0xF8FF#16, any, form .htbuild⟩,
   ⟨0x0021#16, 0xF8FF#16, any, form .decsym⟩,
   ⟨0x0022#16, 0xFCFF#16, legal, comp .decdc⟩,
   ⟨0x0023#16, 0xFCFF#16, legal, comp .decac⟩,
   ⟨0x0024#16, 0xFCFF#16, legal, comp .decblk⟩,
   ⟨0x0025#16, 0xFFFF#16, any, fun _ => .decmcu⟩,
   ⟨0x0026#16, 0xFFFF#16, any, fun _ => .decscan⟩,
   ⟨0x0030#16, 0xFFFF#16, any, fun _ => .dequant⟩,
   ⟨0x0031#16, 0xFFFF#16, any, fun _ => .idct⟩,
   ⟨0x0032#16, 0xFFFF#16, any, fun _ => .color⟩,
   ⟨0x00FF#16, 0xFFFF#16, any, fun _ => .reset⟩]

/-- Whether a word selects a row: `w & mask = match` and the operand constraint holds (30_encoding R104). -/
def OpcodeRow.selects (r : OpcodeRow) (w : BitVec 16) : Bool :=
  decide (w &&& r.mask = r.pattern) && r.constraint w

end Sys2Proof.Machine
end

