-- ==== Sys2Proof/Certificates/Slice0/Obligations.lean ====
section
/-! DEFINITION. The statements about the engine, one `def Obligations.<Name> : Prop` each.  Each docstring names the
rule of spec/ the statement formalises.  `exec i s = .next t` is one command (level 1) or one entropy symbol run
alone (level 2); a fault of the engine is a next state (60_exceptions R262).  Where a statement equates the next state
with `{ s with … }` or with a named update of `s`, every field not named is unchanged: that is its frame.  R25, R26,
R78, R137, R187, R202, R211, R219, R235, R276, R280 and R302 are inferences the spec marks as its own ("derived"); the
cosine transform and the zigzag values are its general knowledge (93 G1, G2).  A memory element "becomes unspecified"
as log 5 represents it. -/

section
open Sys2Proof Sys2Proof.Machine

/-! ## Encodings -/

/-- No operand is lost by the encodings of 30_encoding R100 to R104, R109, R111, R112. -/
def Obligations.DecodeEncode : Prop :=
  ∀ i : Instr, i.wellFormed = true → decode (encode i) = .ok i

/-- Each command word and each symbol byte of a class has one meaning, and that meaning has no other word. -/
def Obligations.EncodeDecode : Prop :=
  ∀ (e : Encoded) (i : Instr), decode e = .ok i → i.wellFormed = true ∧ encode i = e

/-- 30_encoding R104, R105: a word selects the row whose match, mask and operand constraint it meets; no word meets two; a
32-bit value is illegal exactly where its upper half is not zero or its lower half selects no row. -/
def Obligations.OpcodeTable : Prop :=
  (∀ w : BitVec 16, (decodeWord w).toOption = (opcodeRows.find? (·.selects w)).map (·.instr w) ∧
    (opcodeRows.filter (·.selects w)).length ≤ 1) ∧
  ∀ w : Word, (∃ e, decodeCmd w = .error e) ↔
    ¬ (w.toNat < 65536 ∧ ∃ r ∈ opcodeRows, r.selects (w.setWidth 16) = true)

/-- 30_encoding R109 and R112 by the value of the byte and of its nibbles. -/
def Obligations.SymbolMaps : Prop :=
  ∀ b : Byte,
    decodeSymbolByte .dc b = (if b.toNat ≤ 11 then .dccat b else .dcbad b) ∧
    decodeSymbolByte .ac b =
      (if b.toNat = 0x00 then .eob
       else if b.toNat = 0xF0 then .zrl
       else if b.toNat % 16 = 0 then .zrun (BitVec.ofNat 4 (b.toNat / 16))
       else if b.toNat % 16 ≤ 10 then .accoef (BitVec.ofNat 4 (b.toNat / 16)) (BitVec.ofNat 4 (b.toNat % 16))
       else .acbad (BitVec.ofNat 4 (b.toNat / 16)) (BitVec.ofNat 4 (b.toNat % 16)))

/-- Words of 30_encoding R116, written out from the fields of R100 to R103, and bytes of R109 and R112. -/
def Obligations.SampleWords : Prop :=
  decodeCmd 0b0000000000000000_00000000_00000000#32 = .ok .nop ∧
  decodeCmd 0b0000000000000000_00010000_00010001#32 = .ok (.rdbits 16) ∧
  decodeCmd 0b0000000000000000_00000110_00100000#32 = .ok (.htbuild .ac 2) ∧
  decodeCmd 0b0000000000000000_00000001_00100001#32 = .ok (.decsym .dc 1) ∧
  decodeCmd 0b0000000000000000_00000010_00100100#32 = .ok (.decblk 2) ∧
  decodeCmd 0b0000000000000000_00000000_00110001#32 = .ok .idct ∧
  decodeCmd 0b0000000000000000_00000000_11111111#32 = .ok .reset ∧
  decodeCmd 0b0000000000000000_00000011_00100010#32 = .error .component3 ∧
  decodeCmd 0b0000000000000000_00010001_00010001#32 = .error .countAbove16 ∧
  decodeCmd 0b0000000000000001_00000000_00000000#32 = .error .highBits ∧
  decodeSymbolByte .dc 0b00001011#8 = .dccat 11 ∧ decodeSymbolByte .dc 0b00001100#8 = .dcbad 12 ∧
  decodeSymbolByte .ac 0b11110000#8 = .zrl ∧ decodeSymbolByte .ac 0b00010010#8 = .accoef 1 2

/-- 30_encoding R108: what `s` bits encode: exactly the integers of magnitude `2^(s-1) .. 2^s - 1`, the smaller raw values
the negative ones; `s = 0` encodes 0. -/
def Obligations.ExtendRange : Prop :=
  extend 0 0 = 0 ∧
  ∀ s : Nat, 1 ≤ s → s ≤ 11 →
    (∀ v : Nat, v < 2 ^ (s - 1) → extend v s = (v : Int) - (2 ^ s - 1) ∧
      -(2 ^ s - 1) ≤ extend v s ∧ extend v s ≤ -2 ^ (s - 1)) ∧
    (∀ v : Nat, 2 ^ (s - 1) ≤ v → v < 2 ^ s → extend v s = v ∧ 2 ^ (s - 1) ≤ extend v s ∧ extend v s ≤ 2 ^ s - 1) ∧
    (∀ x : Int, 2 ^ (s - 1) ≤ |x| → |x| ≤ 2 ^ s - 1 → ∃ v, v < 2 ^ s ∧ extend v s = x)

/-- The zigzag map and its inverse are the two halves of a bijection on 0..63, and the map walks the anti-diagonals.
The values are the spec's general knowledge (30_encoding R110, 93 G1; log 14). -/
def Obligations.ZigzagWalk : Prop :=
  (∀ k, k < 64 → zz k < 64 ∧ zzInv (zz k) = k) ∧ (∀ i, i < 64 → zzInv i < 64 ∧ zz (zzInv i) = i) ∧ zz 0 = 0 ∧
  ∀ k, k < 63 →
    let r := zz k / 8
    let c := zz k % 8
    zz (k + 1) =
      if (r + c) % 2 = 0 then (if c = 7 then 8 * (r + 1) + c else if r = 0 then c + 1 else 8 * (r - 1) + (c + 1))
      else (if r = 7 then 8 * r + (c + 1) else if c = 0 then 8 * (r + 1) else 8 * (r + 1) + (c - 1))

/-! ## Steps, the gate, faults, reset -/

/-- A step performs the oldest pending operation: a write of a word to `CMD` issues it (Gate says what that does), a legal
one as `exec` of the command it encodes; a write of another register or of memory stores (46_control R243; what is
stored: RegisterWrites, MemoryWrites; reads: ReadsHaveNoEffect; hardware reset: NopAndReset); a symbol byte is `exec`
of the symbol of its class; nothing pending leaves the state (70 R301); and `withFetchWord` presents a word so that
the next step runs it (logs 1, 2, 3: the queue is the model's).  No step stops the machine: a fault of the engine is a
next state (60_exceptions R262). -/
def Obligations.StepRunsDecoded : Prop :=
  (∀ s rest w i, s.pending = .op (.regWrite 0 w) :: rest → decodeCmd w = .ok i →
    step s = exec i { s with pending := rest }) ∧
  (∀ s rest w, s.pending = .op (.regWrite 0 w) :: rest → step s = issue w { s with pending := rest }) ∧
  (∀ s rest n v, s.pending = .op (.regWrite (n + 1) v) :: rest →
    step s = .next (regWrite { s with pending := rest } (n + 1) v)) ∧
  (∀ s rest a v, s.pending = .op (.memWrite a v) :: rest →
    step s = .next (addressWrite { s with pending := rest } a v)) ∧
  (∀ s rest k b, s.pending = .symbol k b :: rest →
    step s = exec (decodeSymbolByte k b) { s with pending := rest }) ∧
  (∀ s, s.pending = [] → step s = .next s) ∧
  (∀ s nbits w i, decodeTableWord nbits w = some i → step (s.withFetchWord nbits w) = exec i s) ∧
  ∀ s, ∃ t, step s = .next t

/-- 46_control R245: while `VALID = 0` no word but RESET has any effect; while `VALID = 1` an illegal word raises ILLCMD
and a legal one is executed.  The last clause covers the entropy symbols run alone too, whose gate is the model's
(logs 2, 12). -/
def Obligations.Gate : Prop :=
  (∀ w s, s.valid = false → w ≠ 0x000000FF#32 → issue w s = .next s) ∧
  (∀ s, issue 0x000000FF#32 s = exec .reset s) ∧
  (∀ w e s, s.valid = true → decodeCmd w = .error e → issue w s = .next (raise .illcmd s)) ∧
  (∀ w i s, s.valid = true → decodeCmd w = .ok i → issue w s = exec i s) ∧
  ∀ i s, s.valid = false → i ≠ .reset → exec i s = .next s

/-- 60_exceptions R262: a fault sets the code and clears `VALID`, every grid element becomes a value nothing is known
of, and everything else is kept. -/
def Obligations.RaiseFrame : Prop :=
  ∀ (f : FaultCode) (s : State),
    (raise f s).fault = f ∧ (raise f s).valid = false ∧ regRead (raise f s) 2 = f.code ∧
    (∀ u p i, (raise f s).grid.word u p i = Config.freeGrid (s.grid.epoch + 1) (gridKey u p i)) ∧
    raise f s = { s with fault := f, valid := false, grid := (raise f s).grid }

/-- 10_state R28, 60_exceptions R261, R280: a command that clears `VALID` has latched a fault code and invalidated the
grid, and leaves `PHASE`; only RESET sets it; a command that leaves it as it was records no fault. -/
def Obligations.LatchOneWay : Prop :=
  ∀ i s t, exec i s = .next t →
    (s.valid = true → t.valid = false → t.fault ≠ .none ∧ t.grid = s.grid.forget ∧ t.phase = s.phase) ∧
    (s.valid = false → t.valid = true → i = .reset) ∧
    (i ≠ .reset → t.valid = s.valid → t.fault = s.fault)

/-- 46_control R240, R242, 10_state R47, R48, 70_reset R300: NOP changes nothing; RESET and the hardware reset leave every
register at its reset value, every flag 0, and the memories as storage nothing has written (log 5; the reset signal as
a pending entry is the model's, log 18). -/
def Obligations.NopAndReset : Prop :=
  ∀ s, exec .nop s = .next s ∧ ∃ t, exec .reset s = .next t ∧
    regRead t 1 = 0x00000001#32 ∧ (∀ n, n ≠ 1 → regRead t n = 0) ∧
    (∀ k i, (t.ht k i).set = false ∧ (t.ht k i).built = false ∧ (t.ht k i).offs = [] ∧ (t.ht k i).sym = [] ∧
      (t.ht k i).code = []) ∧
    (∀ i : Fin 4, t.qTables[i].set = false ∧ t.qTables[i].q = []) ∧ t.ent = [] ∧ t.grid.cells = [] ∧
    ∀ rest, s.pending = .hardReset :: rest → step s = .next { t with pending := rest }

/-- 70_reset R302 (the spec's own inference): what each command makes of the reset state. -/
def Obligations.ResetCommands : Prop :=
  ∀ s k i c, let r := resetEngine s
    exec .nop r = .next r ∧ (∃ t, exec .reset r = .next t ∧ t.valid = true) ∧
    exec .rdbit r = .next { r with result := 0xFFFFFFFF#32, rfail := true } ∧
    (∀ n : BitVec 5, 1 ≤ n.toNat → n.toNat ≤ 16 →
      exec (.rdbits n) r = .next { r with result := 0xFFFFFFFF#32, rfail := true }) ∧
    exec (.rdbits 0) r = .next { r with result := 0, rfail := false } ∧ exec .align r = .next r ∧
    exec (.htbuild k i) r = .next (raise .table r) ∧ exec (.decsym k i) r = .next (raise .table r) ∧
    exec .scaninit r = .next (raise .config r) ∧
    exec (.decdc (compArg c)) r = .next (raise .sequence r) ∧
    exec (.decac (compArg c)) r = .next (raise .sequence r) ∧
    exec (.decblk (compArg c)) r = .next (raise .sequence r) ∧
    exec .decmcu r = .next (raise .sequence r) ∧ exec .decscan r = .next (raise .sequence r) ∧
    exec .dequant r = .next (raise .sequence r) ∧ exec .idct r = .next (raise .sequence r) ∧
    exec .color r = .next (raise .sequence r)

/-- 46_control R241, 60_exceptions R273: SCANINIT checks the header registers, sizes the grid, rewinds the
cursor, zeroes the predictors and the unit counter, invalidates the grid and enters DECODE; where a check fails it
raises CONFIG or RESOURCE and changes nothing else. -/
def Obligations.ScaninitResult : Prop :=
  ∀ s, s.valid = true →
    let header := (s.ncomp.toNat = 1 ∨ s.ncomp.toNat = 3) ∧ s.width ≠ 0 ∧ s.height ≠ 0 ∧
      s.entLen.toNat ≤ s.cfg.entCap.toNat
    let units := (s.height.toNat + 7) / 8 * ((s.width.toNat + 7) / 8)
    (header → units ≤ s.cfg.gridCap →
      ∃ n : Word, n.toNat = units ∧ 1 ≤ n.toNat ∧ n.toNat ≤ 67108864 ∧
        exec .scaninit s = .next
          { s with nUnits := n, byteIdx := 0, bitIdx := 0, pred := Vector.replicate 3 0, blkIdx := 0,
                   grid := s.grid.forget, phase := .decode }) ∧
    (¬ header → exec .scaninit s = .next (raise .config s)) ∧
    (header → s.cfg.gridCap < units → exec .scaninit s = .next (raise .resource s))

/-! ## Bit Reader -/

/-- 40_bit_reader R131, R132, R134, R135: RDBIT and RDBITS return the next bits, the first the most significant, and move
the cursor behind them; where fewer are left they return FAIL with the cursor at the end of the stream (or where it is, if
it stands beyond: log 16). -/
def Obligations.BitReads : Prop :=
  ∀ s, s.valid = true →
    exec .rdbit s = .next (if cursorPos s < streamEnd s then
      { atPos (cursorPos s + 1) s with result := BitVec.ofNat 32 (streamBit s (cursorPos s)), rfail := false }
    else { s with result := 0xFFFFFFFF#32, rfail := true }) ∧
    ∀ n : BitVec 5, n.toNat ≤ 16 →
      exec (.rdbits n) s = .next (if n.toNat = 0 ∨ cursorPos s + n.toNat ≤ streamEnd s then
        { atPos (cursorPos s + n.toNat) s with
          result := BitVec.ofNat 32 (streamField s (cursorPos s) n.toNat), rfail := false }
      else { atPos (max (cursorPos s) (streamEnd s)) s with result := 0xFFFFFFFF#32, rfail := true })

/-- 40_bit_reader R137 (the spec's own inference): `L` single bits assembled MSB-first are the value of one RDBITS L, and leave the same cursor. -/
def Obligations.BitsOneByOne : Prop :=
  ∀ s (n : BitVec 5), s.valid = true → n.toNat ≤ 16 → cursorPos s + n.toNat ≤ streamEnd s →
    ∃ v t t', bitsSingly n.toNat 0 s = some (v, t) ∧ exec (.rdbits n) s = .next t' ∧
      t'.result = BitVec.ofNat 32 v ∧ v < 2 ^ n.toNat ∧ t'.rfail = false ∧
      t'.byteIdx = t.byteIdx ∧ t'.bitIdx = t.bitIdx

/-- 40_bit_reader R133, R136: ALIGN moves to the next byte boundary unless it is on one or at the end of the buffer;
a second ALIGN changes nothing. -/
def Obligations.AlignResult : Prop :=
  ∀ s, s.valid = true → ∃ t, exec .align s = .next t ∧ exec .align t = .next t ∧
    t = (if s.byteIdx.toNat < min s.entLen.toNat s.cfg.entCap.toNat ∧ s.bitIdx ≠ 0#3 then
      { s with byteIdx := s.byteIdx + 1, bitIdx := 0#3 } else s)

/-- 40_bit_reader R138: what the Bit Reader returns is a function of `ENT[0..END-1]`, the cursor and the call. -/
def Obligations.BitReaderReadsStreamOnly : Prop :=
  ∀ s x (n : BitVec 5), s.valid = true → x.valid = true → n.toNat ≤ 16 →
    streamEnd s = streamEnd x → (∀ i, 8 * i < streamEnd s → entAt s i = entAt x i) → cursorPos s = cursorPos x →
    ∃ t y, exec (.rdbits n) s = .next t ∧ exec (.rdbits n) x = .next y ∧
      t.result = y.result ∧ t.rfail = y.rfail ∧ cursorPos t = cursorPos y

/-! ## Code generation and symbol decode -/

/-- 41_huffman_engine R150, 60_exceptions R268: HTBUILD stores consecutive codes for each length from the running value,
which is shifted by one after each length, writes no entry at or above `OFFS[16]`, sets `BUILT`, and touches nothing
else; a table it does not accept is left not built, and TABLE is raised. -/
def Obligations.HtbuildResult : Prop :=
  ∀ s k i, s.valid = true →
    ((s.ht k i).set = true → OffsetsLegal s k i →
      ∃ codes : Memory 32,
        exec (.htbuild k i) s = .next (setHt k i { s.ht k i with code := codes, built := true } s) ∧
        (∀ l j, HasLength s k i l j → Memory.find codes j =
          some (BitVec.ofNat 32 (firstCode (offsAt s k i) (l - 1) + (j - offsAt s k i (l - 1))))) ∧
        (∀ j, offsAt s k i 16 ≤ j → Memory.find codes j = Memory.find (s.ht k i).code j) ∧
        ∀ l j, HasLength s k i l j → firstCode (offsAt s k i) (l - 1) + (j - offsAt s k i (l - 1)) < 2 ^ 24) ∧
    (¬ ((s.ht k i).set = true ∧ OffsetsLegal s k i) →
      exec (.htbuild k i) s = .next (raise .table (setHt k i { s.ht k i with built := false } s)))

/-- 41_huffman_engine R151: for valid counts the codes HTBUILD generates fit their lengths and none is a prefix of
another. -/
def Obligations.CodesPrefixFree : Prop :=
  ∀ s t k i, s.valid = true → (s.ht k i).set = true → OffsetsLegal s k i →
    kraftSum (offsAt s k i) 16 ≤ 2 ^ 16 → exec (.htbuild k i) s = .next t →
    ∀ l j l' j', HasLength t k i l j → HasLength t k i l' j' →
      (codeAt t k i j).toNat < 2 ^ l ∧
      (j ≠ j' → l ≤ l' → (codeAt t k i j').toNat / 2 ^ (l' - l) ≠ (codeAt t k i j).toNat)

/-- 41_huffman_engine R153, R154, R164, 60_exceptions R263, R264: DECSYM returns the symbol of the first code that matches
at the cursor, across lengths the shortest, within a length the lowest entry, and moves the cursor behind it; where
none stands there it raises NOCODE after 16 bits or UNDERRUN at the end of the stream (a cursor beyond it stays: log 16)
and returns FAIL; a table that is not ready raises TABLE before a bit is read. -/
def Obligations.DecsymResult : Prop :=
  ∀ s k i, s.valid = true →
    (∀ l j, Ready s k i → FirstMatch s k i (cursorPos s) l j →
      exec (.decsym k i) s = .next
        { atPos (cursorPos s + l) s with result := (symAt s k i j).setWidth 32, rfail := false }) ∧
    (Ready s k i → NoCode s k i (cursorPos s) →
      exec (.decsym k i) s = .next
        { (if cursorPos s + 16 ≤ streamEnd s then raise .nocode (atPos (cursorPos s + 16) s)
           else raise .underrun (atPos (max (cursorPos s) (streamEnd s)) s)) with
          result := 0xFFFFFFFF#32, rfail := true }) ∧
    (¬ Ready s k i → exec (.decsym k i) s = .next (raise .table s))

/-- 41_huffman_engine R151: decoding a sequence of emitted codes of a table built from valid counts recovers the symbols,
and every command of it completes. -/
def Obligations.SymbolsRecovered : Prop :=
  ∀ s k i js, s.valid = true → Ready s k i → OffsetsLegal s k i → CodesBuilt s k i →
    kraftSum (offsAt s k i) 16 ≤ 2 ^ 16 → Emitted s k i (cursorPos s) js →
    ∃ t, readSymbols k i js.length s = some (js.map fun j => (symAt s k i j).setWidth 32, t) ∧ t.valid = true

/-! ## Block decode -/

/-- 41_huffman_engine R156, R158, R160, R162, R163, 60_exceptions R276: the checks of the decode commands in their order,
before any bit is read: SEQUENCE, CONFIG, TABLE. -/
def Obligations.DecodeChecks : Prop :=
  ∀ s, s.valid = true →
    let legal := s.ncomp.toNat = 1 ∨ s.ncomp.toNat = 3
    let dc := fun c => Ready s .dc (dcTableOf s c)
    let ac := fun c => Ready s .ac (acTableOf s c)
    (∀ c, ∀ i ∈ [Instr.decdc (compArg c), .decac (compArg c), .decblk (compArg c), .decmcu, .decscan],
      (s.phase ≠ .decode → exec i s = .next (raise .sequence s)) ∧
      (s.phase = .decode → ¬ legal → exec i s = .next (raise .config s))) ∧
    (∀ c : Fin 3, s.phase = .decode → s.ncomp.toNat ≤ c.val →
      ∀ i ∈ [Instr.decdc (compArg c), .decac (compArg c), .decblk (compArg c)], exec i s = .next (raise .config s)) ∧
    (∀ c : Fin 3, s.phase = .decode → legal → c.val < s.ncomp.toNat →
      (¬ dc c → exec (.decdc (compArg c)) s = .next (raise .table s)) ∧
      (¬ ac c → exec (.decac (compArg c)) s = .next (raise .table s)) ∧
      (¬ (dc c ∧ ac c) → exec (.decblk (compArg c)) s = .next (raise .table s) ∧
        ∀ i ∈ [Instr.decmcu, .decscan], exec i s = .next (raise .table s)))

/-- 41_huffman_engine R155, R156, 42_entropy_symbols R180, R181, 60_exceptions R276: DECDC adds the decoded difference to
the predictor, stores the sum at zigzag position 0 and moves the cursor behind the item; and where a DC item breaks,
which fault it raises and where it leaves the cursor (END for ENTLEN, and a cursor beyond END stays: log 16). -/
def Obligations.DecdcResult : Prop :=
  ∀ s c, BlockReady c s → Ready s .dc (dcTableOf s c) →
    let d := dcTableOf s c
    let p := cursorPos s
    (∀ diff p', DcItem s d p diff p' → fits (predAt s c + diff) = true →
      ∃ t, exec (.decdc (compArg c)) s = .next t ∧
        t = { s with byteIdx := t.byteIdx, bitIdx := t.bitIdx, pred := t.pred, grid := t.grid } ∧
        cursorPos t = p' ∧ predAt t c = predAt s c + diff ∧ (∀ e, e ≠ c → predAt t e = predAt s e) ∧
        t.grid.read s.blkIdx.toNat c 0 = predAt s c + diff ∧
        ∀ u q i : Nat, q < 3 → i < 64 → ¬ (u = s.blkIdx.toNat ∧ q = c.val ∧ i = 0) →
          t.grid.word u q i = s.grid.word u q i) ∧
    (NoCode s .dc d p → exec (.decdc (compArg c)) s = .next (lostCode p s)) ∧
    (∀ l j, FirstMatch s .dc d p l j → 12 ≤ (symAt s .dc d j).toNat →
      exec (.decdc (compArg c)) s = .next (raise .dccat (atPos (p + l) s))) ∧
    (∀ l j, FirstMatch s .dc d p l j → (symAt s .dc d j).toNat ≤ 11 →
      streamEnd s < p + l + (symAt s .dc d j).toNat →
      exec (.decdc (compArg c)) s = .next (raise .underrun (atPos (streamEnd s) s))) ∧
    ∀ diff p', DcItem s d p diff p' → fits (predAt s c + diff) = false →
      exec (.decdc (compArg c)) s = .next (raise .range (atPos p' s))

/-- 41_huffman_engine R157, R158: DECAC decodes AC items until zigzag position 64, stores the 63 values they give and moves
the cursor behind the last item. -/
def Obligations.DecacResult : Prop :=
  ∀ s c vs p', BlockReady c s → Ready s .ac (acTableOf s c) →
    AcItems s (acTableOf s c) 1 (cursorPos s) vs 64 p' →
    vs.length = 63 ∧ exec (.decac (compArg c)) s = .next (atPos p' (storeCoefs c 1 vs s))

/-- 60_exceptions R263, R264, R266, R267, R276: where the AC items of a block break behind any number of good ones, and
where that leaves the cursor: the size before the run, the run before the value field (END for ENTLEN, and a cursor beyond
END stays: log 16). -/
def Obligations.DecacStreamFaults : Prop :=
  ∀ s c vs k q, BlockReady c s → Ready s .ac (acTableOf s c) →
    AcItems s (acTableOf s c) 1 (cursorPos s) vs k q → k < 64 →
    let a := acTableOf s c
    (NoCode s .ac a q → exec (.decac (compArg c)) s = .next (lostCode q s)) ∧
    ∀ l j, FirstMatch s .ac a q l j →
      let run := (symAt s .ac a j).toNat / 16
      let size := (symAt s .ac a j).toNat % 16
      (11 ≤ size → exec (.decac (compArg c)) s = .next (raise .acsize (atPos (q + l) s))) ∧
      (size ≤ 10 → ¬ (run = 0 ∧ size = 0) → 64 ≤ k + (if run = 15 ∧ size = 0 then 16 else run) →
        exec (.decac (compArg c)) s = .next (raise .acrun (atPos (q + l) s))) ∧
      (1 ≤ size → size ≤ 10 → k + run < 64 → streamEnd s < q + l + size →
        exec (.decac (compArg c)) s = .next (raise .underrun (atPos (streamEnd s) s)))

/-- 20_memory R81: what a run of coefficient stores reads as; every other element reads as before. -/
def Obligations.CoefficientStores : Prop :=
  ∀ s (c : Fin 3) m vs, m + vs.length ≤ 64 → (∀ v ∈ vs, fits v = true) →
    (∀ n, n < vs.length → (storeCoefs c m vs s).grid.read s.blkIdx.toNat c (zz (m + n)) = vs.getD n 0) ∧
    (∀ u p i : Nat, p < 3 → i < 64 → ¬ (u = s.blkIdx.toNat ∧ p = c.val ∧ ∃ n, n < vs.length ∧ i = zz (m + n)) →
      (storeCoefs c m vs s).grid.word u p i = s.grid.word u p i) ∧
    storeCoefs c m vs s = { s with grid := (storeCoefs c m vs s).grid }

/-- 41_huffman_engine R159, R160, R166, 60_exceptions R276: DECBLK decodes the block that stands at the cursor, or raises the
fault of the item that breaks, with the cursor and the predictor where decoding had got to (cursor at an exhausted
read: log 16); one of the two is the case. -/
def Obligations.DecblkResult : Prop :=
  ∀ s c, BlockReady c s → Ready s .dc (dcTableOf s c) → Ready s .ac (acTableOf s c) →
    (∀ t, BlockDecodes c s t → exec (.decblk (compArg c)) s = .next t) ∧
    (∀ u, BlockBreaks c s u → exec (.decblk (compArg c)) s = .next u) ∧
    ∃ t, BlockDecodes c s t ∨ BlockBreaks c s t

/-- 30_encoding R106: whatever DECDC, DECAC or DECBLK decodes without a fault is what the grammar of a block says stands
at the cursor. -/
def Obligations.BlockSound : Prop :=
  ∀ s t c, s.valid = true → t.valid = true →
    (exec (.decblk (compArg c)) s = .next t → BlockDecodes c s t) ∧
    (exec (.decac (compArg c)) s = .next t → ∃ vs p', AcItems s (acTableOf s c) 1 (cursorPos s) vs 64 p' ∧
      t = atPos p' (storeCoefs c 1 vs s)) ∧
    (exec (.decdc (compArg c)) s = .next t → ∃ diff p', DcItem s (dcTableOf s c) (cursorPos s) diff p')

/-- 41_huffman_engine R161: at a unit whose index is a multiple of a nonzero restart interval all three predictors are
zeroed and the cursor is aligned; at any other unit nothing changes. -/
def Obligations.RestartRule : Prop :=
  ∀ s,
    (s.rsti ≠ 0 → s.blkIdx.toNat % s.rsti.toNat = 0 →
      ∃ b k, restartCheck s = { s with pred := Vector.replicate 3 0, byteIdx := b, bitIdx := k } ∧
        (s.byteIdx.toNat < min s.entLen.toNat s.cfg.entCap.toNat → s.bitIdx ≠ 0#3 → b = s.byteIdx + 1 ∧ k = 0) ∧
        (¬ (s.byteIdx.toNat < min s.entLen.toNat s.cfg.entCap.toNat ∧ s.bitIdx ≠ 0#3) →
          b = s.byteIdx ∧ k = s.bitIdx)) ∧
    (¬ (s.rsti ≠ 0 ∧ s.blkIdx.toNat % s.rsti.toNat = 0) → restartCheck s = s)

/-- 41_huffman_engine R162, R166, 20_memory R80, 60_exceptions R276: DECMCU decodes the unit `BLKIDX`, its components in
ascending order, and steps to the next; the last unit ends the scan; where a block of the unit breaks it raises that
block's fault, with the cursor and the predictors where decoding had got to (cursor at an exhausted read: log 16).
One that completes has decoded the unit that stands at the cursor; one that raises leaves `BLKIDX` and `PHASE`, and has
met a unit that breaks where the checks passed. -/
def Obligations.DecmcuResult : Prop :=
  ∀ s t,
    (UnitReady s → UnitDecodes s t → exec .decmcu s = .next t ∧ t.blkIdx = s.blkIdx + 1 ∧
      t.phase = (if s.blkIdx + 1 = s.nUnits then .coef else .decode)) ∧
    (UnitReady s → UnitBreaks s t → exec .decmcu s = .next t ∧ t.valid = false) ∧
    (s.valid = true → exec .decmcu s = .next t →
      (t.valid = true → UnitDecodes s t) ∧ (t.valid = false → t.blkIdx = s.blkIdx ∧ t.phase = s.phase) ∧
      (t.valid = false → UnitReady s → UnitBreaks s t))

/-- 41_huffman_engine R163, R166, 60_exceptions R276: DECSCAN on a scan that stands in the stream decodes all of it; where
one of its units breaks, behind any number of good ones, it raises that unit's fault, with `BLKIDX`, the cursor and the
predictors where decoding had got to (cursor at an exhausted read: log 16). -/
def Obligations.DecscanResult : Prop :=
  ∀ s t, UnitReady s → s.blkIdx.toNat < s.nUnits.toNat →
    (ScanDecodes s t → exec .decscan s = .next t ∧ t.blkIdx = s.nUnits ∧ t.phase = .coef) ∧
    (ScanBreaks s t → exec .decscan s = .next t ∧ t.valid = false ∧ t.phase = .decode)

/-- 41_huffman_engine R163: issuing DECMCU `NUNITS - BLKIDX` times has the effect of one DECSCAN, also where a unit
raises. -/
def Obligations.DecscanIsDecmcu : Prop :=
  ∀ s, s.phase = .decode → s.blkIdx.toNat < s.nUnits.toNat →
    execTimes .decmcu (s.nUnits.toNat - s.blkIdx.toNat) s = exec .decscan s

/-! ## Grid stages -/

/-- 43_dequantizer R201, 44_inverse_dct R217, 45_color_converter R234, 60_exceptions R270: the checks of the grid stages in
their order: SEQUENCE, CONFIG, and for DEQUANT TABLE. -/
def Obligations.StageChecks : Prop :=
  ∀ s, s.valid = true →
    (∀ i p, (i, p) ∈ [(Instr.dequant, Phase.coef), (.idct, .deq), (.color, .spatial)] →
      (s.phase ≠ p → exec i s = .next (raise .sequence s)) ∧
      (s.phase = p → ¬ (s.ncomp.toNat = 1 ∨ s.ncomp.toNat = 3) → exec i s = .next (raise .config s))) ∧
    (StageReady .coef s → (∃ c : Fin 3, c.val < s.ncomp.toNat ∧ s.qTables[qTableOf s c].set = false) →
      exec .dequant s = .next (raise .table s))

/-- 43_dequantizer R200, R201, R202: DEQUANT multiplies every element of every block of the scan by the entry of the same
index of its component's table, if every product fits, and raises RANGE if one does not; zero stays zero, an entry 1
leaves the coefficient, and a product has the sign of its coefficient or is 0. -/
def Obligations.DequantResult : Prop :=
  ∀ s, StageReady .coef s → (∀ c : Fin 3, c.val < s.ncomp.toNat → s.qTables[qTableOf s c].set = true) →
    let product := fun (u : Nat) (c : Fin 3) (i : Nat) =>
      s.grid.read u c i * ((quantAt s (qTableOf s c) i).toNat : Int)
    ((∀ u (c : Fin 3) i, InScan s u c i → fits (product u c i) = true) →
      ∃ t, exec .dequant s = .next t ∧ t = { s with phase := .deq, grid := t.grid } ∧
        (∀ u (c : Fin 3) i, InScan s u c i → t.grid.read u c i = product u c i ∧
          (s.grid.read u c i = 0 → t.grid.read u c i = 0) ∧
          (quantAt s (qTableOf s c) i = 1 → t.grid.word u c i = s.grid.word u c i) ∧
          (0 ≤ s.grid.read u c i → 0 ≤ t.grid.read u c i) ∧
          (s.grid.read u c i ≤ 0 → t.grid.read u c i ≤ 0)) ∧
        ∀ u p i : Nat, p < 3 → i < 64 → ¬ InScan s u p i → t.grid.word u p i = s.grid.word u p i) ∧
    ((∃ u, ∃ c : Fin 3, ∃ i, InScan s u c i ∧ fits (product u c i) = false) →
      exec .dequant s = .next (raise .range s))

/-- 44_inverse_dct R217: IDCT replaces every block of the scan by its transform, if every value fits, and raises RANGE if
one does not. -/
def Obligations.IdctResult : Prop :=
  ∀ s, StageReady .deq s →
    let value := fun (u : Nat) (c : Fin 3) (i : Nat) => idctAt s.cfg.idct (gridBlock s.grid u c) i
    ((∀ u (c : Fin 3) i, InScan s u c i → fits (value u c i) = true) →
      ∃ t, exec .idct s = .next t ∧ t = { s with phase := .spatial, grid := t.grid } ∧
        (∀ u (c : Fin 3) i, InScan s u c i → t.grid.read u c i = value u c i) ∧
        ∀ u p i : Nat, p < 3 → i < 64 → ¬ InScan s u p i → t.grid.word u p i = s.grid.word u p i) ∧
    ((∃ u, ∃ c : Fin 3, ∃ i, InScan s u c i ∧ fits (value u c i) = false) →
      exec .idct s = .next (raise .range s))

/-- 44_inverse_dct R210, R212, R216: the exact arithmetic of the model gives the direct transform over the reals, rounded
as each rule says. -/
def Obligations.IdctIsDirectTransform : Prop :=
  ∀ (F : Block) (y x : Nat), y < 8 → x < 8 →
    idctRefAt F (8 * y + x) = ⌊refReal F y x + 1 / 2⌋ ∧ idctSrcAt F (8 * y + x) = truncReal (refReal F y x + 1 / 2)

/-- 44_inverse_dct R213, R214, R215, R219: every transform the configuration can name is within 1 of `idct_ref` in the
tolerance range (log 9), takes zero to zero and a DC-only block to a uniform one, which for the two named transforms is
`F[0]/8` rounded as each does. -/
def Obligations.IdctConforms : Prop :=
  ∀ choice (F : Block),
    ((∀ j, j < 64 → -2 ^ 28 ≤ F.getD j 0 ∧ F.getD j 0 ≤ 2 ^ 28) →
      ∀ i, i < 64 → |idctAt choice F i - idctRefAt F i| ≤ 1) ∧
    ((∀ j, j < 64 → F.getD j 0 = 0) → ∀ i, i < 64 → idctAt choice F i = 0) ∧
    ((∀ j, 1 ≤ j → j < 64 → F.getD j 0 = 0) →
      (∀ i j, i < 64 → j < 64 → idctAt choice F i = idctAt choice F j) ∧
      ∀ i, i < 64 → idctRefAt F i = (F.getD 0 0 + 4) / 8 ∧ idctSrcAt F i = (F.getD 0 0 + 4).tdiv 8)

/-- 44_inverse_dct R211 (the spec's own inference), R217: RANGE cannot occur where every element is below 2^28 in magnitude. -/
def Obligations.IdctInRange : Prop :=
  ∀ choice (F : Block), (∀ j, j < 64 → -2 ^ 28 < F.getD j 0 ∧ F.getD j 0 < 2 ^ 28) →
    ∀ i, i < 64 → fits (idctAt choice F i) = true

/-- 45_color_converter R234, 20_memory R79: COLOR converts every sample of every unit and leaves values in 0..255 in all
three planes; where the grid has the size of the image, the samples of pixel `(x, y)` stand at the address R79 gives,
inside the grid, no two at one address. -/
def Obligations.ColorResult : Prop :=
  ∀ s, StageReady .spatial s →
    ∃ t, exec .color s = .next t ∧ t = { s with phase := .rgb, grid := t.grid } ∧
      (∀ u i, u < s.nUnits.toNat → i < 64 →
        let y := s.grid.read u 0 i
        let cb := s.grid.read u 1 i
        let cr := s.grid.read u 2 i
        (s.ncomp.toNat = 3 → t.grid.read u 0 i = redOf y cr ∧ t.grid.read u 1 i = greenOf y cb cr ∧
          t.grid.read u 2 i = blueOf y cb) ∧
        (s.ncomp.toNat = 1 → ∀ p, p < 3 → t.grid.read u p i = grayOf y) ∧
        ∀ p, p < 3 → 0 ≤ t.grid.read u p i ∧ t.grid.read u p i ≤ 255) ∧
      (∀ u p i : Nat, p < 3 → i < 64 → s.nUnits.toNat ≤ u → t.grid.word u p i = s.grid.word u p i) ∧
      let perRow := (s.width.toNat + 7) / 8
      (s.nUnits.toNat = (s.height.toNat + 7) / 8 * perRow →
        ∀ x y p, x < s.width.toNat → y < s.height.toNat → p < 3 →
          let u := y / 8 * perRow + x / 8
          let i := 8 * (y % 8) + x % 8
          u < s.nUnits.toNat ∧ i < 64 ∧ pixelAddress t x y p = .grid u p i ∧
          addressRead t (pixelAddress t x y p) = t.grid.word u p i ∧
          ∀ x' y' p', x' < s.width.toNat → y' < s.height.toNat → p' < 3 →
            pixelAddress t x y p = pixelAddress t x' y' p' → x = x' ∧ y = y' ∧ p = p')

/-- 45_color_converter R230, R231, R233, R235: the channels are the printed formulas over the rationals, truncated and
clamped; the clamp makes truncation and floor the same; gray is color with zero chroma. -/
def Obligations.ColorSample : Prop :=
  ∀ y cb cr : Int,
    redOf y cr = max 0 (min 255 (truncRat ((1000 * y + 1402 * cr + 128000) / 1000))) ∧
    greenOf y cb cr =
      max 0 (min 255 (truncRat ((1000000 * y - 344136 * cb - 714136 * cr + 128000000) / 1000000))) ∧
    blueOf y cb = max 0 (min 255 (truncRat ((1000 * y + 1772 * cb + 128000) / 1000))) ∧
    redOf y cr = max 0 (min 255 ((1000 * y + 1402 * cr + 128000) / 1000)) ∧
    greenOf y cb cr = max 0 (min 255 ((1000000 * y - 344136 * cb - 714136 * cr + 128000000) / 1000000)) ∧
    blueOf y cb = max 0 (min 255 ((1000 * y + 1772 * cb + 128000) / 1000)) ∧
    grayOf y = max 0 (min 255 (y + 128)) ∧ grayOf y = redOf y 0 ∧ grayOf y = greenOf y 0 0 ∧ grayOf y = blueOf y 0

/-! ## Entropy symbols run alone -/

/-- 42_entropy_symbols R180: DCCAT in the context of a component: value field, sum, predictor, zigzag position 0; UNDERRUN
and RANGE.  Running a symbol alone, and its context `sym`, are the model's (log 2); so is that a cursor beyond the end
stays at an UNDERRUN (log 16). -/
def Obligations.DccatResult : Prop :=
  ∀ s (cat : Byte), s.valid = true → cat.toNat ≤ 11 →
    let c := s.sym.comp
    let p := cursorPos s
    let v := predAt s c + extend (streamField s p cat.toNat) cat.toNat
    (p + cat.toNat ≤ streamEnd s ∨ cat.toNat = 0 → fits v = true →
      exec (.dccat cat) s = .next (putCoef c 0 v (setPred c v (atPos (p + cat.toNat) s)))) ∧
    (p + cat.toNat ≤ streamEnd s ∨ cat.toNat = 0 → fits v = false →
      exec (.dccat cat) s = .next (raise .range (atPos (p + cat.toNat) s))) ∧
    (¬ (p + cat.toNat ≤ streamEnd s ∨ cat.toNat = 0) →
      exec (.dccat cat) s = .next (raise .underrun (atPos (max p (streamEnd s)) s)))

/-- 42_entropy_symbols R181, R186: the illegal symbols, run alone (log 2), raise their fault and do nothing else. -/
def Obligations.BadSymbols : Prop :=
  ∀ s, s.valid = true → (∀ b : Byte, exec (.dcbad b) s = .next (raise .dccat s)) ∧
    ∀ run size, exec (.acbad run size) s = .next (raise .acsize s)

/-- 42_entropy_symbols R182, R183, R184, R187: EOB, ZRL and ZRUN in the context of a component and a zigzag cursor: zeros
from the cursor on and the new cursor (the context is the model's, log 2); a run that would reach position 64 raises ACRUN before a zero is written. -/
def Obligations.RunSymbols : Prop :=
  ∀ s (k : Nat), s.valid = true → s.sym.k = k → 1 ≤ k → k ≤ 63 →
    let zeros := fun n => { storeCoefs s.sym.comp k (List.replicate n 0) s with sym := { s.sym with k := k + n } }
    exec .eob s = .next (zeros (64 - k)) ∧
    (k + 16 < 64 → exec .zrl s = .next (zeros 16)) ∧ (64 ≤ k + 16 → exec .zrl s = .next (raise .acrun s)) ∧
    ∀ run : BitVec 4, 1 ≤ run.toNat → run.toNat ≤ 14 →
      (k + run.toNat < 64 → exec (.zrun run) s = .next (zeros run.toNat)) ∧
      (64 ≤ k + run.toNat → exec (.zrun run) s = .next (raise .acrun s))

/-- 42_entropy_symbols R185, R187: ACCOEF in the context of a component and a zigzag cursor (the context is the
model's, log 2; a cursor beyond the end stays at an UNDERRUN, log 16). -/
def Obligations.AccoefResult : Prop :=
  ∀ s (k : Nat) (run size : BitVec 4), s.valid = true → s.sym.k = k → 1 ≤ k → k ≤ 63 →
    1 ≤ size.toNat → size.toNat ≤ 10 →
    let p := cursorPos s
    let v := extend (streamField s p size.toNat) size.toNat
    (k + run.toNat < 64 → p + size.toNat ≤ streamEnd s →
      exec (.accoef run size) s = .next
        { atPos (p + size.toNat) (storeCoefs s.sym.comp k (List.replicate run.toNat 0 ++ [v]) s) with
          sym := { s.sym with k := k + run.toNat + 1 } } ∧ v ≠ 0 ∧ |v| ≤ 1023) ∧
    (k + run.toNat < 64 → streamEnd s < p + size.toNat →
      exec (.accoef run size) s = .next (raise .underrun (atPos (max p (streamEnd s)) s))) ∧
    (64 ≤ k + run.toNat → exec (.accoef run size) s = .next (raise .acrun s))

/-! ## What no instruction changes -/

/-- 10_state R34 to R38, R42, R43: no command but RESET changes what the host loads: configuration registers, `ENT`, the
quantization tables, the host's parts of the Huffman tables; nor the queue and the epochs of the model. -/
def Obligations.HostStateKept : Prop :=
  ∀ i s t, i ≠ .reset → exec i s = .next t →
    t.ncomp = s.ncomp ∧ t.width = s.width ∧ t.height = s.height ∧ t.rsti = s.rsti ∧ t.comps = s.comps ∧
    t.entLen = s.entLen ∧ t.qTables = s.qTables ∧ t.ent = s.ent ∧ t.cfg = s.cfg ∧ t.memEpoch = s.memEpoch ∧
    t.pending = s.pending ∧ t.hostData = s.hostData ∧
    (∀ a, entAt t a = entAt s a) ∧ (∀ q a, quantAt t q a = quantAt s q a) ∧
    ∀ k q, (t.ht k q).set = (s.ht k q).set ∧ ∀ j, offsByte t k q j = offsByte s k q j ∧ symAt t k q j = symAt s k q j

/-- 10_state R40: no command but HTBUILD and RESET changes a Huffman table, and HTBUILD only the one it names. -/
def Obligations.HuffmanTablesKept : Prop :=
  (∀ i s t, i ≠ .reset → (∀ k q, i ≠ .htbuild k q) → exec i s = .next t → ∀ k q, t.ht k q = s.ht k q) ∧
  ∀ k q s t, exec (.htbuild k q) s = .next t → ∀ k' q', ¬ (k' = k ∧ q' = q) → t.ht k' q' = s.ht k' q'

/-- 10_state R22: which commands write which predictor. -/
def Obligations.PredictorsKept : Prop :=
  ∀ i s t, exec i s = .next t →
    (i ∉ [Instr.decmcu, .decscan, .scaninit, .reset] → (∀ c cat, i ≠ .decdc c ∧ i ≠ .decblk c ∧ i ≠ .dccat cat) →
      t.pred = s.pred) ∧
    (∀ c e : Fin 3, i = .decdc (compArg c) ∨ i = .decblk (compArg c) → e ≠ c → predAt t e = predAt s e) ∧
    ∀ cat, ∀ e : Fin 3, i = .dccat cat → e ≠ s.sym.comp → predAt t e = predAt s e

/-- 10_state R25 (the spec's own inference): the cursor never moves back but to the start, by SCANINIT or RESET, and moves only in commands that read
or skip bits. -/
def Obligations.CursorForward : Prop :=
  ∀ i s t, exec i s = .next t →
    (i ≠ .scaninit → i ≠ .reset → cursorPos s ≤ cursorPos t) ∧
    (i = .scaninit ∨ i = .reset → cursorPos t = cursorPos s ∨ cursorPos t = 0) ∧
    (i ∈ [Instr.nop, .dequant, .idct, .color, .eob, .zrl] ∨ (∃ k q, i = .htbuild k q) ∨ (∃ r, i = .zrun r) ∨
      (∃ b, i = .dcbad b) ∨ (∃ r z, i = .acbad r z) → t.byteIdx = s.byteIdx ∧ t.bitIdx = s.bitIdx)

/-- 10_state R26 (the spec's own inference): every command keeps the cursor invariant. -/
def Obligations.CursorInvariant : Prop :=
  ∀ i s t, CursorOk s → exec i s = .next t → CursorOk t

/-- 10_state R27, R29, R39: which commands change `BLKIDX`, `NUNITS` and `PHASE`. -/
def Obligations.CountersKept : Prop :=
  ∀ i s t, exec i s = .next t →
    (i ∉ [Instr.decmcu, .decscan, .scaninit, .reset] → t.blkIdx = s.blkIdx) ∧
    (i ∉ [Instr.scaninit, .reset] → t.nUnits = s.nUnits) ∧
    (i ∉ [Instr.decmcu, .decscan, .scaninit, .reset, .dequant, .idct, .color] → t.phase = s.phase) ∧
    (i = .decmcu → t.blkIdx = s.blkIdx ∨ t.blkIdx = s.blkIdx + 1)

/-- 10_state R23, R30: only RDBIT, RDBITS and DECSYM write `RESULT` and `RFAIL`, and RESET clears them; only an AC symbol
run alone moves the model's zigzag cursor (log 2). -/
def Obligations.ResultKept : Prop :=
  ∀ i s t, exec i s = .next t → i ≠ .reset →
    (i ≠ .rdbit → (∀ n k q, i ≠ .rdbits n ∧ i ≠ .decsym k q) → t.result = s.result ∧ t.rfail = s.rfail) ∧
    (i ∉ [Instr.eob, .zrl] → (∀ r z, i ≠ .zrun r ∧ i ≠ .accoef r z) → t.sym = s.sym)

/-- 10_state R44, 20_memory R81: where the grid is not invalidated, which elements each command may change. -/
def Obligations.GridKept : Prop :=
  ∀ i s t, exec i s = .next t → t.valid = true → i ≠ .scaninit → i ≠ .reset →
    ∀ u p x : Nat, p < 3 → x < 64 →
      (i ∈ [Instr.nop, .rdbit, .align] ∨ (∃ n, i = .rdbits n) ∨ (∃ k q, i = .htbuild k q ∨ i = .decsym k q) →
        t.grid = s.grid) ∧
      (∀ c : Fin 3, i = .decdc (compArg c) → ¬ (u = s.blkIdx.toNat ∧ p = c.val ∧ x = 0) →
        t.grid.word u p x = s.grid.word u p x) ∧
      (∀ c : Fin 3, i = .decac (compArg c) → ¬ (u = s.blkIdx.toNat ∧ p = c.val ∧ x ≠ 0) →
        t.grid.word u p x = s.grid.word u p x) ∧
      (∀ c : Fin 3, i = .decblk (compArg c) → ¬ (u = s.blkIdx.toNat ∧ p = c.val) →
        t.grid.word u p x = s.grid.word u p x) ∧
      (i = .decmcu → ¬ (u = s.blkIdx.toNat ∧ p < s.ncomp.toNat) → t.grid.word u p x = s.grid.word u p x) ∧
      (i = .decscan → s.blkIdx.toNat < s.nUnits.toNat →
        ¬ (s.blkIdx.toNat ≤ u ∧ u < s.nUnits.toNat ∧ p < s.ncomp.toNat) →
        t.grid.word u p x = s.grid.word u p x)

/-- 10_state R37: the sampling factors are stored and never read: every command does the same whatever they are. -/
def Obligations.SamplingUnread : Prop :=
  ∀ i s hs vs, i ≠ .reset → exec i (setSampling hs vs s) = mapNext (setSampling hs vs) (exec i s)

/-! ## The host -/

/-- 20_memory R70, R72, R78, 46_control R243, 10_state R29, R32, 60_exceptions R261: a read returns the value and changes
nothing (the model keeps the value in `hostData`, log 8).  What a register reads as: the layout of R32 field by field,
0 for register 0 and above 18.  What an element reads as; an address without an element, or with one outside the valid
range (`ENT`: log 6, `GRID`: log 7), reads 0. -/
def Obligations.ReadsHaveNoEffect : Prop :=
  ∀ s rest,
    (∀ n, s.pending = .op (.regRead n) :: rest →
      step s = .next { s with pending := rest, hostData := regRead s n }) ∧
    (∀ a, s.pending = .op (.memRead a) :: rest →
      step s = .next { s with pending := rest, hostData := addressRead s a }) ∧
    regRead s 0 = 0 ∧ (∀ n, 19 ≤ n → regRead s n = 0) ∧
    (∀ n p, (n, p) ∈ [(0, Phase.idle), (1, .decode), (2, .coef), (3, .deq), (4, .spatial), (5, .rgb)] → s.phase = p →
      (regRead s 1).toNat = s.valid.toNat + 2 * n + 16 * s.rfail.toNat) ∧
    (∀ n f, (n, f) ∈ [(0, FaultCode.none), (1, .underrun), (2, .nocode), (3, .dccat), (4, .acsize), (5, .acrun),
        (6, .table), (7, .config), (8, .sequence), (9, .illcmd), (10, .range), (11, .resource)] → s.fault = f →
      (regRead s 2).toNat = n) ∧
    regRead s 3 = s.result ∧ (regRead s 4).toNat = s.ncomp.toNat ∧ (regRead s 5).toNat = s.width.toNat ∧
    (regRead s 6).toNat = s.height.toNat ∧ (regRead s 7).toNat = s.rsti.toNat ∧
    (∀ c : Fin 3, (regRead s (8 + c)).toNat = (qTableOf s c).val + 4 * (dcTableOf s c).val + 16 * (acTableOf s c).val +
      256 * s.comps[c].hs.toNat + 4096 * s.comps[c].vs.toNat) ∧
    regRead s 11 = s.entLen ∧ regRead s 12 = s.byteIdx ∧ (regRead s 13).toNat = s.bitIdx.toNat ∧
    regRead s 14 = s.blkIdx ∧ regRead s 15 = s.nUnits ∧ (∀ c : Fin 3, (regRead s (16 + c)).toInt = predAt s c) ∧
    (∀ e : Elem, addressRead s e.address = memRead s e) ∧ (∀ a, (∀ e : Elem, e.address ≠ a) → addressRead s a = 0) ∧
    ∀ e, (¬ Present s e → memRead s e = 0) ∧
      (Present s e → (memRead s e).toNat = (match e with
        | .ent i => (entAt s i).toNat
        | .offs k t j => offsAt s k t j
        | .sym k t j => (symAt s k t j).toNat
        | .code k t j => (codeAt s k t j).toNat
        | .htSet k t => (s.ht k t).set.toNat
        | .htBuilt k t => (s.ht k t).built.toNat
        | .q t i => (quantAt s t i).toNat
        | .qtSet t => s.qTables[t].set.toNat
        | .grid u p i => (s.grid.word u p i).toNat))

/-- 10_state R32, R37, 46_control R243: what a written register reads back as; no other register changes; a read-only or
absent one ignores the write; and which table ids a write of `COMPc` names. -/
def Obligations.RegisterWrites : Prop :=
  ∀ s (v : Word) n, 1 ≤ n →
    regRead (regWrite s n v) n =
      (if n = 4 then v &&& 0x3#32 else if 5 ≤ n ∧ n ≤ 7 then v &&& 0xFFFF#32
       else if 8 ≤ n ∧ n ≤ 10 then v &&& 0xFF3F#32 else if n = 11 then v else regRead s n) ∧
    (∀ m, m ≠ n → regRead (regWrite s n v) m = regRead s m) ∧
    (n < 4 ∨ 12 ≤ n → regWrite s n v = s) ∧ (regWrite s n v).ent = s.ent ∧ (regWrite s n v).grid = s.grid ∧
    (∀ k q, (regWrite s n v).ht k q = s.ht k q) ∧ (regWrite s n v).qTables = s.qTables ∧
    ∀ c : Fin 3, n = 8 + c.val →
      (qTableOf (regWrite s n v) c).val = v.toNat % 4 ∧ (dcTableOf (regWrite s n v) c).val = v.toNat / 4 % 4 ∧
      (acTableOf (regWrite s n v) c).val = v.toNat / 16 % 4

/-- 20_memory R78, R72, 46_control R243: a written element reads back cut to its width; `CODE` and `BUILT` ignore writes;
a write of `OFFS`, `SYM` or `SET` clears `BUILT` of its table; every other element and every register is unchanged;
at an address without an element, or with one outside the valid range (`ENT`: log 6, `GRID`: log 7), nothing happens. -/
def Obligations.MemoryWrites : Prop :=
  ∀ s (v : Word),
    (∀ e : Elem, addressWrite s e.address v = memWrite s e v) ∧
    (∀ a, (∀ e : Elem, e.address ≠ a) → addressWrite s a v = s) ∧
    ∀ e,
      let t := memWrite s e v
      (¬ Present s e → t = s) ∧
      (Present s e → memRead t e = (match e with
        | .ent _ => v &&& 0xFF#32 | .offs _ _ _ => v &&& 0xFF#32 | .sym _ _ _ => v &&& 0xFF#32
        | .code _ _ _ => memRead s e | .htBuilt _ _ => memRead s e
        | .htSet _ _ => v &&& 0x1#32 | .qtSet _ => v &&& 0x1#32 | .q _ _ => v &&& 0xFFFF#32 | .grid _ _ _ => v)) ∧
      (Present s e → ∀ k q,
        ((∃ j, e = .offs k q j ∨ e = .sym k q j) ∨ e = .htSet k q → (t.ht k q).built = false)) ∧
      (∀ e', e' ≠ e → Present s e' →
        (∀ k q, e' = .htBuilt k q → ¬ ((∃ j, e = .offs k q j ∨ e = .sym k q j) ∨ e = .htSet k q)) →
        memRead t e' = memRead s e') ∧
      ∀ n, regRead t n = regRead s n

/-! ## Invariants -/

/-- The memories of the reset state are in canonical form (10_state R47, log 5), and the reset state meets the invariant
of 10_state R27 to R29, R40, R41 (with the model's empty queue, log 1). -/
def Obligations.ResetInvariant : Prop := MemoriesOk State.reset ∧ MachineInv State.reset

/-- Every step keeps every memory in its canonical form (the representation is the model's, log 5). -/
def Obligations.MemoriesInvariant : Prop :=
  ∀ s t, MemoriesOk s → step s = .next t → MemoriesOk t

/-- Every step of the host keeps the invariant: the latch and the fault code agree, the counters and the phase agree
(10_state R27, R29, R39), a built table holds the codes its legal offsets give (R40, R41, R46), and nothing is stored
outside the stores (20_memory R72). -/
def Obligations.MachineInvariant : Prop :=
  ∀ s t, MachineInv s → step s = .next t → MachineInv t

end
end

