-- ==== Sys2Proof/Laws/State.lean ====
section
/-! SUPPORT. What each named update of the state does to each field, one lemma per field, so that no later
proof unfolds an update. -/

namespace Sys2Proof.Machine

variable (s : State)

/-! ## `setCursor` -/

@[simp] theorem setCursor_cfg (b : Word) (k : BitVec 3) : (setCursor b k s).cfg = s.cfg := rfl
@[simp] theorem setCursor_valid (b : Word) (k : BitVec 3) : (setCursor b k s).valid = s.valid := rfl
@[simp] theorem setCursor_phase (b : Word) (k : BitVec 3) : (setCursor b k s).phase = s.phase := rfl
@[simp] theorem setCursor_rfail (b : Word) (k : BitVec 3) : (setCursor b k s).rfail = s.rfail := rfl
@[simp] theorem setCursor_fault (b : Word) (k : BitVec 3) : (setCursor b k s).fault = s.fault := rfl
@[simp] theorem setCursor_result (b : Word) (k : BitVec 3) : (setCursor b k s).result = s.result := rfl
@[simp] theorem setCursor_ncomp (b : Word) (k : BitVec 3) : (setCursor b k s).ncomp = s.ncomp := rfl
@[simp] theorem setCursor_width (b : Word) (k : BitVec 3) : (setCursor b k s).width = s.width := rfl
@[simp] theorem setCursor_height (b : Word) (k : BitVec 3) : (setCursor b k s).height = s.height := rfl
@[simp] theorem setCursor_rsti (b : Word) (k : BitVec 3) : (setCursor b k s).rsti = s.rsti := rfl
@[simp] theorem setCursor_comps (b : Word) (k : BitVec 3) : (setCursor b k s).comps = s.comps := rfl
@[simp] theorem setCursor_entLen (b : Word) (k : BitVec 3) : (setCursor b k s).entLen = s.entLen := rfl
@[simp] theorem setCursor_byteIdx (b : Word) (k : BitVec 3) : (setCursor b k s).byteIdx = b := rfl
@[simp] theorem setCursor_bitIdx (b : Word) (k : BitVec 3) : (setCursor b k s).bitIdx = k := rfl
@[simp] theorem setCursor_blkIdx (b : Word) (k : BitVec 3) : (setCursor b k s).blkIdx = s.blkIdx := rfl
@[simp] theorem setCursor_nUnits (b : Word) (k : BitVec 3) : (setCursor b k s).nUnits = s.nUnits := rfl
@[simp] theorem setCursor_pred (b : Word) (k : BitVec 3) : (setCursor b k s).pred = s.pred := rfl
@[simp] theorem setCursor_dcTables (b : Word) (k : BitVec 3) : (setCursor b k s).dcTables = s.dcTables := rfl
@[simp] theorem setCursor_acTables (b : Word) (k : BitVec 3) : (setCursor b k s).acTables = s.acTables := rfl
@[simp] theorem setCursor_qTables (b : Word) (k : BitVec 3) : (setCursor b k s).qTables = s.qTables := rfl
@[simp] theorem setCursor_ent (b : Word) (k : BitVec 3) : (setCursor b k s).ent = s.ent := rfl
@[simp] theorem setCursor_grid (b : Word) (k : BitVec 3) : (setCursor b k s).grid = s.grid := rfl
@[simp] theorem setCursor_memEpoch (b : Word) (k : BitVec 3) : (setCursor b k s).memEpoch = s.memEpoch := rfl
@[simp] theorem setCursor_sym (b : Word) (k : BitVec 3) : (setCursor b k s).sym = s.sym := rfl
@[simp] theorem setCursor_pending (b : Word) (k : BitVec 3) : (setCursor b k s).pending = s.pending := rfl
@[simp] theorem setCursor_hostData (b : Word) (k : BitVec 3) : (setCursor b k s).hostData = s.hostData := rfl

/-! ## `setPred` -/

@[simp] theorem setPred_cfg (c : Fin 3) (v : Int) : (setPred c v s).cfg = s.cfg := rfl
@[simp] theorem setPred_valid (c : Fin 3) (v : Int) : (setPred c v s).valid = s.valid := rfl
@[simp] theorem setPred_phase (c : Fin 3) (v : Int) : (setPred c v s).phase = s.phase := rfl
@[simp] theorem setPred_rfail (c : Fin 3) (v : Int) : (setPred c v s).rfail = s.rfail := rfl
@[simp] theorem setPred_fault (c : Fin 3) (v : Int) : (setPred c v s).fault = s.fault := rfl
@[simp] theorem setPred_result (c : Fin 3) (v : Int) : (setPred c v s).result = s.result := rfl
@[simp] theorem setPred_ncomp (c : Fin 3) (v : Int) : (setPred c v s).ncomp = s.ncomp := rfl
@[simp] theorem setPred_width (c : Fin 3) (v : Int) : (setPred c v s).width = s.width := rfl
@[simp] theorem setPred_height (c : Fin 3) (v : Int) : (setPred c v s).height = s.height := rfl
@[simp] theorem setPred_rsti (c : Fin 3) (v : Int) : (setPred c v s).rsti = s.rsti := rfl
@[simp] theorem setPred_comps (c : Fin 3) (v : Int) : (setPred c v s).comps = s.comps := rfl
@[simp] theorem setPred_entLen (c : Fin 3) (v : Int) : (setPred c v s).entLen = s.entLen := rfl
@[simp] theorem setPred_byteIdx (c : Fin 3) (v : Int) : (setPred c v s).byteIdx = s.byteIdx := rfl
@[simp] theorem setPred_bitIdx (c : Fin 3) (v : Int) : (setPred c v s).bitIdx = s.bitIdx := rfl
@[simp] theorem setPred_blkIdx (c : Fin 3) (v : Int) : (setPred c v s).blkIdx = s.blkIdx := rfl
@[simp] theorem setPred_nUnits (c : Fin 3) (v : Int) : (setPred c v s).nUnits = s.nUnits := rfl
@[simp] theorem setPred_pred (c : Fin 3) (v : Int) : (setPred c v s).pred = s.pred.set c (BitVec.ofInt 32 v) := rfl
@[simp] theorem setPred_dcTables (c : Fin 3) (v : Int) : (setPred c v s).dcTables = s.dcTables := rfl
@[simp] theorem setPred_acTables (c : Fin 3) (v : Int) : (setPred c v s).acTables = s.acTables := rfl
@[simp] theorem setPred_qTables (c : Fin 3) (v : Int) : (setPred c v s).qTables = s.qTables := rfl
@[simp] theorem setPred_ent (c : Fin 3) (v : Int) : (setPred c v s).ent = s.ent := rfl
@[simp] theorem setPred_grid (c : Fin 3) (v : Int) : (setPred c v s).grid = s.grid := rfl
@[simp] theorem setPred_memEpoch (c : Fin 3) (v : Int) : (setPred c v s).memEpoch = s.memEpoch := rfl
@[simp] theorem setPred_sym (c : Fin 3) (v : Int) : (setPred c v s).sym = s.sym := rfl
@[simp] theorem setPred_pending (c : Fin 3) (v : Int) : (setPred c v s).pending = s.pending := rfl
@[simp] theorem setPred_hostData (c : Fin 3) (v : Int) : (setPred c v s).hostData = s.hostData := rfl

/-! ## `clearPred` -/

@[simp] theorem clearPred_cfg : (clearPred s).cfg = s.cfg := rfl
@[simp] theorem clearPred_valid : (clearPred s).valid = s.valid := rfl
@[simp] theorem clearPred_phase : (clearPred s).phase = s.phase := rfl
@[simp] theorem clearPred_rfail : (clearPred s).rfail = s.rfail := rfl
@[simp] theorem clearPred_fault : (clearPred s).fault = s.fault := rfl
@[simp] theorem clearPred_result : (clearPred s).result = s.result := rfl
@[simp] theorem clearPred_ncomp : (clearPred s).ncomp = s.ncomp := rfl
@[simp] theorem clearPred_width : (clearPred s).width = s.width := rfl
@[simp] theorem clearPred_height : (clearPred s).height = s.height := rfl
@[simp] theorem clearPred_rsti : (clearPred s).rsti = s.rsti := rfl
@[simp] theorem clearPred_comps : (clearPred s).comps = s.comps := rfl
@[simp] theorem clearPred_entLen : (clearPred s).entLen = s.entLen := rfl
@[simp] theorem clearPred_byteIdx : (clearPred s).byteIdx = s.byteIdx := rfl
@[simp] theorem clearPred_bitIdx : (clearPred s).bitIdx = s.bitIdx := rfl
@[simp] theorem clearPred_blkIdx : (clearPred s).blkIdx = s.blkIdx := rfl
@[simp] theorem clearPred_nUnits : (clearPred s).nUnits = s.nUnits := rfl
@[simp] theorem clearPred_pred : (clearPred s).pred = Vector.replicate 3 0 := rfl
@[simp] theorem clearPred_dcTables : (clearPred s).dcTables = s.dcTables := rfl
@[simp] theorem clearPred_acTables : (clearPred s).acTables = s.acTables := rfl
@[simp] theorem clearPred_qTables : (clearPred s).qTables = s.qTables := rfl
@[simp] theorem clearPred_ent : (clearPred s).ent = s.ent := rfl
@[simp] theorem clearPred_grid : (clearPred s).grid = s.grid := rfl
@[simp] theorem clearPred_memEpoch : (clearPred s).memEpoch = s.memEpoch := rfl
@[simp] theorem clearPred_sym : (clearPred s).sym = s.sym := rfl
@[simp] theorem clearPred_pending : (clearPred s).pending = s.pending := rfl
@[simp] theorem clearPred_hostData : (clearPred s).hostData = s.hostData := rfl

/-! ## `putCoef` -/

@[simp] theorem putCoef_cfg (c : Fin 3) (m : Nat) (v : Int) : (putCoef c m v s).cfg = s.cfg := rfl
@[simp] theorem putCoef_valid (c : Fin 3) (m : Nat) (v : Int) : (putCoef c m v s).valid = s.valid := rfl
@[simp] theorem putCoef_phase (c : Fin 3) (m : Nat) (v : Int) : (putCoef c m v s).phase = s.phase := rfl
@[simp] theorem putCoef_rfail (c : Fin 3) (m : Nat) (v : Int) : (putCoef c m v s).rfail = s.rfail := rfl
@[simp] theorem putCoef_fault (c : Fin 3) (m : Nat) (v : Int) : (putCoef c m v s).fault = s.fault := rfl
@[simp] theorem putCoef_result (c : Fin 3) (m : Nat) (v : Int) : (putCoef c m v s).result = s.result := rfl
@[simp] theorem putCoef_ncomp (c : Fin 3) (m : Nat) (v : Int) : (putCoef c m v s).ncomp = s.ncomp := rfl
@[simp] theorem putCoef_width (c : Fin 3) (m : Nat) (v : Int) : (putCoef c m v s).width = s.width := rfl
@[simp] theorem putCoef_height (c : Fin 3) (m : Nat) (v : Int) : (putCoef c m v s).height = s.height := rfl
@[simp] theorem putCoef_rsti (c : Fin 3) (m : Nat) (v : Int) : (putCoef c m v s).rsti = s.rsti := rfl
@[simp] theorem putCoef_comps (c : Fin 3) (m : Nat) (v : Int) : (putCoef c m v s).comps = s.comps := rfl
@[simp] theorem putCoef_entLen (c : Fin 3) (m : Nat) (v : Int) : (putCoef c m v s).entLen = s.entLen := rfl
@[simp] theorem putCoef_byteIdx (c : Fin 3) (m : Nat) (v : Int) : (putCoef c m v s).byteIdx = s.byteIdx := rfl
@[simp] theorem putCoef_bitIdx (c : Fin 3) (m : Nat) (v : Int) : (putCoef c m v s).bitIdx = s.bitIdx := rfl
@[simp] theorem putCoef_blkIdx (c : Fin 3) (m : Nat) (v : Int) : (putCoef c m v s).blkIdx = s.blkIdx := rfl
@[simp] theorem putCoef_nUnits (c : Fin 3) (m : Nat) (v : Int) : (putCoef c m v s).nUnits = s.nUnits := rfl
@[simp] theorem putCoef_pred (c : Fin 3) (m : Nat) (v : Int) : (putCoef c m v s).pred = s.pred := rfl
@[simp] theorem putCoef_dcTables (c : Fin 3) (m : Nat) (v : Int) : (putCoef c m v s).dcTables = s.dcTables := rfl
@[simp] theorem putCoef_acTables (c : Fin 3) (m : Nat) (v : Int) : (putCoef c m v s).acTables = s.acTables := rfl
@[simp] theorem putCoef_qTables (c : Fin 3) (m : Nat) (v : Int) : (putCoef c m v s).qTables = s.qTables := rfl
@[simp] theorem putCoef_ent (c : Fin 3) (m : Nat) (v : Int) : (putCoef c m v s).ent = s.ent := rfl
@[simp] theorem putCoef_grid (c : Fin 3) (m : Nat) (v : Int) : (putCoef c m v s).grid = s.grid.put s.blkIdx.toNat c (zz m) v := rfl
@[simp] theorem putCoef_memEpoch (c : Fin 3) (m : Nat) (v : Int) : (putCoef c m v s).memEpoch = s.memEpoch := rfl
@[simp] theorem putCoef_sym (c : Fin 3) (m : Nat) (v : Int) : (putCoef c m v s).sym = s.sym := rfl
@[simp] theorem putCoef_pending (c : Fin 3) (m : Nat) (v : Int) : (putCoef c m v s).pending = s.pending := rfl
@[simp] theorem putCoef_hostData (c : Fin 3) (m : Nat) (v : Int) : (putCoef c m v s).hostData = s.hostData := rfl

/-! ## `setResult` -/

@[simp] theorem setResult_cfg (v : Word) : (setResult v s).cfg = s.cfg := rfl
@[simp] theorem setResult_valid (v : Word) : (setResult v s).valid = s.valid := rfl
@[simp] theorem setResult_phase (v : Word) : (setResult v s).phase = s.phase := rfl
@[simp] theorem setResult_rfail (v : Word) : (setResult v s).rfail = false := rfl
@[simp] theorem setResult_fault (v : Word) : (setResult v s).fault = s.fault := rfl
@[simp] theorem setResult_result (v : Word) : (setResult v s).result = v := rfl
@[simp] theorem setResult_ncomp (v : Word) : (setResult v s).ncomp = s.ncomp := rfl
@[simp] theorem setResult_width (v : Word) : (setResult v s).width = s.width := rfl
@[simp] theorem setResult_height (v : Word) : (setResult v s).height = s.height := rfl
@[simp] theorem setResult_rsti (v : Word) : (setResult v s).rsti = s.rsti := rfl
@[simp] theorem setResult_comps (v : Word) : (setResult v s).comps = s.comps := rfl
@[simp] theorem setResult_entLen (v : Word) : (setResult v s).entLen = s.entLen := rfl
@[simp] theorem setResult_byteIdx (v : Word) : (setResult v s).byteIdx = s.byteIdx := rfl
@[simp] theorem setResult_bitIdx (v : Word) : (setResult v s).bitIdx = s.bitIdx := rfl
@[simp] theorem setResult_blkIdx (v : Word) : (setResult v s).blkIdx = s.blkIdx := rfl
@[simp] theorem setResult_nUnits (v : Word) : (setResult v s).nUnits = s.nUnits := rfl
@[simp] theorem setResult_pred (v : Word) : (setResult v s).pred = s.pred := rfl
@[simp] theorem setResult_dcTables (v : Word) : (setResult v s).dcTables = s.dcTables := rfl
@[simp] theorem setResult_acTables (v : Word) : (setResult v s).acTables = s.acTables := rfl
@[simp] theorem setResult_qTables (v : Word) : (setResult v s).qTables = s.qTables := rfl
@[simp] theorem setResult_ent (v : Word) : (setResult v s).ent = s.ent := rfl
@[simp] theorem setResult_grid (v : Word) : (setResult v s).grid = s.grid := rfl
@[simp] theorem setResult_memEpoch (v : Word) : (setResult v s).memEpoch = s.memEpoch := rfl
@[simp] theorem setResult_sym (v : Word) : (setResult v s).sym = s.sym := rfl
@[simp] theorem setResult_pending (v : Word) : (setResult v s).pending = s.pending := rfl
@[simp] theorem setResult_hostData (v : Word) : (setResult v s).hostData = s.hostData := rfl

/-! ## `setFail` -/

@[simp] theorem setFail_cfg : (setFail s).cfg = s.cfg := rfl
@[simp] theorem setFail_valid : (setFail s).valid = s.valid := rfl
@[simp] theorem setFail_phase : (setFail s).phase = s.phase := rfl
@[simp] theorem setFail_rfail : (setFail s).rfail = true := rfl
@[simp] theorem setFail_fault : (setFail s).fault = s.fault := rfl
@[simp] theorem setFail_result : (setFail s).result = 0xFFFFFFFF#32 := rfl
@[simp] theorem setFail_ncomp : (setFail s).ncomp = s.ncomp := rfl
@[simp] theorem setFail_width : (setFail s).width = s.width := rfl
@[simp] theorem setFail_height : (setFail s).height = s.height := rfl
@[simp] theorem setFail_rsti : (setFail s).rsti = s.rsti := rfl
@[simp] theorem setFail_comps : (setFail s).comps = s.comps := rfl
@[simp] theorem setFail_entLen : (setFail s).entLen = s.entLen := rfl
@[simp] theorem setFail_byteIdx : (setFail s).byteIdx = s.byteIdx := rfl
@[simp] theorem setFail_bitIdx : (setFail s).bitIdx = s.bitIdx := rfl
@[simp] theorem setFail_blkIdx : (setFail s).blkIdx = s.blkIdx := rfl
@[simp] theorem setFail_nUnits : (setFail s).nUnits = s.nUnits := rfl
@[simp] theorem setFail_pred : (setFail s).pred = s.pred := rfl
@[simp] theorem setFail_dcTables : (setFail s).dcTables = s.dcTables := rfl
@[simp] theorem setFail_acTables : (setFail s).acTables = s.acTables := rfl
@[simp] theorem setFail_qTables : (setFail s).qTables = s.qTables := rfl
@[simp] theorem setFail_ent : (setFail s).ent = s.ent := rfl
@[simp] theorem setFail_grid : (setFail s).grid = s.grid := rfl
@[simp] theorem setFail_memEpoch : (setFail s).memEpoch = s.memEpoch := rfl
@[simp] theorem setFail_sym : (setFail s).sym = s.sym := rfl
@[simp] theorem setFail_pending : (setFail s).pending = s.pending := rfl
@[simp] theorem setFail_hostData : (setFail s).hostData = s.hostData := rfl

/-! ## `setPhase` -/

@[simp] theorem setPhase_cfg (p : Phase) : (setPhase p s).cfg = s.cfg := rfl
@[simp] theorem setPhase_valid (p : Phase) : (setPhase p s).valid = s.valid := rfl
@[simp] theorem setPhase_phase (p : Phase) : (setPhase p s).phase = p := rfl
@[simp] theorem setPhase_rfail (p : Phase) : (setPhase p s).rfail = s.rfail := rfl
@[simp] theorem setPhase_fault (p : Phase) : (setPhase p s).fault = s.fault := rfl
@[simp] theorem setPhase_result (p : Phase) : (setPhase p s).result = s.result := rfl
@[simp] theorem setPhase_ncomp (p : Phase) : (setPhase p s).ncomp = s.ncomp := rfl
@[simp] theorem setPhase_width (p : Phase) : (setPhase p s).width = s.width := rfl
@[simp] theorem setPhase_height (p : Phase) : (setPhase p s).height = s.height := rfl
@[simp] theorem setPhase_rsti (p : Phase) : (setPhase p s).rsti = s.rsti := rfl
@[simp] theorem setPhase_comps (p : Phase) : (setPhase p s).comps = s.comps := rfl
@[simp] theorem setPhase_entLen (p : Phase) : (setPhase p s).entLen = s.entLen := rfl
@[simp] theorem setPhase_byteIdx (p : Phase) : (setPhase p s).byteIdx = s.byteIdx := rfl
@[simp] theorem setPhase_bitIdx (p : Phase) : (setPhase p s).bitIdx = s.bitIdx := rfl
@[simp] theorem setPhase_blkIdx (p : Phase) : (setPhase p s).blkIdx = s.blkIdx := rfl
@[simp] theorem setPhase_nUnits (p : Phase) : (setPhase p s).nUnits = s.nUnits := rfl
@[simp] theorem setPhase_pred (p : Phase) : (setPhase p s).pred = s.pred := rfl
@[simp] theorem setPhase_dcTables (p : Phase) : (setPhase p s).dcTables = s.dcTables := rfl
@[simp] theorem setPhase_acTables (p : Phase) : (setPhase p s).acTables = s.acTables := rfl
@[simp] theorem setPhase_qTables (p : Phase) : (setPhase p s).qTables = s.qTables := rfl
@[simp] theorem setPhase_ent (p : Phase) : (setPhase p s).ent = s.ent := rfl
@[simp] theorem setPhase_grid (p : Phase) : (setPhase p s).grid = s.grid := rfl
@[simp] theorem setPhase_memEpoch (p : Phase) : (setPhase p s).memEpoch = s.memEpoch := rfl
@[simp] theorem setPhase_sym (p : Phase) : (setPhase p s).sym = s.sym := rfl
@[simp] theorem setPhase_pending (p : Phase) : (setPhase p s).pending = s.pending := rfl
@[simp] theorem setPhase_hostData (p : Phase) : (setPhase p s).hostData = s.hostData := rfl

/-! ## `raise` -/

@[simp] theorem raise_cfg (f : FaultCode) : (raise f s).cfg = s.cfg := rfl
@[simp] theorem raise_valid (f : FaultCode) : (raise f s).valid = false := rfl
@[simp] theorem raise_phase (f : FaultCode) : (raise f s).phase = s.phase := rfl
@[simp] theorem raise_rfail (f : FaultCode) : (raise f s).rfail = s.rfail := rfl
@[simp] theorem raise_fault (f : FaultCode) : (raise f s).fault = f := rfl
@[simp] theorem raise_result (f : FaultCode) : (raise f s).result = s.result := rfl
@[simp] theorem raise_ncomp (f : FaultCode) : (raise f s).ncomp = s.ncomp := rfl
@[simp] theorem raise_width (f : FaultCode) : (raise f s).width = s.width := rfl
@[simp] theorem raise_height (f : FaultCode) : (raise f s).height = s.height := rfl
@[simp] theorem raise_rsti (f : FaultCode) : (raise f s).rsti = s.rsti := rfl
@[simp] theorem raise_comps (f : FaultCode) : (raise f s).comps = s.comps := rfl
@[simp] theorem raise_entLen (f : FaultCode) : (raise f s).entLen = s.entLen := rfl
@[simp] theorem raise_byteIdx (f : FaultCode) : (raise f s).byteIdx = s.byteIdx := rfl
@[simp] theorem raise_bitIdx (f : FaultCode) : (raise f s).bitIdx = s.bitIdx := rfl
@[simp] theorem raise_blkIdx (f : FaultCode) : (raise f s).blkIdx = s.blkIdx := rfl
@[simp] theorem raise_nUnits (f : FaultCode) : (raise f s).nUnits = s.nUnits := rfl
@[simp] theorem raise_pred (f : FaultCode) : (raise f s).pred = s.pred := rfl
@[simp] theorem raise_dcTables (f : FaultCode) : (raise f s).dcTables = s.dcTables := rfl
@[simp] theorem raise_acTables (f : FaultCode) : (raise f s).acTables = s.acTables := rfl
@[simp] theorem raise_qTables (f : FaultCode) : (raise f s).qTables = s.qTables := rfl
@[simp] theorem raise_ent (f : FaultCode) : (raise f s).ent = s.ent := rfl
@[simp] theorem raise_grid (f : FaultCode) : (raise f s).grid = s.grid.forget := rfl
@[simp] theorem raise_memEpoch (f : FaultCode) : (raise f s).memEpoch = s.memEpoch := rfl
@[simp] theorem raise_sym (f : FaultCode) : (raise f s).sym = s.sym := rfl
@[simp] theorem raise_pending (f : FaultCode) : (raise f s).pending = s.pending := rfl
@[simp] theorem raise_hostData (f : FaultCode) : (raise f s).hostData = s.hostData := rfl

/-! ## `setQt` -/

@[simp] theorem setQt_cfg (t : Fin 4) (q : QuantTable) : (setQt t q s).cfg = s.cfg := rfl
@[simp] theorem setQt_valid (t : Fin 4) (q : QuantTable) : (setQt t q s).valid = s.valid := rfl
@[simp] theorem setQt_phase (t : Fin 4) (q : QuantTable) : (setQt t q s).phase = s.phase := rfl
@[simp] theorem setQt_rfail (t : Fin 4) (q : QuantTable) : (setQt t q s).rfail = s.rfail := rfl
@[simp] theorem setQt_fault (t : Fin 4) (q : QuantTable) : (setQt t q s).fault = s.fault := rfl
@[simp] theorem setQt_result (t : Fin 4) (q : QuantTable) : (setQt t q s).result = s.result := rfl
@[simp] theorem setQt_ncomp (t : Fin 4) (q : QuantTable) : (setQt t q s).ncomp = s.ncomp := rfl
@[simp] theorem setQt_width (t : Fin 4) (q : QuantTable) : (setQt t q s).width = s.width := rfl
@[simp] theorem setQt_height (t : Fin 4) (q : QuantTable) : (setQt t q s).height = s.height := rfl
@[simp] theorem setQt_rsti (t : Fin 4) (q : QuantTable) : (setQt t q s).rsti = s.rsti := rfl
@[simp] theorem setQt_comps (t : Fin 4) (q : QuantTable) : (setQt t q s).comps = s.comps := rfl
@[simp] theorem setQt_entLen (t : Fin 4) (q : QuantTable) : (setQt t q s).entLen = s.entLen := rfl
@[simp] theorem setQt_byteIdx (t : Fin 4) (q : QuantTable) : (setQt t q s).byteIdx = s.byteIdx := rfl
@[simp] theorem setQt_bitIdx (t : Fin 4) (q : QuantTable) : (setQt t q s).bitIdx = s.bitIdx := rfl
@[simp] theorem setQt_blkIdx (t : Fin 4) (q : QuantTable) : (setQt t q s).blkIdx = s.blkIdx := rfl
@[simp] theorem setQt_nUnits (t : Fin 4) (q : QuantTable) : (setQt t q s).nUnits = s.nUnits := rfl
@[simp] theorem setQt_pred (t : Fin 4) (q : QuantTable) : (setQt t q s).pred = s.pred := rfl
@[simp] theorem setQt_dcTables (t : Fin 4) (q : QuantTable) : (setQt t q s).dcTables = s.dcTables := rfl
@[simp] theorem setQt_acTables (t : Fin 4) (q : QuantTable) : (setQt t q s).acTables = s.acTables := rfl
@[simp] theorem setQt_qTables (t : Fin 4) (q : QuantTable) : (setQt t q s).qTables = s.qTables.set t q := rfl
@[simp] theorem setQt_ent (t : Fin 4) (q : QuantTable) : (setQt t q s).ent = s.ent := rfl
@[simp] theorem setQt_grid (t : Fin 4) (q : QuantTable) : (setQt t q s).grid = s.grid := rfl
@[simp] theorem setQt_memEpoch (t : Fin 4) (q : QuantTable) : (setQt t q s).memEpoch = s.memEpoch := rfl
@[simp] theorem setQt_sym (t : Fin 4) (q : QuantTable) : (setQt t q s).sym = s.sym := rfl
@[simp] theorem setQt_pending (t : Fin 4) (q : QuantTable) : (setQt t q s).pending = s.pending := rfl
@[simp] theorem setQt_hostData (t : Fin 4) (q : QuantTable) : (setQt t q s).hostData = s.hostData := rfl

/-! ## `setHt` -/

variable (k : HuffClass) (t : Fin 4) (h : HuffTable)

@[simp] theorem setHt_cfg : (setHt k t h s).cfg = s.cfg := by cases k <;> rfl
@[simp] theorem setHt_valid : (setHt k t h s).valid = s.valid := by cases k <;> rfl
@[simp] theorem setHt_phase : (setHt k t h s).phase = s.phase := by cases k <;> rfl
@[simp] theorem setHt_rfail : (setHt k t h s).rfail = s.rfail := by cases k <;> rfl
@[simp] theorem setHt_fault : (setHt k t h s).fault = s.fault := by cases k <;> rfl
@[simp] theorem setHt_result : (setHt k t h s).result = s.result := by cases k <;> rfl
@[simp] theorem setHt_ncomp : (setHt k t h s).ncomp = s.ncomp := by cases k <;> rfl
@[simp] theorem setHt_width : (setHt k t h s).width = s.width := by cases k <;> rfl
@[simp] theorem setHt_height : (setHt k t h s).height = s.height := by cases k <;> rfl
@[simp] theorem setHt_rsti : (setHt k t h s).rsti = s.rsti := by cases k <;> rfl
@[simp] theorem setHt_comps : (setHt k t h s).comps = s.comps := by cases k <;> rfl
@[simp] theorem setHt_entLen : (setHt k t h s).entLen = s.entLen := by cases k <;> rfl
@[simp] theorem setHt_byteIdx : (setHt k t h s).byteIdx = s.byteIdx := by cases k <;> rfl
@[simp] theorem setHt_bitIdx : (setHt k t h s).bitIdx = s.bitIdx := by cases k <;> rfl
@[simp] theorem setHt_blkIdx : (setHt k t h s).blkIdx = s.blkIdx := by cases k <;> rfl
@[simp] theorem setHt_nUnits : (setHt k t h s).nUnits = s.nUnits := by cases k <;> rfl
@[simp] theorem setHt_pred : (setHt k t h s).pred = s.pred := by cases k <;> rfl
@[simp] theorem setHt_qTables : (setHt k t h s).qTables = s.qTables := by cases k <;> rfl
@[simp] theorem setHt_ent : (setHt k t h s).ent = s.ent := by cases k <;> rfl
@[simp] theorem setHt_grid : (setHt k t h s).grid = s.grid := by cases k <;> rfl
@[simp] theorem setHt_memEpoch : (setHt k t h s).memEpoch = s.memEpoch := by cases k <;> rfl
@[simp] theorem setHt_sym : (setHt k t h s).sym = s.sym := by cases k <;> rfl
@[simp] theorem setHt_pending : (setHt k t h s).pending = s.pending := by cases k <;> rfl
@[simp] theorem setHt_hostData : (setHt k t h s).hostData = s.hostData := by cases k <;> rfl

@[simp] theorem setHt_ht_same : (setHt k t h s).ht k t = h := by
  cases k <;> simp [setHt, State.ht]

theorem setHt_ht_other (k' : HuffClass) (t' : Fin 4) (hne : ¬ (k' = k ∧ t' = t)) :
    (setHt k t h s).ht k' t' = s.ht k' t' := by
  cases k <;> cases k' <;> simp [setHt, State.ht] at hne ⊢ <;>
    rw [Vector.getElem_set_ne] <;> exact fun e => hne (Fin.ext e.symm)

@[simp] theorem setHt_ht : (setHt k t (s.ht k t) s) = s := by
  cases k <;> simp [setHt, State.ht]

@[simp] theorem setHt_setHt (h' : HuffTable) : setHt k t h (setHt k t h' s) = setHt k t h s := by
  cases k <;> simp [setHt]

/-! ## Tables seen through other updates -/

@[simp] theorem setCursor_ht (b : Word) (k : BitVec 3) (k' : HuffClass) (t' : Fin 4) :
    (setCursor b k s).ht k' t' = s.ht k' t' := by cases k' <;> rfl
@[simp] theorem setPred_ht (c : Fin 3) (v : Int) (k' : HuffClass) (t' : Fin 4) :
    (setPred c v s).ht k' t' = s.ht k' t' := by cases k' <;> rfl
@[simp] theorem clearPred_ht (k' : HuffClass) (t' : Fin 4) :
    (clearPred s).ht k' t' = s.ht k' t' := by cases k' <;> rfl
@[simp] theorem putCoef_ht (c : Fin 3) (m : Nat) (v : Int) (k' : HuffClass) (t' : Fin 4) :
    (putCoef c m v s).ht k' t' = s.ht k' t' := by cases k' <;> rfl
@[simp] theorem setResult_ht (v : Word) (k' : HuffClass) (t' : Fin 4) :
    (setResult v s).ht k' t' = s.ht k' t' := by cases k' <;> rfl
@[simp] theorem setFail_ht (k' : HuffClass) (t' : Fin 4) :
    (setFail s).ht k' t' = s.ht k' t' := by cases k' <;> rfl
@[simp] theorem setPhase_ht (p : Phase) (k' : HuffClass) (t' : Fin 4) :
    (setPhase p s).ht k' t' = s.ht k' t' := by cases k' <;> rfl
@[simp] theorem raise_ht (f : FaultCode) (k' : HuffClass) (t' : Fin 4) :
    (raise f s).ht k' t' = s.ht k' t' := by cases k' <;> rfl
@[simp] theorem setQt_ht (t : Fin 4) (q : QuantTable) (k' : HuffClass) (t' : Fin 4) :
    (setQt t q s).ht k' t' = s.ht k' t' := by cases k' <;> rfl

end Sys2Proof.Machine
end

