-- ==== Sys2Proof/Laws/Memory.lean ====
section
/-! SUPPORT. The laws of sparse memories and of the grid: read after write, the canonical form and the range of
keys kept by every write, equal contents give equal memories, and what a run of coefficient stores reads as. -/

namespace Sys2Proof.Machine

section Sparse
variable {w : Nat}

/-! ## Read after write -/

@[simp] theorem Memory.find_write_same (m : Memory w) (a : Nat) (v : BitVec w) :
    (m.write a v).find a = some v := by
  induction m with
  | nil => simp [Memory.write, Memory.find]
  | cons p rest ih =>
    simp only [Memory.write]
    split
    · simp [Memory.find]
    · split
      · simp [Memory.find]
      · rename_i h; simp [Memory.find, Ne.symm h, ih]

theorem Memory.find_write_other (m : Memory w) {a b : Nat} (v : BitVec w) (h : b ≠ a) :
    (m.write a v).find b = m.find b := by
  induction m with
  | nil => simp [Memory.write, Memory.find, Ne.symm h]
  | cons p rest ih =>
    simp only [Memory.write]
    split
    · simp [Memory.find, Ne.symm h]
    · split
      · rename_i e; subst e; simp [Memory.find, Ne.symm h]
      · simp [Memory.find, ih]

theorem Memory.find_write (m : Memory w) (a b : Nat) (v : BitVec w) :
    (m.write a v).find b = if b = a then some v else m.find b := by
  split
  · next h => subst h; simp
  · next h => exact m.find_write_other v h

/-! ## The canonical form -/

theorem Memory.wf_cons (p : Nat × BitVec w) (m : Memory w) :
    Memory.wf (p :: m) = true ↔ (∀ q ∈ m, p.1 < q.1) ∧ Memory.wf m = true := by
  induction m generalizing p with
  | nil => simp [Memory.wf]
  | cons q rest ih =>
    simp only [Memory.wf, Bool.and_eq_true, decide_eq_true_eq, List.mem_cons, forall_eq_or_imp]
    constructor
    · rintro ⟨h, hw⟩
      exact ⟨⟨h, fun r hr => h.trans (((ih q).mp hw).1 r hr)⟩, hw⟩
    · rintro ⟨⟨h, _⟩, hw⟩; exact ⟨h, hw⟩

theorem Memory.mem_write {m : Memory w} {a : Nat} {v : BitVec w} {q : Nat × BitVec w}
    (h : q ∈ m.write a v) : q = (a, v) ∨ q ∈ m := by
  induction m with
  | nil => simpa [Memory.write] using h
  | cons p rest ih =>
    simp only [Memory.write] at h
    split at h
    · simpa using h
    · split at h
      · simp at h ⊢; tauto
      · simp only [List.mem_cons] at h ⊢
        rcases h with h | h
        · exact .inr (.inl h)
        · rcases ih h with h | h
          · exact .inl h
          · exact .inr (.inr h)

/-- Every write keeps the canonical form. -/
theorem Memory.wf_write {m : Memory w} (a : Nat) (v : BitVec w) (h : m.wf = true) :
    (m.write a v).wf = true := by
  induction m with
  | nil => rfl
  | cons p rest ih =>
    obtain ⟨hp, hr⟩ := (Memory.wf_cons p rest).mp h
    simp only [Memory.write]
    split
    · next hlt =>
      refine (Memory.wf_cons _ _).mpr ⟨fun q hq => ?_, h⟩
      rcases List.mem_cons.mp hq with rfl | hq
      · exact hlt
      · exact hlt.trans (hp q hq)
    · split
      · next _ e => subst e; exact (Memory.wf_cons _ _).mpr ⟨hp, hr⟩
      · refine (Memory.wf_cons _ _).mpr ⟨fun q hq => ?_, ih hr⟩
        rcases Memory.mem_write hq with rfl | hq
        · show p.1 < a; omega
        · exact hp q hq

/-- Every write below a bound keeps the keys below it. -/
theorem Memory.below_write {m : Memory w} {b a : Nat} (v : BitVec w) (ha : a < b)
    (h : m.below b = true) : (m.write a v).below b = true := by
  simp only [Memory.below, List.all_eq_true, decide_eq_true_eq] at h ⊢
  intro q hq
  rcases Memory.mem_write hq with rfl | hq
  · exact ha
  · exact h q hq

theorem Memory.find_none_of_lt {m : Memory w} {a : Nat} (h : ∀ q ∈ m, a < q.1) : m.find a = none := by
  induction m with
  | nil => rfl
  | cons p rest ih =>
    have := h p (by simp)
    simp only [Memory.find]
    rw [if_neg (by omega)]
    exact ih fun q hq => h q (by simp [hq])

/-- Two memories in canonical form with the same contents are the same data. -/
theorem Memory.ext_of_wf {m m' : Memory w} (h : m.wf = true) (h' : m'.wf = true)
    (e : ∀ a, m.find a = m'.find a) : m = m' := by
  induction m generalizing m' with
  | nil =>
    cases m' with
    | nil => rfl
    | cons q rest => have := e q.1; simp [Memory.find] at this
  | cons p rest ih =>
    cases m' with
    | nil => have := e p.1; simp [Memory.find] at this
    | cons q rest' =>
      obtain ⟨hp, hr⟩ := (Memory.wf_cons _ _).mp h
      obtain ⟨hq, hr'⟩ := (Memory.wf_cons _ _).mp h'
      have hkey : p.1 = q.1 := by
        rcases Nat.lt_trichotomy p.1 q.1 with hlt | heq | hlt
        · have := e p.1
          rw [Memory.find_none_of_lt (m := q :: rest')] at this
          · simp [Memory.find] at this
          · intro r hr
            rcases List.mem_cons.mp hr with rfl | hr
            · exact hlt
            · exact hlt.trans (hq r hr)
        · exact heq
        · have := e q.1
          rw [Memory.find_none_of_lt (m := p :: rest)] at this
          · simp [Memory.find] at this
          · intro r hr
            rcases List.mem_cons.mp hr with rfl | hr
            · exact hlt
            · exact hlt.trans (hp r hr)
      have hval : p.2 = q.2 := by
        have := e p.1
        simpa [Memory.find, hkey] using this
      have hpq : p = q := Prod.ext hkey hval
      subst hpq
      congr 1
      refine ih hr hr' fun a => ?_
      by_cases ha : p.1 = a
      · subst ha
        rw [Memory.find_none_of_lt hp, Memory.find_none_of_lt hq]
      · have := e a; simpa [Memory.find, ha] using this

end Sparse

/-! ## The grid -/

theorem gridKey_inj {u u' p p' i i' : Nat} (hp : p < 3) (hp' : p' < 3) (hi : i < 64) (hi' : i' < 64) :
    gridKey u p i = gridKey u' p' i' ↔ u = u' ∧ p = p' ∧ i = i' := by
  unfold gridKey; omega

@[simp] theorem Grid.put_epoch (g : Grid) (u p i : Nat) (v : Int) : (g.put u p i v).epoch = g.epoch := rfl

theorem Grid.word_put (g : Grid) (u p i : Nat) (v : Int) (u' p' i' : Nat) :
    (g.put u p i v).word u' p' i' =
      if gridKey u' p' i' = gridKey u p i then BitVec.ofInt 32 v else g.word u' p' i' := by
  simp only [Grid.word, Grid.put, Memory.find_write]
  split <;> simp

@[simp] theorem Grid.word_put_same (g : Grid) (u p i : Nat) (v : Int) :
    (g.put u p i v).word u p i = BitVec.ofInt 32 v := by simp [Grid.word_put]

theorem Grid.word_put_other (g : Grid) {u p i u' p' i' : Nat} (v : Int)
    (h : gridKey u' p' i' ≠ gridKey u p i) : (g.put u p i v).word u' p' i' = g.word u' p' i' := by
  simp [Grid.word_put, h]

theorem fits_iff (v : Int) : fits v = true ↔ -2147483648 ≤ v ∧ v ≤ 2147483647 := by simp [fits]

theorem toInt_ofInt_of_fits {v : Int} (h : fits v = true) : (BitVec.ofInt 32 v).toInt = v := by
  rw [fits_iff] at h
  rw [BitVec.toInt_ofInt]
  exact Int.bmod_eq_of_le (by omega) (by omega)

@[simp] theorem Grid.read_put_same (g : Grid) (u p i : Nat) {v : Int} (h : fits v = true) :
    (g.put u p i v).read u p i = v := by simp [Grid.read, toInt_ofInt_of_fits h]

theorem Grid.read_put_other (g : Grid) {u p i u' p' i' : Nat} (v : Int)
    (h : gridKey u' p' i' ≠ gridKey u p i) : (g.put u p i v).read u' p' i' = g.read u' p' i' := by
  simp [Grid.read, Grid.word_put_other g v h]

@[simp] theorem Grid.forget_put (g : Grid) (u p i : Nat) (v : Int) : (g.put u p i v).forget = g.forget := rfl

/-- Nothing is known of a grid that has been invalidated: every element is a free value. -/
@[simp] theorem Grid.word_forget (g : Grid) (u p i : Nat) :
    g.forget.word u p i = Config.freeGrid (g.epoch + 1) (gridKey u p i) := by
  simp [Grid.word, Grid.forget, Memory.find]

theorem fits_grid_read (g : Grid) (u p i : Nat) : fits (g.read u p i) = true := by
  rw [fits_iff, Grid.read]
  have := (g.word u p i).isLt
  have h1 := BitVec.le_toInt (g.word u p i)
  have h2 := BitVec.toInt_lt (x := g.word u p i)
  norm_num at h1 h2
  omega

end Sys2Proof.Machine
end

