-- ==== Sys2Proof/Laws/Stream.lean ====
section
/-! SUPPORT. What the stream, the tables and the configuration read as through the updates a decode makes, and the laws
of the linear cursor position (10_state R24). -/

namespace Sys2Proof.Machine

variable (s : State)

/-! ## Reads through updates -/

/-! ### `setCursor` -/

@[simp] theorem endIdx_setCursor (b : Word) (c : BitVec 3) :
    endIdx (setCursor b c s) = endIdx s := rfl
@[simp] theorem streamEnd_setCursor (b : Word) (c : BitVec 3) :
    streamEnd (setCursor b c s) = streamEnd s := rfl
@[simp] theorem entAt_setCursor (b : Word) (c : BitVec 3) (i : Nat) :
    entAt (setCursor b c s) i = entAt s i := rfl
@[simp] theorem streamBit_setCursor (b : Word) (c : BitVec 3) (n : Nat) :
    streamBit (setCursor b c s) n = streamBit s n := rfl
@[simp] theorem offsByte_setCursor (b : Word) (c : BitVec 3) (k : HuffClass) (t : Fin 4) (j : Nat) :
    offsByte (setCursor b c s) k t j = offsByte s k t j := by cases k <;> rfl
@[simp] theorem offsAt_setCursor (b : Word) (c : BitVec 3) (k : HuffClass) (t : Fin 4) (j : Nat) :
    offsAt (setCursor b c s) k t j = offsAt s k t j := by cases k <;> rfl
@[simp] theorem symAt_setCursor (b : Word) (c : BitVec 3) (k : HuffClass) (t : Fin 4) (j : Nat) :
    symAt (setCursor b c s) k t j = symAt s k t j := by cases k <;> rfl
@[simp] theorem codeAt_setCursor (b : Word) (c : BitVec 3) (k : HuffClass) (t : Fin 4) (j : Nat) :
    codeAt (setCursor b c s) k t j = codeAt s k t j := by cases k <;> rfl
@[simp] theorem dcTableOf_setCursor (b : Word) (c : BitVec 3) (e : Fin 3) :
    dcTableOf (setCursor b c s) e = dcTableOf s e := rfl
@[simp] theorem acTableOf_setCursor (b : Word) (c : BitVec 3) (e : Fin 3) :
    acTableOf (setCursor b c s) e = acTableOf s e := rfl
@[simp] theorem tableReady_setCursor (b : Word) (c : BitVec 3) (k : HuffClass) (t : Fin 4) :
    tableReady (setCursor b c s) k t = tableReady s k t := by cases k <;> rfl
@[simp] theorem components_setCursor (b : Word) (c : BitVec 3) :
    components (setCursor b c s) = components s := rfl
@[simp] theorem ncompOk_setCursor (b : Word) (c : BitVec 3) :
    ncompOk (setCursor b c s) = ncompOk s := rfl
@[simp] theorem predAt_setCursor (b : Word) (c : BitVec 3) (e : Fin 3) :
    predAt (setCursor b c s) e = predAt s e := rfl

/-! ### `setPred` -/

@[simp] theorem endIdx_setPred (c : Fin 3) (v : Int) :
    endIdx (setPred c v s) = endIdx s := rfl
@[simp] theorem streamEnd_setPred (c : Fin 3) (v : Int) :
    streamEnd (setPred c v s) = streamEnd s := rfl
@[simp] theorem entAt_setPred (c : Fin 3) (v : Int) (i : Nat) :
    entAt (setPred c v s) i = entAt s i := rfl
@[simp] theorem streamBit_setPred (c : Fin 3) (v : Int) (n : Nat) :
    streamBit (setPred c v s) n = streamBit s n := rfl
@[simp] theorem offsByte_setPred (c : Fin 3) (v : Int) (k : HuffClass) (t : Fin 4) (j : Nat) :
    offsByte (setPred c v s) k t j = offsByte s k t j := by cases k <;> rfl
@[simp] theorem offsAt_setPred (c : Fin 3) (v : Int) (k : HuffClass) (t : Fin 4) (j : Nat) :
    offsAt (setPred c v s) k t j = offsAt s k t j := by cases k <;> rfl
@[simp] theorem symAt_setPred (c : Fin 3) (v : Int) (k : HuffClass) (t : Fin 4) (j : Nat) :
    symAt (setPred c v s) k t j = symAt s k t j := by cases k <;> rfl
@[simp] theorem codeAt_setPred (c : Fin 3) (v : Int) (k : HuffClass) (t : Fin 4) (j : Nat) :
    codeAt (setPred c v s) k t j = codeAt s k t j := by cases k <;> rfl
@[simp] theorem dcTableOf_setPred (c : Fin 3) (v : Int) (e : Fin 3) :
    dcTableOf (setPred c v s) e = dcTableOf s e := rfl
@[simp] theorem acTableOf_setPred (c : Fin 3) (v : Int) (e : Fin 3) :
    acTableOf (setPred c v s) e = acTableOf s e := rfl
@[simp] theorem tableReady_setPred (c : Fin 3) (v : Int) (k : HuffClass) (t : Fin 4) :
    tableReady (setPred c v s) k t = tableReady s k t := by cases k <;> rfl
@[simp] theorem components_setPred (c : Fin 3) (v : Int) :
    components (setPred c v s) = components s := rfl
@[simp] theorem ncompOk_setPred (c : Fin 3) (v : Int) :
    ncompOk (setPred c v s) = ncompOk s := rfl

/-! ### `clearPred` -/

@[simp] theorem endIdx_clearPred :
    endIdx (clearPred s) = endIdx s := rfl
@[simp] theorem streamEnd_clearPred :
    streamEnd (clearPred s) = streamEnd s := rfl
@[simp] theorem entAt_clearPred (i : Nat) :
    entAt (clearPred s) i = entAt s i := rfl
@[simp] theorem streamBit_clearPred (n : Nat) :
    streamBit (clearPred s) n = streamBit s n := rfl
@[simp] theorem offsByte_clearPred (k : HuffClass) (t : Fin 4) (j : Nat) :
    offsByte (clearPred s) k t j = offsByte s k t j := by cases k <;> rfl
@[simp] theorem offsAt_clearPred (k : HuffClass) (t : Fin 4) (j : Nat) :
    offsAt (clearPred s) k t j = offsAt s k t j := by cases k <;> rfl
@[simp] theorem symAt_clearPred (k : HuffClass) (t : Fin 4) (j : Nat) :
    symAt (clearPred s) k t j = symAt s k t j := by cases k <;> rfl
@[simp] theorem codeAt_clearPred (k : HuffClass) (t : Fin 4) (j : Nat) :
    codeAt (clearPred s) k t j = codeAt s k t j := by cases k <;> rfl
@[simp] theorem dcTableOf_clearPred (e : Fin 3) :
    dcTableOf (clearPred s) e = dcTableOf s e := rfl
@[simp] theorem acTableOf_clearPred (e : Fin 3) :
    acTableOf (clearPred s) e = acTableOf s e := rfl
@[simp] theorem tableReady_clearPred (k : HuffClass) (t : Fin 4) :
    tableReady (clearPred s) k t = tableReady s k t := by cases k <;> rfl
@[simp] theorem components_clearPred :
    components (clearPred s) = components s := rfl
@[simp] theorem ncompOk_clearPred :
    ncompOk (clearPred s) = ncompOk s := rfl

/-! ### `putCoef` -/

@[simp] theorem endIdx_putCoef (c : Fin 3) (m : Nat) (v : Int) :
    endIdx (putCoef c m v s) = endIdx s := rfl
@[simp] theorem streamEnd_putCoef (c : Fin 3) (m : Nat) (v : Int) :
    streamEnd (putCoef c m v s) = streamEnd s := rfl
@[simp] theorem entAt_putCoef (c : Fin 3) (m : Nat) (v : Int) (i : Nat) :
    entAt (putCoef c m v s) i = entAt s i := rfl
@[simp] theorem streamBit_putCoef (c : Fin 3) (m : Nat) (v : Int) (n : Nat) :
    streamBit (putCoef c m v s) n = streamBit s n := rfl
@[simp] theorem offsByte_putCoef (c : Fin 3) (m : Nat) (v : Int) (k : HuffClass) (t : Fin 4) (j : Nat) :
    offsByte (putCoef c m v s) k t j = offsByte s k t j := by cases k <;> rfl
@[simp] theorem offsAt_putCoef (c : Fin 3) (m : Nat) (v : Int) (k : HuffClass) (t : Fin 4) (j : Nat) :
    offsAt (putCoef c m v s) k t j = offsAt s k t j := by cases k <;> rfl
@[simp] theorem symAt_putCoef (c : Fin 3) (m : Nat) (v : Int) (k : HuffClass) (t : Fin 4) (j : Nat) :
    symAt (putCoef c m v s) k t j = symAt s k t j := by cases k <;> rfl
@[simp] theorem codeAt_putCoef (c : Fin 3) (m : Nat) (v : Int) (k : HuffClass) (t : Fin 4) (j : Nat) :
    codeAt (putCoef c m v s) k t j = codeAt s k t j := by cases k <;> rfl
@[simp] theorem dcTableOf_putCoef (c : Fin 3) (m : Nat) (v : Int) (e : Fin 3) :
    dcTableOf (putCoef c m v s) e = dcTableOf s e := rfl
@[simp] theorem acTableOf_putCoef (c : Fin 3) (m : Nat) (v : Int) (e : Fin 3) :
    acTableOf (putCoef c m v s) e = acTableOf s e := rfl
@[simp] theorem tableReady_putCoef (c : Fin 3) (m : Nat) (v : Int) (k : HuffClass) (t : Fin 4) :
    tableReady (putCoef c m v s) k t = tableReady s k t := by cases k <;> rfl
@[simp] theorem components_putCoef (c : Fin 3) (m : Nat) (v : Int) :
    components (putCoef c m v s) = components s := rfl
@[simp] theorem ncompOk_putCoef (c : Fin 3) (m : Nat) (v : Int) :
    ncompOk (putCoef c m v s) = ncompOk s := rfl
@[simp] theorem predAt_putCoef (c : Fin 3) (m : Nat) (v : Int) (e : Fin 3) :
    predAt (putCoef c m v s) e = predAt s e := rfl

/-! ### `atPos` -/

@[simp] theorem endIdx_atPos (q : Nat) :
    endIdx (atPos q s) = endIdx s := rfl
@[simp] theorem streamEnd_atPos (q : Nat) :
    streamEnd (atPos q s) = streamEnd s := rfl
@[simp] theorem entAt_atPos (q : Nat) (i : Nat) :
    entAt (atPos q s) i = entAt s i := rfl
@[simp] theorem streamBit_atPos (q : Nat) (n : Nat) :
    streamBit (atPos q s) n = streamBit s n := rfl
@[simp] theorem offsByte_atPos (q : Nat) (k : HuffClass) (t : Fin 4) (j : Nat) :
    offsByte (atPos q s) k t j = offsByte s k t j := by cases k <;> rfl
@[simp] theorem offsAt_atPos (q : Nat) (k : HuffClass) (t : Fin 4) (j : Nat) :
    offsAt (atPos q s) k t j = offsAt s k t j := by cases k <;> rfl
@[simp] theorem symAt_atPos (q : Nat) (k : HuffClass) (t : Fin 4) (j : Nat) :
    symAt (atPos q s) k t j = symAt s k t j := by cases k <;> rfl
@[simp] theorem codeAt_atPos (q : Nat) (k : HuffClass) (t : Fin 4) (j : Nat) :
    codeAt (atPos q s) k t j = codeAt s k t j := by cases k <;> rfl
@[simp] theorem dcTableOf_atPos (q : Nat) (e : Fin 3) :
    dcTableOf (atPos q s) e = dcTableOf s e := rfl
@[simp] theorem acTableOf_atPos (q : Nat) (e : Fin 3) :
    acTableOf (atPos q s) e = acTableOf s e := rfl
@[simp] theorem tableReady_atPos (q : Nat) (k : HuffClass) (t : Fin 4) :
    tableReady (atPos q s) k t = tableReady s k t := by cases k <;> rfl
@[simp] theorem components_atPos (q : Nat) :
    components (atPos q s) = components s := rfl
@[simp] theorem ncompOk_atPos (q : Nat) :
    ncompOk (atPos q s) = ncompOk s := rfl
@[simp] theorem predAt_atPos (q : Nat) (e : Fin 3) :
    predAt (atPos q s) e = predAt s e := rfl

@[simp] theorem streamField_atPos (q p n : Nat) : streamField (atPos q s) p n = streamField s p n := by
  induction n with
  | zero => rfl
  | succ n ih => simp [streamField, ih]

@[simp] theorem predAt_setPred_same (c : Fin 3) {v : Int} (h : fits v = true) :
    predAt (setPred c v s) c = v := by simp [predAt, toInt_ofInt_of_fits h]

/-! ## The linear position -/

@[simp] theorem atPos_byteIdx (p : Nat) : (atPos p s).byteIdx = BitVec.ofNat 32 (p / 8) := rfl
@[simp] theorem atPos_bitIdx (p : Nat) : (atPos p s).bitIdx = BitVec.ofNat 3 (p % 8) := rfl
@[simp] theorem atPos_atPos (p q : Nat) : atPos p (atPos q s) = atPos p s := rfl
@[simp] theorem atPos_valid (p : Nat) : (atPos p s).valid = s.valid := rfl
@[simp] theorem atPos_grid (p : Nat) : (atPos p s).grid = s.grid := rfl
@[simp] theorem atPos_pred (p : Nat) : (atPos p s).pred = s.pred := rfl
@[simp] theorem atPos_blkIdx (p : Nat) : (atPos p s).blkIdx = s.blkIdx := rfl
@[simp] theorem atPos_sym (p : Nat) : (atPos p s).sym = s.sym := rfl
@[simp] theorem atPos_ht (p : Nat) (k : HuffClass) (t : Fin 4) : (atPos p s).ht k t = s.ht k t := by
  cases k <;> rfl

theorem cursorPos_lt : cursorPos s < 34359738368 := by
  have h1 := s.byteIdx.isLt
  have h2 := s.bitIdx.isLt
  unfold cursorPos; omega

theorem streamEnd_le : streamEnd s ≤ 34359738360 := by
  have h1 := s.entLen.isLt
  unfold streamEnd endIdx; omega

@[simp] theorem cursorPos_atPos {p : Nat} (h : p < 34359738368) : cursorPos (atPos p s) = p := by
  simp only [cursorPos, atPos_byteIdx, atPos_bitIdx, BitVec.toNat_ofNat]
  rw [Nat.mod_eq_of_lt (by omega), Nat.mod_eq_of_lt (a := p % 8) (by omega)]
  omega

@[simp] theorem atPos_cursorPos : atPos (cursorPos s) s = s := by
  have h2 := s.bitIdx.isLt
  have hd : cursorPos s / 8 = s.byteIdx.toNat := by unfold cursorPos; omega
  have hm : cursorPos s % 8 = s.bitIdx.toNat := by unfold cursorPos; omega
  simp [atPos, hd, hm, setCursor]

theorem atPos_eq_self {p : Nat} (h : p = cursorPos s) : atPos p s = s := by subst h; simp

theorem byteIdx_lt_endIdx_iff : s.byteIdx.toNat < endIdx s ↔ cursorPos s < streamEnd s := by
  have h2 := s.bitIdx.isLt
  unfold cursorPos streamEnd; omega

theorem atPos_setPred (p : Nat) (c : Fin 3) (v : Int) : setPred c v (atPos p s) = atPos p (setPred c v s) := rfl
theorem atPos_putCoef (p : Nat) (c : Fin 3) (m : Nat) (v : Int) :
    putCoef c m v (atPos p s) = atPos p (putCoef c m v s) := rfl
theorem cursorPos_setPred (c : Fin 3) (v : Int) : cursorPos (setPred c v s) = cursorPos s := rfl
theorem cursorPos_putCoef (c : Fin 3) (m : Nat) (v : Int) : cursorPos (putCoef c m v s) = cursorPos s := rfl

end Sys2Proof.Machine
end

