-- ==== Sys2Proof/Laws/BitReader.lean ====
section
/-! SUPPORT. One law for each procedure of the Bit Reader, in terms of the linear position and the stream: whoever
uses `readBit`, `readBits` or `align` cites these and unfolds nothing. -/

namespace Sys2Proof.Machine

theorem streamBit_le (s : State) (n : Nat) : streamBit s n ≤ 1 := by
  unfold streamBit; exact Bool.toNat_le _

theorem streamField_lt (s : State) (p n : Nat) : streamField s p n < 2 ^ n := by
  induction n with
  | zero => simp [streamField]
  | succ n ih =>
    have := streamBit_le s (p + n)
    simp only [streamField, pow_succ]; omega

/-- The first `m` bits of a longer field. -/
theorem streamField_add (s : State) (p m n : Nat) :
    streamField s p (m + n) = streamField s p m * 2 ^ n + streamField s (p + m) n := by
  induction n with
  | zero => simp [streamField]
  | succ n ih =>
    show 2 * streamField s p (m + n) + streamBit s (p + (m + n)) = _
    rw [ih]
    show _ = _ + (2 * streamField s (p + m) n + streamBit s (p + m + n))
    rw [pow_succ, Nat.add_assoc p m n]; ring

theorem cursorBit_eq (s : State) : cursorBit s = streamBit s (cursorPos s) := by
  have h2 := s.bitIdx.isLt
  have hd : cursorPos s / 8 = s.byteIdx.toNat := by unfold cursorPos; omega
  have hm : cursorPos s % 8 = s.bitIdx.toNat := by unfold cursorPos; omega
  simp [cursorBit, streamBit, hd, hm]

theorem advance_eq (s : State) (h : s.byteIdx.toNat < endIdx s) : advance s = atPos (cursorPos s + 1) s := by
  have h2 := s.bitIdx.isLt
  have hb : s.byteIdx.toNat < 4294967295 := by
    have := s.entLen.isLt; unfold endIdx at h; omega
  unfold advance
  split
  · next e =>
    have hk : s.bitIdx.toNat = 7 := by simp [e]
    have hd : (cursorPos s + 1) / 8 = s.byteIdx.toNat + 1 := by unfold cursorPos; omega
    have hm : (cursorPos s + 1) % 8 = 0 := by unfold cursorPos; omega
    simp only [atPos, hd, hm]
    congr 1
  · next e =>
    have hk : s.bitIdx.toNat ≠ 7 := fun h => e (BitVec.eq_of_toNat_eq (by simpa using h))
    have hd : (cursorPos s + 1) / 8 = s.byteIdx.toNat := by unfold cursorPos; omega
    have hm : (cursorPos s + 1) % 8 = s.bitIdx.toNat + 1 := by unfold cursorPos; omega
    simp only [atPos, hd, hm]
    congr 1
    simp

/-- `ReadBit()` in terms of the stream. -/
theorem readBit_eq (s : State) :
    readBit s = if cursorPos s < streamEnd s then
      (some (streamBit s (cursorPos s)), atPos (cursorPos s + 1) s) else (none, s) := by
  unfold readBit
  have := byteIdx_lt_endIdx_iff s
  split
  · rw [if_neg (by omega)]
  · next h => rw [if_pos (by omega), cursorBit_eq, advance_eq s (by omega)]

theorem readBit_some {s : State} (h : cursorPos s < streamEnd s) :
    readBit s = (some (streamBit s (cursorPos s)), atPos (cursorPos s + 1) s) := by
  rw [readBit_eq, if_pos h]

theorem readBit_none {s : State} (h : streamEnd s ≤ cursorPos s) : readBit s = (none, s) := by
  rw [readBit_eq, if_neg (by omega)]

theorem readBitsFrom_some {n v : Nat} {s : State} (h : n = 0 ∨ cursorPos s + n ≤ streamEnd s) :
    readBitsFrom n v s =
      (some (v * 2 ^ n + streamField s (cursorPos s) n), atPos (cursorPos s + n) s) := by
  induction n generalizing v s with
  | zero => simp [readBitsFrom, streamField]
  | succ n ih =>
    have hle := streamEnd_le s
    have hlt : cursorPos s + (n + 1) ≤ streamEnd s := by omega
    rw [readBitsFrom, readBit_some (by omega)]
    have hp : cursorPos (atPos (cursorPos s + 1) s) = cursorPos s + 1 := by
      apply cursorPos_atPos; omega
    simp only []
    rw [ih (by simp only [hp, streamEnd_atPos]; omega), hp]
    have hs := streamField_add s (cursorPos s) 1 n
    have h1 : streamField s (cursorPos s) 1 = streamBit s (cursorPos s) := by simp [streamField]
    rw [h1, Nat.add_comm 1 n] at hs
    simp only [streamField_atPos, atPos_atPos, hs, pow_succ]
    congr 2 <;> ring_nf

theorem readBitsFrom_none {n v : Nat} {s : State} (h0 : n ≠ 0) (h : streamEnd s < cursorPos s + n) :
    readBitsFrom n v s = (none, atEnd s) := by
  induction n generalizing v s with
  | zero => exact absurd rfl h0
  | succ n ih =>
    have hle := streamEnd_le s
    rw [readBitsFrom]
    by_cases hc : cursorPos s < streamEnd s
    · have hp : cursorPos (atPos (cursorPos s + 1) s) = cursorPos s + 1 := by
        apply cursorPos_atPos; omega
      rw [readBit_some hc]
      simp only []
      rw [ih (by omega) (by simp only [hp, streamEnd_atPos]; omega)]
      simp only [atEnd, hp, streamEnd_atPos, atPos_atPos]
      congr 2; omega
    · rw [readBit_none (by omega), atEnd, Nat.max_eq_left (by omega), atPos_cursorPos]

/-- `ReadBits(n)` in terms of the stream: the field and the cursor behind it, or FAIL and the cursor at the end. -/
theorem readBits_eq (n : Nat) (s : State) :
    readBits n s = if n = 0 ∨ cursorPos s + n ≤ streamEnd s then
      (some (streamField s (cursorPos s) n), atPos (cursorPos s + n) s) else (none, atEnd s) := by
  unfold readBits
  split
  · next h => rw [readBitsFrom_some h]; simp
  · next h => rw [readBitsFrom_none (by omega) (by omega)]

/-- `Align()` in terms of the position. -/
theorem align_eq (s : State) :
    align s = if s.byteIdx.toNat < endIdx s ∧ s.bitIdx ≠ 0#3 then
      setCursor (s.byteIdx + 1) 0 s else s := by
  unfold align
  split
  · rw [if_neg (by omega)]
  · split <;> simp_all

/-- `Align()` never moves the cursor back and by at most seven bits (40_bit_reader R133, 20_memory R76). -/
theorem cursorPos_align (s : State) :
    cursorPos s ≤ cursorPos (align s) ∧ cursorPos (align s) < cursorPos s + 8 := by
  rw [align_eq]
  split
  · next h =>
    have hb : s.byteIdx.toNat < 4294967295 := by
      have h1 := s.entLen.isLt; have h2 := h.1; unfold endIdx at h2; omega
    have h2 := s.bitIdx.isLt
    have h3 : s.bitIdx.toNat ≠ 0 := fun e => h.2 (BitVec.eq_of_toNat_eq (by simpa using e))
    have h4 : (s.byteIdx + 1).toNat = s.byteIdx.toNat + 1 := by
      rw [BitVec.toNat_add]; simp; omega
    simp only [cursorPos, setCursor_byteIdx, setCursor_bitIdx, h4]
    simp; omega
  · simp

theorem cursorPos_align_le (s : State) : cursorPos (align s) ≤ max (cursorPos s) (streamEnd s) := by
  rw [align_eq]
  split
  · next h =>
    have h2 : (s.byteIdx + 1).toNat ≤ s.byteIdx.toNat + 1 := by
      rw [BitVec.toNat_add]; exact Nat.mod_le _ _
    simp only [cursorPos, setCursor_byteIdx, setCursor_bitIdx, streamEnd]
    have h1 := h.1
    show 8 * (s.byteIdx + 1).toNat + 0 ≤ _
    omega
  · exact le_max_left _ _

/-- `Align()` is idempotent (40_bit_reader R133). -/
theorem align_align (s : State) : align (align s) = align s := by
  rw [align_eq s]
  split
  · rw [align_eq]; simp
  · next h => rw [align_eq, if_neg h]

/-! ## What the Bit Reader leaves unchanged -/

theorem readBit_snd (s : State) : ∃ p, (readBit s).2 = atPos p s := by
  rw [readBit_eq]; split
  · exact ⟨_, rfl⟩
  · exact ⟨cursorPos s, by simp⟩

theorem readBits_snd (n : Nat) (s : State) : ∃ p, (readBits n s).2 = atPos p s := by
  rw [readBits_eq]; split
  · exact ⟨_, rfl⟩
  · exact ⟨_, rfl⟩

theorem align_atPos (s : State) : ∃ p, align s = atPos p s := by
  rw [align_eq]; split
  · next h =>
    have hb : s.byteIdx.toNat < 4294967295 := by
      have h1 := s.entLen.isLt; have h2 := h.1; unfold endIdx at h2; omega
    refine ⟨8 * (s.byteIdx.toNat + 1), ?_⟩
    have h1 : 8 * (s.byteIdx.toNat + 1) / 8 = s.byteIdx.toNat + 1 := by omega
    have h2 : 8 * (s.byteIdx.toNat + 1) % 8 = 0 := by omega
    rw [atPos, h1, h2]
    congr 1
  · exact ⟨cursorPos s, by simp⟩

end Sys2Proof.Machine
end

