-- ==== Sys2Proof/Laws/Huffman.lean ====
section
/-! SUPPORT. The laws of the Huffman Engine's two procedures: `decodeSymbol` finds the first match at the cursor or
there is none (41_huffman_engine R153), and HTBUILD stores the codes the running value gives (R150). -/

namespace Sys2Proof.Machine

variable {s : State} {k : HuffClass} {t : Fin 4}

/-! ## Reads through a move of the cursor -/

@[simp] theorem hasLength_atPos (q l j : Nat) : HasLength (atPos q s) k t l j ↔ HasLength s k t l j := by
  simp [HasLength]

@[simp] theorem codeIs_atPos (q p l j : Nat) : CodeIs (atPos q s) k t p l j ↔ CodeIs s k t p l j := by
  simp [CodeIs]

@[simp] theorem firstMatch_atPos (q p l j : Nat) : FirstMatch (atPos q s) k t p l j ↔ FirstMatch s k t p l j := by
  simp [FirstMatch]

@[simp] theorem noCode_atPos (q p : Nat) : NoCode (atPos q s) k t p ↔ NoCode s k t p := by simp [NoCode]

/-! ## The search -/

theorem findCode_some {acc n j i : Nat} (h : findCode s k t acc n j = some i) :
    j ≤ i ∧ i < j + n ∧ (codeAt s k t i).toNat = acc ∧
      ∀ i', j ≤ i' → i' < i → (codeAt s k t i').toNat ≠ acc := by
  induction n generalizing j with
  | zero => simp [findCode] at h
  | succ n ih =>
    rw [findCode] at h
    split at h
    · next hc => injection h with h; subst h; exact ⟨le_refl _, by omega, hc, fun i' h1 h2 => by omega⟩
    · next hc =>
      obtain ⟨h1, h2, h3, h4⟩ := ih h
      refine ⟨by omega, by omega, h3, fun i' h5 h6 => ?_⟩
      by_cases e : i' = j
      · subst e; exact hc
      · exact h4 i' (by omega) h6

theorem findCode_none {acc n j : Nat} (h : findCode s k t acc n j = none) :
    ∀ i, j ≤ i → i < j + n → (codeAt s k t i).toNat ≠ acc := by
  induction n generalizing j with
  | zero => intro i h1 h2; omega
  | succ n ih =>
    rw [findCode] at h
    split at h
    · simp at h
    · next hc =>
      intro i h1 h2
      by_cases e : i = j
      · subst e; exact hc
      · exact ih h i (by omega) (by omega)

theorem matchAt_some {p l j : Nat} (hl : 1 ≤ l) (hl' : l ≤ 16)
    (h : matchAt s k t l (streamField s p l) = some j) :
    CodeIs s k t p l j ∧ ∀ j', CodeIs s k t p l j' → j ≤ j' := by
  obtain ⟨h1, h2, h3, h4⟩ := findCode_some h
  refine ⟨⟨⟨hl, hl', h1, by omega⟩, h3⟩, fun j' hj' => ?_⟩
  by_contra hlt
  exact h4 j' hj'.1.2.2.1 (by omega) hj'.2

theorem matchAt_none {p l : Nat} (h : matchAt s k t l (streamField s p l) = none) (j : Nat) :
    ¬ CodeIs s k t p l j := by
  rintro ⟨⟨_, _, h3, h4⟩, h5⟩
  exact findCode_none h j h3 (by omega) h5

@[simp] theorem findCode_atPos (q acc n j : Nat) : findCode (atPos q s) k t acc n j = findCode s k t acc n j := by
  induction n generalizing j with
  | zero => rfl
  | succ n ih => simp [findCode, ih]

@[simp] theorem matchAt_atPos (q l acc : Nat) : matchAt (atPos q s) k t l acc = matchAt s k t l acc := by
  simp [matchAt]

/-! ## Symbol decode -/

theorem FirstMatch.unique {p l j l' j' : Nat} (h : FirstMatch s k t p l j) (h' : FirstMatch s k t p l' j') :
    l = l' ∧ j = j' := by
  have h1 := h.2.2 l' j' h'.1
  have h2 := h'.2.2 l j h.1
  omega

theorem FirstMatch.not_noCode {p l j : Nat} (h : FirstMatch s k t p l j) : ¬ NoCode s k t p :=
  fun hn => hn l j h.2.1 h.1

theorem FirstMatch.lt {p l j : Nat} (h : FirstMatch s k t p l j) : p + l < 34359738368 ∧ 1 ≤ l ∧
    p + l ≤ streamEnd s := by
  have := streamEnd_le s; have := h.2.1; have := h.1.1.1; omega

/-- The loop of `DecodeSymbol` from length `l` on, in a state that stands `l - 1` bits behind `p` and has found no
code of fewer bits. -/
theorem decodeSymbolFrom_cases {n l p : Nat} (hn : n + l = 17) (hl : 1 ≤ l) (hp : l = 1 ∨ p + (l - 1) ≤ streamEnd s)
    (hp' : p + (l - 1) < 34359738368) (hno : ∀ l' j', CodeIs s k t p l' j' → l ≤ l') :
    (∃ l' j, FirstMatch s k t p l' j ∧
      decodeSymbolFrom k t n l (streamField s p (l - 1)) (atPos (p + (l - 1)) s) =
        .done (symAt s k t j) (atPos (p + l') s)) ∨
    (NoCode s k t p ∧
      decodeSymbolFrom k t n l (streamField s p (l - 1)) (atPos (p + (l - 1)) s) = .raised (lostCode p s)) := by
  induction n generalizing l with
  | zero =>
    right
    have hl17 : l = 17 := by omega
    subst hl17
    refine ⟨fun l' j' _ hc => ?_, ?_⟩
    · have := hno l' j' hc; have := hc.1.2.1; omega
    · rw [decodeSymbolFrom, lostCode, if_pos (by omega)]
  | succ n ih =>
    have hle := streamEnd_le s
    have hcur : cursorPos (atPos (p + (l - 1)) s) = p + (l - 1) := cursorPos_atPos s hp'
    rw [decodeSymbolFrom]
    by_cases hlt : p + (l - 1) < streamEnd s
    · rw [readBit_some (by rw [hcur]; simpa using hlt), hcur]
      have hacc : 2 * streamField s p (l - 1) + streamBit s (p + (l - 1)) = streamField s p l := by
        conv_rhs => rw [show l = (l - 1) + 1 by omega]
        rfl
      have hpl : p + (l - 1) + 1 = p + l := by omega
      simp only [streamBit_atPos, atPos_atPos, hacc, hpl, matchAt_atPos, symAt_atPos]
      cases hm : matchAt s k t l (streamField s p l) with
      | some j =>
        left
        obtain ⟨h1, h2⟩ := matchAt_some hl (by omega) hm
        refine ⟨l, j, ⟨h1, by omega, fun l' j' hc => ?_⟩, rfl⟩
        rcases Nat.lt_or_eq_of_le (hno l' j' hc) with h | h
        · exact .inl h
        · subst h; exact .inr ⟨rfl, h2 j' hc⟩
      | none =>
        have := ih (l := l + 1) (by omega) (by omega) (by simp; omega) (by simp; omega) (fun l' j' hc => by
          rcases Nat.lt_or_eq_of_le (hno l' j' hc) with h | h
          · omega
          · subst h; exact absurd hc (matchAt_none hm j'))
        simpa using this
    · right
      rw [readBit_none (by rw [hcur]; simpa using hlt)]
      refine ⟨fun l' j' h1 hc => ?_, ?_⟩
      · have h2 := hno l' j' hc
        have h3 := hc.1.1
        omega
      · rw [lostCode, if_neg (by omega)]
        have hmax : p + (l - 1) = max p (streamEnd s) := by omega
        have hpp : cursorPos (atPos p s) = p := cursorPos_atPos s (by omega)
        simp [atEnd, hpp, hmax]

/-- `DecodeSymbol(k, t)` decodes the first match at the cursor, or there is no code there (41_huffman_engine R153). -/
theorem decodeSymbol_cases (s : State) (k : HuffClass) (t : Fin 4) :
    (∃ l j, FirstMatch s k t (cursorPos s) l j ∧
      decodeSymbol k t s = .done (symAt s k t j) (atPos (cursorPos s + l) s)) ∨
    (NoCode s k t (cursorPos s) ∧ decodeSymbol k t s = .raised (lostCode (cursorPos s) s)) := by
  have h := decodeSymbolFrom_cases (s := s) (k := k) (t := t) (n := 16) (l := 1) (p := cursorPos s) rfl le_rfl
    (.inl rfl) (by have := cursorPos_lt s; omega) (fun l' j' hc => hc.1.1)
  simpa [decodeSymbol, streamField] using h

theorem decodeSymbol_of_firstMatch {l j : Nat} (h : FirstMatch s k t (cursorPos s) l j) :
    decodeSymbol k t s = .done (symAt s k t j) (atPos (cursorPos s + l) s) := by
  rcases decodeSymbol_cases s k t with ⟨l', j', h', e⟩ | ⟨hn, _⟩
  · obtain ⟨rfl, rfl⟩ := h.unique h'; exact e
  · exact absurd hn h.not_noCode

theorem decodeSymbol_of_noCode (h : NoCode s k t (cursorPos s)) :
    decodeSymbol k t s = .raised (lostCode (cursorPos s) s) := by
  rcases decodeSymbol_cases s k t with ⟨l', j', h', _⟩ | ⟨_, e⟩
  · exact absurd h h'.not_noCode
  · exact e

/-! ## HTBUILD -/

theorem find_assignCodes (n j code : Nat) (m : Memory 32) (a : Nat) :
    (assignCodes n j code m).find a =
      if j ≤ a ∧ a < j + n then some (BitVec.ofNat 32 (code + (a - j))) else m.find a := by
  induction n generalizing j code m with
  | zero => rw [assignCodes, if_neg (by omega)]
  | succ n ih =>
    rw [assignCodes, ih, Memory.find_write]
    by_cases h : a = j
    · subst h; rw [if_neg (by omega), if_pos rfl, if_pos (by omega)]; simp
    · by_cases h' : j + 1 ≤ a ∧ a < j + 1 + n
      · rw [if_pos h', if_pos (by omega)]; congr 2; omega
      · rw [if_neg h', if_neg h, if_neg (by omega)]

theorem wf_assignCodes (n j code : Nat) {m : Memory 32} (h : m.wf = true) : (assignCodes n j code m).wf = true := by
  induction n generalizing j code m with
  | zero => exact h
  | succ n ih => exact ih _ _ (Memory.wf_write _ _ h)

theorem below_assignCodes (n j code : Nat) {b : Nat} {m : Memory 32} (hb : j + n ≤ b) (h : m.below b = true) :
    (assignCodes n j code m).below b = true := by
  induction n generalizing j code m with
  | zero => exact h
  | succ n ih => exact ih _ _ (by omega) (Memory.below_write _ (by omega) h)

theorem wf_assignLengths (offs : Nat → Nat) (n l code : Nat) {m : Memory 32} (h : m.wf = true) :
    (assignLengths offs n l code m).wf = true := by
  induction n generalizing l code m with
  | zero => exact h
  | succ n ih => exact ih _ _ (wf_assignCodes _ _ _ h)

theorem below_assignLengths {offs : Nat → Nat} {b : Nat} {n l code : Nat} {m : Memory 32} (hl : 1 ≤ l)
    (hm : ∀ l', l ≤ l' → l' < l + n → offs (l' - 1) ≤ offs l') (hb : ∀ l', l' < l + n → offs l' ≤ b)
    (h : m.below b = true) : (assignLengths offs n l code m).below b = true := by
  induction n generalizing l code m with
  | zero => exact h
  | succ n ih =>
    refine ih (by omega) (fun l' h1 h2 => hm l' (by omega) (by omega)) (fun l' h1 => hb l' (by omega))
      (below_assignCodes _ _ _ ?_ h)
    have := hm l le_rfl (by omega); have := hb l (by omega); omega

/-- Offsets that rise between two lengths rise over the whole span. -/
theorem offs_mono {offs : Nat → Nat} {b : Nat} (hm : ∀ l, 1 ≤ l → l ≤ b → offs (l - 1) ≤ offs l) {x y : Nat}
    (hxy : x ≤ y) (hy : y ≤ b) : offs x ≤ offs y := by
  induction y with
  | zero => rw [Nat.le_zero.mp hxy]
  | succ y ih =>
    rcases Nat.lt_or_eq_of_le hxy with h | h
    · exact (ih (by omega) (by omega)).trans (hm (y + 1) (by omega) hy)
    · rw [h]

/-- Where the codes of the lengths from `l` on are assigned, the entry of length `l'` gets the running value of that
length. -/
theorem find_assignLengths {offs : Nat → Nat} {n l : Nat} (hl : 1 ≤ l)
    (hm : ∀ l', 1 ≤ l' → l' < l + n → offs (l' - 1) ≤ offs l') (m : Memory 32) (a : Nat) :
    (∀ l', l ≤ l' → l' < l + n → offs (l' - 1) ≤ a → a < offs l' →
      (assignLengths offs n l (firstCode offs (l - 1)) m).find a =
        some (BitVec.ofNat 32 (firstCode offs (l' - 1) + (a - offs (l' - 1))))) ∧
    ((a < offs (l - 1) ∨ offs (l + n - 1) ≤ a) →
      (assignLengths offs n l (firstCode offs (l - 1)) m).find a = m.find a) := by
  induction n generalizing l m with
  | zero => exact ⟨fun l' h1 h2 => by omega, fun _ => rfl⟩
  | succ n ih =>
    have hnext : 2 * (firstCode offs (l - 1) + (offs l - offs (l - 1))) = firstCode offs l := by
      conv_rhs => rw [show l = (l - 1) + 1 by omega]
      simp [firstCode, codeCount, show l - 1 + 1 = l by omega]
    have ih' := ih (l := l + 1) (by omega) (fun l' h1 h2 => hm l' h1 (by omega))
      (assignCodes (offs l - offs (l - 1)) (offs (l - 1)) (firstCode offs (l - 1)) m)
    simp only [Nat.add_sub_cancel] at ih'
    rw [assignLengths, hnext]
    have hml := hm l hl (by omega)
    constructor
    · intro l' h1 h2 h3 h4
      rcases Nat.lt_or_eq_of_le h1 with h | h
      · exact ih'.1 l' (by omega) (by omega) h3 h4
      · subst h
        rw [ih'.2 (.inl h4), find_assignCodes, if_pos (by omega)]
    · intro h
      have hup : offs l ≤ offs (l + n) :=
        offs_mono (b := l + n) (fun l' h1 h2 => hm l' h1 (by omega)) (by omega) le_rfl
      have e : l + (n + 1) - 1 = l + n := by omega
      rw [e] at h
      have e' : l + 1 + n - 1 = l + n := by omega
      rw [ih'.2 (by rw [e']; omega), find_assignCodes, if_neg (by omega)]

theorem offsRising_iff (offs : Nat → Nat) (n : Nat) :
    offsRising offs n = true ↔ ∀ l, 1 ≤ l → l ≤ n → offs (l - 1) ≤ offs l := by
  induction n with
  | zero => simp only [offsRising, true_iff]; intro l h1 h2; omega
  | succ n ih =>
    simp only [offsRising, Bool.and_eq_true, ih, decide_eq_true_eq]
    constructor
    · rintro ⟨h1, h2⟩ l hl hl'
      rcases Nat.lt_or_eq_of_le hl' with h | h
      · exact h1 l hl (by omega)
      · subst h; simpa using h2
    · intro h; exact ⟨fun l h1 h2 => h l h1 (by omega), by simpa using h (n + 1) (by omega) le_rfl⟩

theorem tableWellFormed_iff (s : State) (k : HuffClass) (t : Fin 4) :
    tableWellFormed s k t = true ↔ (s.ht k t).set = true ∧ OffsetsLegal s k t := by
  simp [tableWellFormed, OffsetsLegal, offsRising_iff, and_assoc]

/-- The running code value stays below 2^24 (41_huffman_engine R150): before the codes of `l + 1` bits it is at most
`2^l` times the number of symbols so far. -/
theorem firstCode_le {offs : Nat → Nat} {b l : Nat} (hm : ∀ l, 1 ≤ l → l ≤ b → offs (l - 1) ≤ offs l) (hl : l ≤ b) :
    firstCode offs l ≤ offs l * 2 ^ l := by
  induction l with
  | zero => simp [firstCode]
  | succ l ih =>
    have h1 := ih (by omega)
    have h2 := hm (l + 1) (by omega) hl
    simp only [Nat.add_sub_cancel] at h2
    have h3 : firstCode offs l + codeCount offs (l + 1) ≤ offs (l + 1) * 2 ^ l := by
      simp only [codeCount, Nat.add_sub_cancel]
      have : 1 ≤ 2 ^ l := Nat.one_le_two_pow
      calc firstCode offs l + (offs (l + 1) - offs l)
          ≤ offs l * 2 ^ l + (offs (l + 1) - offs l) * 2 ^ l := by
            gcongr; exact Nat.le_mul_of_pos_right _ this
        _ = (offs l + (offs (l + 1) - offs l)) * 2 ^ l := by ring
        _ = offs (l + 1) * 2 ^ l := by congr 1; omega
    simp only [firstCode, pow_succ]; nlinarith

end Sys2Proof.Machine
end

