-- ==== Sys2Proof/Laws/Tables.lean ====
section
/-! SUPPORT. What HTBUILD leaves: the codes of its own table and nothing else (41_huffman_engine R150, R46). -/

namespace Sys2Proof.Machine

variable (s : State) (k : HuffClass) (t : Fin 4)

/-! ## Reads through a replaced table -/

theorem setHt_ht_iff (h : HuffTable) (k' : HuffClass) (t' : Fin 4) :
    (setHt k t h s).ht k' t' = if k' = k ∧ t' = t then h else s.ht k' t' := by
  split
  · next e => obtain ⟨rfl, rfl⟩ := e; simp
  · next e => exact setHt_ht_other s k t h k' t' e

@[simp] theorem endIdx_setHt (h : HuffTable) : endIdx (setHt k t h s) = endIdx s := by cases k <;> rfl
@[simp] theorem streamEnd_setHt (h : HuffTable) : streamEnd (setHt k t h s) = streamEnd s := by cases k <;> rfl
@[simp] theorem entAt_setHt (h : HuffTable) (i : Nat) : entAt (setHt k t h s) i = entAt s i := by cases k <;> rfl
@[simp] theorem cursorPos_setHt (h : HuffTable) : cursorPos (setHt k t h s) = cursorPos s := by cases k <;> rfl

/-- The offsets of every table depend on the `offs` part of its store only. -/
theorem offsAt_congr {s s' : State} {k k' : HuffClass} {t : Fin 4} (hk : k' = k)
    (h : (s'.ht k' t).offs = (s.ht k t).offs) (e : s'.memEpoch = s.memEpoch) : offsAt s' k' t = offsAt s k t := by
  subst hk; funext j; simp [offsAt, offsByte, h, e]

theorem symAt_congr {s s' : State} {k : HuffClass} {t : Fin 4}
    (h : (s'.ht k t).sym = (s.ht k t).sym) (e : s'.memEpoch = s.memEpoch) : symAt s' k t = symAt s k t := by
  funext j; simp [symAt, h, e]

theorem codeAt_congr {s s' : State} {k : HuffClass} {t : Fin 4}
    (h : (s'.ht k t).code = (s.ht k t).code) (e : s'.memEpoch = s.memEpoch) : codeAt s' k t = codeAt s k t := by
  funext j; simp [codeAt, h, e]

/-- The offsets of a table decide what HTBUILD accepts. -/
theorem offsetsLegal_congr {s s' : State} {k : HuffClass} {t : Fin 4} (h : offsAt s' k t = offsAt s k t) :
    OffsetsLegal s' k t ↔ OffsetsLegal s k t := by simp [OffsetsLegal, h]

theorem codesBuilt_congr {s s' : State} {k : HuffClass} {t : Fin 4} (h : offsAt s' k t = offsAt s k t)
    (h' : codeAt s' k t = codeAt s k t) : CodesBuilt s' k t ↔ CodesBuilt s k t := by
  simp [CodesBuilt, HasLength, h, h']

/-! ## HTBUILD -/

/-- The table HTBUILD leaves. -/
def builtTable : HuffTable :=
  { s.ht k t with code := assignLengths (offsAt s k t) 16 1 0 (s.ht k t).code, built := true }

theorem setBuilt_eq (b : Bool) : setBuilt k t b s = setHt k t { s.ht k t with built := b } s := rfl

theorem offsAt_setBuilt (b : Bool) (k' : HuffClass) (t' : Fin 4) :
    offsAt (setBuilt k t b s) k' t' = offsAt s k' t' := by
  refine offsAt_congr rfl ?_ (by simp [setBuilt_eq])
  rw [setBuilt_eq, setHt_ht_iff]; split
  · next e => obtain ⟨rfl, rfl⟩ := e; rfl
  · rfl

theorem htbuild_done (h : tableWellFormed s k t = true) :
    htbuildBody k t s = .done () (setHt k t (builtTable s k t) s) := by
  have e := offsAt_setBuilt s k t false k t
  simp [htbuildBody, require, h, storeCodes, e]
  simp [setBuilt_eq, builtTable]

theorem htbuild_raised (h : tableWellFormed s k t = false) :
    htbuildBody k t s = .raised (raise .table (setBuilt k t false s)) := by
  simp [htbuildBody, require, h]

theorem offsAt_built (k' : HuffClass) (t' : Fin 4) :
    offsAt (setHt k t (builtTable s k t) s) k' t' = offsAt s k' t' := by
  refine offsAt_congr rfl ?_ (by simp)
  rw [setHt_ht_iff]; split
  · next e => obtain ⟨rfl, rfl⟩ := e; rfl
  · rfl

theorem symAt_built (k' : HuffClass) (t' : Fin 4) :
    symAt (setHt k t (builtTable s k t) s) k' t' = symAt s k' t' := by
  refine symAt_congr ?_ (by simp)
  rw [setHt_ht_iff]; split
  · next e => obtain ⟨rfl, rfl⟩ := e; rfl
  · rfl

/-- The codes HTBUILD stores, entry by entry (41_huffman_engine R150). -/
theorem codeAt_built_of_hasLength (h : OffsetsLegal s k t) {l j : Nat} (hj : HasLength s k t l j) :
    codeAt (setHt k t (builtTable s k t) s) k t j =
      BitVec.ofNat 32 (firstCode (offsAt s k t) (l - 1) + (j - offsAt s k t (l - 1))) := by
  have := (find_assignLengths (offs := offsAt s k t) (n := 16) (l := 1) le_rfl
    (fun l' h1 h2 => h.2.1 l' h1 (by omega)) (s.ht k t).code j).1 l hj.1 (by have := hj.2.1; omega) hj.2.2.1 hj.2.2.2
  simp only [Nat.sub_self, firstCode] at this
  simp [codeAt, builtTable, this]

/-- HTBUILD writes no entry at or above `OFFS[16]` (41_huffman_engine R150). -/
theorem codeAt_built_above (h : OffsetsLegal s k t) {j : Nat} (hj : offsAt s k t 16 ≤ j) :
    codeAt (setHt k t (builtTable s k t) s) k t j = codeAt s k t j := by
  have := (find_assignLengths (offs := offsAt s k t) (n := 16) (l := 1) le_rfl
    (fun l' h1 h2 => h.2.1 l' h1 (by omega)) (s.ht k t).code j).2 (.inr hj)
  simp only [Nat.sub_self, firstCode] at this
  simp [codeAt, builtTable, this]

/-- HTBUILD leaves the codes the offsets give (10_state R46). -/
theorem codesBuilt_built (h : OffsetsLegal s k t) : CodesBuilt (setHt k t (builtTable s k t) s) k t := by
  intro l j hj
  rw [HasLength, offsAt_built] at hj
  rw [codeAt_built_of_hasLength s k t h hj, offsAt_built]
  rw [BitVec.toNat_ofNat, Nat.mod_eq_of_lt]
  obtain ⟨h1, h2, h3, h4⟩ := hj
  have hf := firstCode_le (b := 16) (l := l - 1) (fun l' a b => h.2.1 l' a b) (by omega)
  have hm := offs_mono (b := 16) (fun l' a b => h.2.1 l' a b) (x := l - 1) (y := 16) (by omega) le_rfl
  have hm' := offs_mono (b := 16) (fun l' a b => h.2.1 l' a b) (x := l) (y := 16) (by omega) le_rfl
  have hc := h.2.2
  have h16 : (2 : Nat) ^ (l - 1) ≤ 2 ^ 15 := Nat.pow_le_pow_right (by norm_num) (by omega)
  have : offsAt s k t (l - 1) * 2 ^ (l - 1) ≤ 162 * 2 ^ 15 := Nat.mul_le_mul (by omega) h16
  omega

end Sys2Proof.Machine
end

