-- ==== Sys2Proof/Laws/Block.lean ====
section
/-! SUPPORT. The laws of coefficient stores, of value fields and of every entropy symbol as a procedure
(42_entropy_symbols R180 to R186), in terms of the stream position and `storeCoefs`. -/

namespace Sys2Proof.Machine

variable (s : State) (c : Fin 3)

/-! ## Coefficient stores -/

theorem storeCoefs_append (m : Nat) (vs ws : List Int) :
    storeCoefs c m (vs ++ ws) s = storeCoefs c (m + vs.length) ws (storeCoefs c m vs s) := by
  induction vs generalizing m s with
  | nil => rfl
  | cons v vs ih =>
    simp only [List.cons_append, storeCoefs, ih, List.length_cons]
    congr 1; omega

theorem zeroFill_eq (m n : Nat) : zeroFill c m n s = storeCoefs c m (List.replicate n 0) s := by
  induction n generalizing m s with
  | zero => rfl
  | succ n ih => simp [zeroFill, List.replicate_succ, storeCoefs, ih]

theorem storeCoefs_snoc (m : Nat) (vs : List Int) (v : Int) :
    putCoef c (m + vs.length) v (storeCoefs c m vs s) = storeCoefs c m (vs ++ [v]) s := by
  rw [storeCoefs_append]; rfl

theorem storeCoefs_atPos (p m : Nat) (vs : List Int) :
    storeCoefs c m vs (atPos p s) = atPos p (storeCoefs c m vs s) := by
  induction vs generalizing m s with
  | nil => rfl
  | cons v vs ih => rw [storeCoefs, storeCoefs, ← ih, atPos_putCoef]

/-- A run of stores changes the cells of the grid and nothing else. -/
theorem storeCoefs_frame (m : Nat) (vs : List Int) :
    storeCoefs c m vs s =
      { s with grid := { s.grid with cells := (storeCoefs c m vs s).grid.cells } } := by
  induction vs generalizing m s with
  | nil => rfl
  | cons v vs ih => rw [storeCoefs, ih]; rfl

/-- A fault forgets what was stored before it. -/
theorem raise_storeCoefs (f : FaultCode) (m : Nat) (vs : List Int) : raise f (storeCoefs c m vs s) = raise f s := by
  rw [storeCoefs_frame]; rfl

theorem raise_atPos_storeCoefs (f : FaultCode) (p m : Nat) (vs : List Int) :
    raise f (atPos p (storeCoefs c m vs s)) = raise f (atPos p s) := by
  rw [← storeCoefs_atPos, raise_storeCoefs]

@[simp] theorem storeCoefs_cfg (m : Nat) (vs : List Int) : (storeCoefs c m vs s).cfg = s.cfg := by
  rw [storeCoefs_frame]
@[simp] theorem storeCoefs_valid (m : Nat) (vs : List Int) : (storeCoefs c m vs s).valid = s.valid := by
  rw [storeCoefs_frame]
@[simp] theorem storeCoefs_phase (m : Nat) (vs : List Int) : (storeCoefs c m vs s).phase = s.phase := by
  rw [storeCoefs_frame]
@[simp] theorem storeCoefs_rfail (m : Nat) (vs : List Int) : (storeCoefs c m vs s).rfail = s.rfail := by
  rw [storeCoefs_frame]
@[simp] theorem storeCoefs_fault (m : Nat) (vs : List Int) : (storeCoefs c m vs s).fault = s.fault := by
  rw [storeCoefs_frame]
@[simp] theorem storeCoefs_result (m : Nat) (vs : List Int) : (storeCoefs c m vs s).result = s.result := by
  rw [storeCoefs_frame]
@[simp] theorem storeCoefs_ncomp (m : Nat) (vs : List Int) : (storeCoefs c m vs s).ncomp = s.ncomp := by
  rw [storeCoefs_frame]
@[simp] theorem storeCoefs_width (m : Nat) (vs : List Int) : (storeCoefs c m vs s).width = s.width := by
  rw [storeCoefs_frame]
@[simp] theorem storeCoefs_height (m : Nat) (vs : List Int) : (storeCoefs c m vs s).height = s.height := by
  rw [storeCoefs_frame]
@[simp] theorem storeCoefs_rsti (m : Nat) (vs : List Int) : (storeCoefs c m vs s).rsti = s.rsti := by
  rw [storeCoefs_frame]
@[simp] theorem storeCoefs_comps (m : Nat) (vs : List Int) : (storeCoefs c m vs s).comps = s.comps := by
  rw [storeCoefs_frame]
@[simp] theorem storeCoefs_entLen (m : Nat) (vs : List Int) : (storeCoefs c m vs s).entLen = s.entLen := by
  rw [storeCoefs_frame]
@[simp] theorem storeCoefs_byteIdx (m : Nat) (vs : List Int) : (storeCoefs c m vs s).byteIdx = s.byteIdx := by
  rw [storeCoefs_frame]
@[simp] theorem storeCoefs_bitIdx (m : Nat) (vs : List Int) : (storeCoefs c m vs s).bitIdx = s.bitIdx := by
  rw [storeCoefs_frame]
@[simp] theorem storeCoefs_blkIdx (m : Nat) (vs : List Int) : (storeCoefs c m vs s).blkIdx = s.blkIdx := by
  rw [storeCoefs_frame]
@[simp] theorem storeCoefs_nUnits (m : Nat) (vs : List Int) : (storeCoefs c m vs s).nUnits = s.nUnits := by
  rw [storeCoefs_frame]
@[simp] theorem storeCoefs_pred (m : Nat) (vs : List Int) : (storeCoefs c m vs s).pred = s.pred := by
  rw [storeCoefs_frame]
@[simp] theorem storeCoefs_dcTables (m : Nat) (vs : List Int) : (storeCoefs c m vs s).dcTables = s.dcTables := by
  rw [storeCoefs_frame]
@[simp] theorem storeCoefs_acTables (m : Nat) (vs : List Int) : (storeCoefs c m vs s).acTables = s.acTables := by
  rw [storeCoefs_frame]
@[simp] theorem storeCoefs_qTables (m : Nat) (vs : List Int) : (storeCoefs c m vs s).qTables = s.qTables := by
  rw [storeCoefs_frame]
@[simp] theorem storeCoefs_ent (m : Nat) (vs : List Int) : (storeCoefs c m vs s).ent = s.ent := by
  rw [storeCoefs_frame]
@[simp] theorem storeCoefs_memEpoch (m : Nat) (vs : List Int) : (storeCoefs c m vs s).memEpoch = s.memEpoch := by
  rw [storeCoefs_frame]
@[simp] theorem storeCoefs_sym (m : Nat) (vs : List Int) : (storeCoefs c m vs s).sym = s.sym := by
  rw [storeCoefs_frame]
@[simp] theorem storeCoefs_pending (m : Nat) (vs : List Int) : (storeCoefs c m vs s).pending = s.pending := by
  rw [storeCoefs_frame]
@[simp] theorem storeCoefs_hostData (m : Nat) (vs : List Int) : (storeCoefs c m vs s).hostData = s.hostData := by
  rw [storeCoefs_frame]
@[simp] theorem endIdx_storeCoefs (m : Nat) (vs : List Int)  :
    endIdx (storeCoefs c m vs s) = endIdx s := by
  rw [storeCoefs_frame]; rfl
@[simp] theorem streamEnd_storeCoefs (m : Nat) (vs : List Int)  :
    streamEnd (storeCoefs c m vs s) = streamEnd s := by
  rw [storeCoefs_frame]; rfl
@[simp] theorem cursorPos_storeCoefs (m : Nat) (vs : List Int)  :
    cursorPos (storeCoefs c m vs s) = cursorPos s := by
  rw [storeCoefs_frame]; rfl
@[simp] theorem entAt_storeCoefs (m : Nat) (vs : List Int) (i : Nat) :
    entAt (storeCoefs c m vs s) i = entAt s i := by
  rw [storeCoefs_frame]; rfl
@[simp] theorem streamBit_storeCoefs (m : Nat) (vs : List Int) (n : Nat) :
    streamBit (storeCoefs c m vs s) n = streamBit s n := by
  rw [storeCoefs_frame]; rfl
@[simp] theorem offsAt_storeCoefs (m : Nat) (vs : List Int) (k : HuffClass) (t : Fin 4) (j : Nat) :
    offsAt (storeCoefs c m vs s) k t j = offsAt s k t j := by
  rw [storeCoefs_frame]; cases k <;> rfl
@[simp] theorem symAt_storeCoefs (m : Nat) (vs : List Int) (k : HuffClass) (t : Fin 4) (j : Nat) :
    symAt (storeCoefs c m vs s) k t j = symAt s k t j := by
  rw [storeCoefs_frame]; cases k <;> rfl
@[simp] theorem codeAt_storeCoefs (m : Nat) (vs : List Int) (k : HuffClass) (t : Fin 4) (j : Nat) :
    codeAt (storeCoefs c m vs s) k t j = codeAt s k t j := by
  rw [storeCoefs_frame]; cases k <;> rfl
@[simp] theorem dcTableOf_storeCoefs (m : Nat) (vs : List Int) (e : Fin 3) :
    dcTableOf (storeCoefs c m vs s) e = dcTableOf s e := by
  rw [storeCoefs_frame]; rfl
@[simp] theorem acTableOf_storeCoefs (m : Nat) (vs : List Int) (e : Fin 3) :
    acTableOf (storeCoefs c m vs s) e = acTableOf s e := by
  rw [storeCoefs_frame]; rfl
@[simp] theorem predAt_storeCoefs (m : Nat) (vs : List Int) (e : Fin 3) :
    predAt (storeCoefs c m vs s) e = predAt s e := by
  rw [storeCoefs_frame]; rfl
@[simp] theorem storeCoefs_grid_epoch (m : Nat) (vs : List Int) :
    (storeCoefs c m vs s).grid.epoch = s.grid.epoch := by rw [storeCoefs_frame]
@[simp] theorem storeCoefs_ht (m : Nat) (vs : List Int) (k : HuffClass) (t : Fin 4) :
    (storeCoefs c m vs s).ht k t = s.ht k t := by rw [storeCoefs_frame]; cases k <;> rfl
@[simp] theorem streamField_storeCoefs (m : Nat) (vs : List Int) (p n : Nat) :
    streamField (storeCoefs c m vs s) p n = streamField s p n := by
  induction n with
  | zero => rfl
  | succ n ih => simp [streamField, ih]
@[simp] theorem streamField_setPred (e : Fin 3) (v : Int) (p n : Nat) :
    streamField (setPred e v s) p n = streamField s p n := by
  induction n with
  | zero => rfl
  | succ n ih => simp [streamField, ih]
@[simp] theorem firstMatch_storeCoefs (m : Nat) (vs : List Int) (k : HuffClass) (t : Fin 4) (p l j : Nat) :
    FirstMatch (storeCoefs c m vs s) k t p l j ↔ FirstMatch s k t p l j := by
  simp [FirstMatch, CodeIs, HasLength]
@[simp] theorem noCode_storeCoefs (m : Nat) (vs : List Int) (k : HuffClass) (t : Fin 4) (p : Nat) :
    NoCode (storeCoefs c m vs s) k t p ↔ NoCode s k t p := by
  simp [NoCode, CodeIs, HasLength]
@[simp] theorem firstMatch_setPred (e : Fin 3) (v : Int) (k : HuffClass) (t : Fin 4) (p l j : Nat) :
    FirstMatch (setPred e v s) k t p l j ↔ FirstMatch s k t p l j := by
  simp [FirstMatch, CodeIs, HasLength]
@[simp] theorem noCode_setPred (e : Fin 3) (v : Int) (k : HuffClass) (t : Fin 4) (p : Nat) :
    NoCode (setPred e v s) k t p ↔ NoCode s k t p := by
  simp [NoCode, CodeIs, HasLength]

theorem zz_lt {m : Nat} (h : m < 64) : zz m < 64 := by
  have : ∀ m : Fin 64, zz m < 64 := by decide
  exact this ⟨m, h⟩

theorem zz_inj {m m' : Nat} (h : m < 64) (h' : m' < 64) (e : zz m = zz m') : m = m' := by
  have : ∀ m : Fin 64, zzInv (zz m) = m := by decide
  have h1 := this ⟨m, h⟩
  have h2 := this ⟨m', h'⟩
  simp only at h1 h2
  rw [← h1, ← h2, e]

/-- What a run of stores reads as: the values at their zigzag positions, everything else as before
(20_memory R81). -/
theorem word_storeCoefs {m : Nat} {vs : List Int} (h : m + vs.length ≤ 64) :
    (∀ n, n < vs.length → (storeCoefs c m vs s).grid.word s.blkIdx.toNat c (zz (m + n)) =
      BitVec.ofInt 32 (vs.getD n 0)) ∧
    ∀ u p i : Nat, p < 3 → i < 64 →
      (¬ ∃ n, n < vs.length ∧ u = s.blkIdx.toNat ∧ p = c.val ∧ i = zz (m + n)) →
      (storeCoefs c m vs s).grid.word u p i = s.grid.word u p i := by
  induction vs generalizing m s with
  | nil => exact ⟨fun n hn => by simp at hn, fun u p i _ _ _ => rfl⟩
  | cons v vs ih =>
    simp only [List.length_cons] at h
    obtain ⟨h1, h2⟩ := ih (s := putCoef c m v s) (m := m + 1) (by omega)
    simp only [putCoef_blkIdx, putCoef_grid] at h1 h2
    have hc := c.isLt
    constructor
    · intro n hn
      simp only [List.length_cons] at hn
      rw [storeCoefs]
      cases n with
      | zero =>
        rw [h2 _ _ _ c.isLt (zz_lt (by omega))]
        · simp
        · rintro ⟨n, hn', _, _, e⟩
          have := zz_inj (by omega) (by omega) e
          omega
      | succ n =>
        have := h1 n (by omega)
        rw [show m + (n + 1) = m + 1 + n by omega, this]; simp
    · intro u p i hp hi hne
      rw [storeCoefs, h2 u p i hp hi, Grid.word_put_other]
      · intro e
        rw [gridKey_inj hp c.isLt hi (zz_lt (by omega))] at e
        exact hne ⟨0, by simp, by simpa using e⟩
      · rintro ⟨n, hn, e⟩
        exact hne ⟨n + 1, by simpa using hn, by rw [show m + (n + 1) = m + 1 + n by omega]; exact e⟩

/-! ## Procedures -/

@[simp] theorem Ran.andThen_done {α β : Type} (a : α) (f : α → State → Ran β) :
    (Ran.done a s).andThen f = f a s := rfl
@[simp] theorem Ran.andThen_raised {α β : Type} (f : α → State → Ran β) :
    (Ran.raised s).andThen f = .raised s := rfl
@[simp] theorem Ran.state_done {α : Type} (a : α) : (Ran.done a s).state = s := rfl
@[simp] theorem Ran.state_raised {α : Type} : (Ran.raised s : Ran α).state = s := rfl

/-! ## Value fields -/

theorem valueField_eq (n : Nat) :
    valueField n s = if n = 0 ∨ cursorPos s + n ≤ streamEnd s then
      .done (streamField s (cursorPos s) n) (atPos (cursorPos s + n) s)
    else .raised (raise .underrun (atEnd s)) := by
  by_cases h : n = 0 ∨ cursorPos s + n ≤ streamEnd s <;> simp [valueField, readBits_eq, h]

theorem valueField_done {n : Nat} (h : n = 0 ∨ cursorPos s + n ≤ streamEnd s) :
    valueField n s = .done (streamField s (cursorPos s) n) (atPos (cursorPos s + n) s) := by
  rw [valueField_eq, if_pos h]

theorem valueField_raised {n : Nat} (h : ¬ (n = 0 ∨ cursorPos s + n ≤ streamEnd s)) :
    valueField n s = .raised (raise .underrun (atEnd s)) := by
  rw [valueField_eq, if_neg h]

/-! ## Symbols -/

/-- 30_encoding R109 by value. -/
theorem decodeDc_eq : ∀ b : Byte, decodeDc b = if b.toNat ≤ 11 then .dccat b else .dcbad b := by decide

/-- 30_encoding R112 by value of the two nibbles. -/
theorem decodeAc_eq : ∀ b : Byte, decodeAc b =
    if b.toNat = 0 then .eob
    else if b.toNat = 240 then .zrl
    else if b.toNat % 16 = 0 then .zrun (BitVec.ofNat 4 (b.toNat / 16))
    else if b.toNat % 16 ≤ 10 then .accoef (BitVec.ofNat 4 (b.toNat / 16)) (BitVec.ofNat 4 (b.toNat % 16))
    else .acbad (BitVec.ofNat 4 (b.toNat / 16)) (BitVec.ofNat 4 (b.toNat % 16)) := by decide

theorem symDccat_eq (cat : Byte) :
    symDccat cat c s =
      if cat.toNat = 0 ∨ cursorPos s + cat.toNat ≤ streamEnd s then
        (let v := predAt s c + extend (streamField s (cursorPos s) cat.toNat) cat.toNat
         let s1 := atPos (cursorPos s + cat.toNat) s
         if fits v then .done () (putCoef c 0 v (setPred c v s1)) else .raised (raise .range s1))
      else .raised (raise .underrun (atEnd s)) := by
  rw [symDccat, valueField_eq]
  split
  · simp only [Ran.andThen, addPred, require, predAt_atPos]; rfl
  · rfl

theorem zeroRun_eq (run k : Nat) :
    zeroRun run c k s = if k + run < 64 then .done (k + run) (storeCoefs c k (List.replicate run 0) s)
      else .raised (raise .acrun s) := by
  simp [zeroRun, require, zeroFill_eq]

theorem symAccoef_eq (run size : BitVec 4) (k : Nat) :
    symAccoef run size c k s =
      if k + run.toNat < 64 then
        (if size.toNat = 0 ∨ cursorPos s + size.toNat ≤ streamEnd s then
          .done (k + run.toNat + 1)
            (atPos (cursorPos s + size.toNat)
              (storeCoefs c k (List.replicate run.toNat 0 ++
                [extend (streamField s (cursorPos s) size.toNat) size.toNat]) s))
        else .raised (raise .underrun (atEnd s)))
      else .raised (raise .acrun s) := by
  rw [symAccoef, zeroRun_eq]
  split
  · rw [Ran.andThen_done, valueField_eq, cursorPos_storeCoefs, streamEnd_storeCoefs]
    by_cases h : size.toNat = 0 ∨ cursorPos s + size.toNat ≤ streamEnd s
    · have := storeCoefs_snoc s c k (List.replicate run.toNat 0)
        (extend (streamField s (cursorPos s) size.toNat) size.toNat)
      simp only [List.length_replicate] at this
      simp only [if_pos h, Ran.andThen, streamField_storeCoefs, atPos_putCoef, this]
    · simp only [if_neg h, Ran.andThen, atEnd, cursorPos_storeCoefs, streamEnd_storeCoefs, raise_atPos_storeCoefs]
  · rfl

/-! ## One DC item -/

/-- `DecodeDC(c)` on a DC item that stands at the cursor. -/
theorem decodeDC_of_item {diff : Int} {p' : Nat} (h : DcItem s (dcTableOf s c) (cursorPos s) diff p') :
    decodeDC c s = if fits (predAt s c + diff) then
      .done () (atPos p' (putCoef c 0 (predAt s c + diff) (setPred c (predAt s c + diff) s)))
      else .raised (raise .range (atPos p' s)) := by
  obtain ⟨l, j, hf, hs, rfl, hend, rfl⟩ := h
  have := hf.lt
  rw [decodeDC, decodeSymbol_of_firstMatch hf]
  simp only [Ran.andThen, decodeDc_eq, if_pos hs, runDcSym]
  rw [symDccat_eq, cursorPos_atPos _ this.1, if_pos (by simp; omega)]
  simp [atPos_setPred, atPos_putCoef, Nat.add_assoc]

/-- `DecodeDC(c)` either decodes an item or raises with the cursor where the item broke. -/
theorem decodeDC_cases :
    (∃ diff p', DcItem s (dcTableOf s c) (cursorPos s) diff p' ∧ fits (predAt s c + diff) = true ∧
      decodeDC c s = .done ()
        (atPos p' (putCoef c 0 (predAt s c + diff) (setPred c (predAt s c + diff) s)))) ∨
    ∃ f q, f ≠ .none ∧ cursorPos s ≤ q ∧ q ≤ max (cursorPos s) (streamEnd s) ∧ decodeDC c s = .raised (raise f (atPos q s)) := by
  have hlt := cursorPos_lt s
  have hle := streamEnd_le s
  rcases decodeSymbol_cases s .dc (dcTableOf s c) with ⟨l, j, hf, e⟩ | ⟨hn, e⟩
  · have hl := hf.lt
    by_cases hcat : (symAt s .dc (dcTableOf s c) j).toNat ≤ 11
    · by_cases hv : cursorPos s + l + (symAt s .dc (dcTableOf s c) j).toNat ≤ streamEnd s
      · have hitem : DcItem s (dcTableOf s c) (cursorPos s) _ _ := ⟨l, j, hf, hcat, rfl, hv, rfl⟩
        have := decodeDC_of_item s c hitem
        split at this
        · next hfit => exact .inl ⟨_, _, hitem, hfit, this⟩
        · exact .inr ⟨.range, _, by simp, by omega, by omega, this⟩
      · right
        refine ⟨.underrun, max (cursorPos s + l) (streamEnd s), by simp, by omega, by omega, ?_⟩
        rw [decodeDC, e]
        simp only [Ran.andThen, decodeDc_eq, if_pos hcat, runDcSym]
        rw [symDccat_eq, cursorPos_atPos _ hl.1, if_neg (by simp; omega)]
        simp [atEnd, cursorPos_atPos _ hl.1]
    · right
      refine ⟨.dccat, cursorPos s + l, by simp, by omega, by omega, ?_⟩
      rw [decodeDC, e]
      simp only [Ran.andThen, decodeDc_eq, if_neg hcat, runDcSym, symDcbad]
  · right
    by_cases h16 : cursorPos s + 16 ≤ streamEnd s
    · refine ⟨.nocode, cursorPos s + 16, by simp, by omega, by omega, ?_⟩
      rw [decodeDC, e, lostCode, if_pos h16]; rfl
    · refine ⟨.underrun, max (cursorPos s) (streamEnd s), by simp, by omega, by omega, ?_⟩
      rw [decodeDC, e, lostCode, if_neg h16, atPos_cursorPos]; rfl

/-! ## AC items -/

theorem AcItems.bounds {s : State} {t : Fin 4} {k p k' p' : Nat} {vs : List Int}
    (h : AcItems s t k p vs k' p') (hk : k ≤ 64) :
    k + vs.length = k' ∧ k' ≤ 64 ∧ p ≤ p' ∧ p' ≤ max p (streamEnd s) := by
  induction h with
  | nil => simp; omega
  | eob k p l j hk' hf hs => have := hf.lt; simp; omega
  | zrl k p l j vs k' p' hf hs hr _ ih =>
    have := hf.lt; have := ih (by omega); simp; omega
  | zrun k p l j run vs k' p' hf hs h1 h2 hr _ ih =>
    have := hf.lt; have := ih (by omega); simp; omega
  | coef k p l j run size vs k' p' hf hs h1 h2 hr hv _ ih =>
    have := hf.lt; have := ih (by omega); simp; omega

theorem AcItems.at_end {s : State} {t : Fin 4} {k p k' p' : Nat} {vs : List Int}
    (h : AcItems s t k p vs k' p') (hk : k = 64) : vs = [] ∧ p' = p := by
  cases h <;> first | exact ⟨rfl, rfl⟩ | omega

/-- One turn of the loop of `DecodeAC` on the symbol of a first match. -/
theorem decodeACFrom_symbol {n k m p l j : Nat} {ws : List Int} (hp : p < 34359738368) (hk : k < 64)
    (hf : FirstMatch s .ac (acTableOf s c) p l j) :
    decodeACFrom c (n + 1) k (atPos p (storeCoefs c m ws s)) =
      (runAcSym (decodeAc (symAt s .ac (acTableOf s c) j)) c k
        (atPos (p + l) (storeCoefs c m ws s))).andThen fun k' s2 => decodeACFrom c n k' s2 := by
  have hc : cursorPos (atPos p (storeCoefs c m ws s)) = p := cursorPos_atPos _ hp
  have hf' : FirstMatch (atPos p (storeCoefs c m ws s)) .ac
      (acTableOf (atPos p (storeCoefs c m ws s)) c) (cursorPos (atPos p (storeCoefs c m ws s))) l j := by
    rw [hc]; simpa using hf
  rw [decodeACFrom, if_pos hk, decodeSymbol_of_firstMatch hf', hc]
  simp [Ran.andThen]

/-- The loop of `DecodeAC` runs over AC items that stand in the stream. -/
theorem decodeACFrom_of_items {k p k' p' : Nat} {vs : List Int} (h : AcItems s (acTableOf s c) k p vs k' p')
    (hk : k ≤ 64) (hp : p < 34359738368) {n m : Nat} {ws : List Int} (hn : 64 ≤ n + k) (hm : k = m + ws.length) :
    ∃ n', 64 ≤ n' + k' ∧
      decodeACFrom c n k (atPos p (storeCoefs c m ws s)) =
        decodeACFrom c n' k' (atPos p' (storeCoefs c m (ws ++ vs) s)) := by
  induction h generalizing n ws with
  | nil => exact ⟨n, hn, by simp⟩
  | eob k p l j hk' hf hs =>
    have := hf.lt
    obtain ⟨n, rfl⟩ : ∃ i, n = i + 1 := ⟨n - 1, by omega⟩
    refine ⟨n, by omega, ?_⟩
    rw [decodeACFrom_symbol s c hp hk' hf, decodeAc_eq, if_pos hs]
    simp only [runAcSym, symEob, Ran.andThen, zeroFill_eq, storeCoefs_atPos, hm, ← storeCoefs_append]
  | zrl k p l j vs k' p' hf hs hr _ ih =>
    have := hf.lt
    obtain ⟨n, rfl⟩ : ∃ i, n = i + 1 := ⟨n - 1, by omega⟩
    obtain ⟨n', h1, h2⟩ := ih (by omega) (by omega) (n := n) (ws := ws ++ List.replicate 16 0) (by omega)
      (by simp; omega)
    refine ⟨n', h1, ?_⟩
    rw [decodeACFrom_symbol s c hp (by omega) hf, decodeAc_eq, if_neg (by omega), if_pos (by omega)]
    simp only [runAcSym, symZrl, zeroRun_eq, if_pos hr, Ran.andThen, storeCoefs_atPos]
    rw [List.append_assoc] at h2
    rw [← h2, storeCoefs_append, ← hm]
  | zrun k p l j run vs k' p' hf hs hr1 hr2 hr _ ih =>
    have := hf.lt
    obtain ⟨n, rfl⟩ : ∃ i, n = i + 1 := ⟨n - 1, by omega⟩
    obtain ⟨n', h1, h2⟩ := ih (by omega) (by omega) (n := n) (ws := ws ++ List.replicate run 0) (by omega)
      (by simp; omega)
    refine ⟨n', h1, ?_⟩
    rw [decodeACFrom_symbol s c hp (by omega) hf, decodeAc_eq, if_neg (by omega), if_neg (by omega),
      if_pos (by omega)]
    have hrun : (BitVec.ofNat 4 ((symAt s .ac (acTableOf s c) j).toNat / 16)).toNat = run := by
      simp only [BitVec.toNat_ofNat]; omega
    simp only [runAcSym, symZrun, hrun, zeroRun_eq, if_pos hr, Ran.andThen, storeCoefs_atPos]
    rw [List.append_assoc] at h2
    rw [← h2, storeCoefs_append, ← hm]
  | coef k p l j run size vs k' p' hf hs hz1 hz2 hr hv _ ih =>
    have := hf.lt
    have hle := streamEnd_le s
    have hsym := (symAt s .ac (acTableOf s c) j).isLt
    obtain ⟨n, rfl⟩ : ∃ i, n = i + 1 := ⟨n - 1, by omega⟩
    obtain ⟨n', h1, h2⟩ := ih (by omega) (by omega) (n := n)
      (ws := ws ++ (List.replicate run 0 ++ [extend (streamField s (p + l) size) size])) (by omega)
      (by simp; omega)
    refine ⟨n', h1, ?_⟩
    rw [decodeACFrom_symbol s c hp (by omega) hf, decodeAc_eq, if_neg (by omega), if_neg (by omega),
      if_neg (by omega), if_pos (by omega)]
    have hrun : (BitVec.ofNat 4 ((symAt s .ac (acTableOf s c) j).toNat / 16)).toNat = run := by
      simp only [BitVec.toNat_ofNat]; omega
    have hsize : (BitVec.ofNat 4 ((symAt s .ac (acTableOf s c) j).toNat % 16)).toNat = size := by
      simp only [BitVec.toNat_ofNat]; omega
    simp only [runAcSym, symAccoef_eq, hrun, hsize, if_pos hr, cursorPos_atPos _ this.1, streamEnd_atPos,
      streamEnd_storeCoefs, hv, or_true, if_true, Ran.andThen, storeCoefs_atPos, atPos_atPos,
      streamField_atPos, streamField_storeCoefs]
    simp only [List.append_assoc, List.singleton_append] at h2
    rw [← h2]
    simp only [← List.append_assoc, storeCoefs_append, ← hm]
    simp [hm, storeCoefs, Nat.add_assoc]

theorem decodeACFrom_end (n : Nat) : decodeACFrom c n 64 s = .done () s := by cases n <;> simp [decodeACFrom]

/-- `DecodeAC(c)` on a complete run of AC items. -/
theorem decodeAC_of_items {vs : List Int} {p' : Nat} (h : AcItems s (acTableOf s c) 1 (cursorPos s) vs 64 p') :
    decodeAC c s = .done () (atPos p' (storeCoefs c 1 vs s)) := by
  obtain ⟨n', _, e⟩ := decodeACFrom_of_items s c h (by omega) (cursorPos_lt s) (n := 63) (m := 1) (ws := [])
    (by omega) rfl
  rw [decodeACFrom_end] at e
  simpa [decodeAC, storeCoefs] using e

/-- How the loop of `DecodeAC` ends from zigzag position `k` and stream position `p`, with the values `ws` stored from
position `m` on: it decodes AC items to the end of the block, or it raises with the cursor where the stream
broke. -/
def AcEnds (n k m p : Nat) (ws : List Int) : Prop :=
  (∃ vs p', AcItems s (acTableOf s c) k p vs 64 p' ∧
    decodeACFrom c n k (atPos p (storeCoefs c m ws s)) = .done () (atPos p' (storeCoefs c m (ws ++ vs) s))) ∨
  ∃ f q, f ≠ .none ∧ p ≤ q ∧ q ≤ max p (streamEnd s) ∧
    decodeACFrom c n k (atPos p (storeCoefs c m ws s)) = .raised (raise f (atPos q s))

/-- A loop that has decoded one more item ends as the rest of it does. -/
theorem AcEnds.step {s : State} {c : Fin 3} {n k m p k2 p2 : Nat} {ws us : List Int} (h : AcEnds s c n k2 m p2 (ws ++ us)) (hp : p ≤ p2)
    (hp' : p2 ≤ streamEnd s)
    (hi : ∀ vs p', AcItems s (acTableOf s c) k2 p2 vs 64 p' → AcItems s (acTableOf s c) k p (us ++ vs) 64 p')
    (e : decodeACFrom c (n + 1) k (atPos p (storeCoefs c m ws s)) =
      decodeACFrom c n k2 (atPos p2 (storeCoefs c m (ws ++ us) s))) : AcEnds s c (n + 1) k m p ws := by
  rcases h with ⟨vs, p', ha, e'⟩ | ⟨f, q, h0, h1, h2, e'⟩
  · exact .inl ⟨us ++ vs, p', hi vs p' ha, by rw [e, e', List.append_assoc]⟩
  · exact .inr ⟨f, q, h0, by omega, by omega, by rw [e, e']⟩

/-- From any point of the loop, `DecodeAC` either decodes AC items to the end of the block or raises with the cursor
where the stream broke. -/
theorem decodeACFrom_cases {n k m p : Nat} {ws : List Int} (hn : 64 ≤ n + k) (hk : k ≤ 64) (hp : p < 34359738368)
    (hm : k = m + ws.length) :
    AcEnds s c n k m p ws := by
  have hle := streamEnd_le s
  induction n generalizing k p ws with
  | zero =>
    left
    obtain rfl : k = 64 := by omega
    exact ⟨[], p, .nil _ _, by simp [decodeACFrom]⟩
  | succ n ih =>
    by_cases hk64 : k = 64
    · left
      subst hk64
      exact ⟨[], p, .nil _ _, by simp [decodeACFrom]⟩
    have hk' : k < 64 := by omega
    rcases decodeSymbol_cases (atPos p (storeCoefs c m ws s)) .ac (acTableOf s c) with ⟨l, j, hf, _⟩ | ⟨hno, e⟩
    · rw [cursorPos_atPos _ hp] at hf
      replace hf : FirstMatch s .ac (acTableOf s c) p l j := by simpa using hf
      have hl := hf.lt
      have hsym := (symAt s .ac (acTableOf s c) j).isLt
      have hstep := decodeACFrom_symbol s c (n := n) (m := m) (ws := ws) hp hk' hf
      rw [decodeAc_eq] at hstep
      by_cases c1 : (symAt s .ac (acTableOf s c) j).toNat = 0
      · rw [if_pos c1] at hstep
        refine (ih (k := 64) (p := p + l) (ws := ws ++ List.replicate (64 - k) 0) (by omega) le_rfl hl.1
          (by simp; omega)).step (by omega) (by omega) ?_ ?_
        · intro vs p' ha
          obtain ⟨rfl, rfl⟩ := ha.at_end rfl
          simpa using AcItems.eob k p l j hk' hf c1
        · rw [hstep]
          simp only [runAcSym, symEob, Ran.andThen, zeroFill_eq, storeCoefs_atPos, hm, ← storeCoefs_append]
      rw [if_neg c1] at hstep
      by_cases c2 : (symAt s .ac (acTableOf s c) j).toNat = 240
      · rw [if_pos c2] at hstep
        by_cases hr : k + 16 < 64
        · refine (ih (k := k + 16) (p := p + l) (ws := ws ++ List.replicate 16 0) (by omega) (by omega) hl.1
            (by simp; omega)).step (by omega) (by omega)
            (fun vs p' ha => .zrl k p l j vs 64 p' hf (by omega) hr ha) ?_
          rw [hstep]
          simp only [runAcSym, symZrl, zeroRun_eq, if_pos hr, Ran.andThen, storeCoefs_atPos]
          rw [storeCoefs_append, ← hm]
        · right
          refine ⟨.acrun, p + l, by simp, by omega, by omega, ?_⟩
          rw [hstep]
          simp only [runAcSym, symZrl, zeroRun_eq, if_neg hr, Ran.andThen, raise_atPos_storeCoefs]
      rw [if_neg c2] at hstep
      have hrun : (BitVec.ofNat 4 ((symAt s .ac (acTableOf s c) j).toNat / 16)).toNat =
          (symAt s .ac (acTableOf s c) j).toNat / 16 := by
        simp only [BitVec.toNat_ofNat]; omega
      have hsize : (BitVec.ofNat 4 ((symAt s .ac (acTableOf s c) j).toNat % 16)).toNat =
          (symAt s .ac (acTableOf s c) j).toNat % 16 := by
        simp only [BitVec.toNat_ofNat]; omega
      by_cases c3 : (symAt s .ac (acTableOf s c) j).toNat % 16 = 0
      · rw [if_pos c3] at hstep
        by_cases hr : k + (symAt s .ac (acTableOf s c) j).toNat / 16 < 64
        · refine (ih (k := k + (symAt s .ac (acTableOf s c) j).toNat / 16) (p := p + l)
            (ws := ws ++ List.replicate ((symAt s .ac (acTableOf s c) j).toNat / 16) 0) (by omega) (by omega) hl.1
            (by simp; omega)).step (by omega) (by omega)
            (fun vs p' ha => .zrun k p l j _ vs 64 p' hf (by omega) (by omega) (by omega) hr ha) ?_
          rw [hstep]
          simp only [runAcSym, symZrun, hrun, zeroRun_eq, if_pos hr, Ran.andThen, storeCoefs_atPos]
          rw [storeCoefs_append, ← hm]
        · right
          refine ⟨.acrun, p + l, by simp, by omega, by omega, ?_⟩
          rw [hstep]
          simp only [runAcSym, symZrun, hrun, zeroRun_eq, if_neg hr, Ran.andThen, raise_atPos_storeCoefs]
      rw [if_neg c3] at hstep
      by_cases c4 : (symAt s .ac (acTableOf s c) j).toNat % 16 ≤ 10
      · rw [if_pos c4] at hstep
        by_cases hr : k + (symAt s .ac (acTableOf s c) j).toNat / 16 < 64
        · by_cases hv : p + l + (symAt s .ac (acTableOf s c) j).toNat % 16 ≤ streamEnd s
          · refine (ih (k := k + (symAt s .ac (acTableOf s c) j).toNat / 16 + 1)
              (p := p + l + (symAt s .ac (acTableOf s c) j).toNat % 16)
              (ws := ws ++ (List.replicate ((symAt s .ac (acTableOf s c) j).toNat / 16) 0 ++
                [extend (streamField s (p + l) ((symAt s .ac (acTableOf s c) j).toNat % 16))
                  ((symAt s .ac (acTableOf s c) j).toNat % 16)]))
              (by omega) (by omega) (by omega) (by simp; omega)).step (by omega) (by omega)
              (fun vs p' ha => by
                simpa using AcItems.coef k p l j ((symAt s .ac (acTableOf s c) j).toNat / 16)
                  ((symAt s .ac (acTableOf s c) j).toNat % 16) vs 64 p' hf (by omega) (by omega) c4 hr hv ha) ?_
            rw [hstep]
            simp only [runAcSym, symAccoef_eq, hrun, hsize, if_pos hr, cursorPos_atPos _ hl.1, streamEnd_atPos,
              streamEnd_storeCoefs, hv, or_true, if_true, Ran.andThen, storeCoefs_atPos, atPos_atPos,
              streamField_atPos, streamField_storeCoefs]
            rw [storeCoefs_append s c m ws, ← hm]
          · right
            refine ⟨.underrun, max (p + l) (streamEnd s), by simp, by omega, by omega, ?_⟩
            rw [hstep]
            have hv' : ¬ ((symAt s .ac (acTableOf s c) j).toNat % 16 = 0 ∨
                p + l + (symAt s .ac (acTableOf s c) j).toNat % 16 ≤ streamEnd s) := by omega
            simp only [runAcSym, symAccoef_eq, hrun, hsize, if_pos hr, cursorPos_atPos _ hl.1, streamEnd_atPos,
              streamEnd_storeCoefs, hv', if_false, Ran.andThen, atEnd, atPos_atPos, raise_atPos_storeCoefs]
        · right
          refine ⟨.acrun, p + l, by simp, by omega, by omega, ?_⟩
          rw [hstep]
          simp only [runAcSym, symAccoef_eq, hrun, if_neg hr, Ran.andThen, raise_atPos_storeCoefs]
      · rw [if_neg c4] at hstep
        right
        refine ⟨.acsize, p + l, by simp, by omega, by omega, ?_⟩
        rw [hstep]
        simp only [runAcSym, symAcbad, Ran.andThen, raise_atPos_storeCoefs]
    · right
      have hstep : decodeACFrom c (n + 1) k (atPos p (storeCoefs c m ws s)) =
          .raised (lostCode p (atPos p (storeCoefs c m ws s))) := by
        rw [decodeACFrom, if_pos hk']
        rw [cursorPos_atPos _ hp] at e
        simp [e, Ran.andThen]
      by_cases h16 : p + 16 ≤ streamEnd s
      · refine ⟨.nocode, p + 16, by simp, by omega, by omega, ?_⟩
        rw [hstep, lostCode, if_pos (by simpa using h16)]
        simp [raise_atPos_storeCoefs]
      · refine ⟨.underrun, max p (streamEnd s), by simp, by omega, by omega, ?_⟩
        rw [hstep, lostCode, if_neg (by simpa using h16)]
        simp [atEnd, cursorPos_atPos _ hp, raise_atPos_storeCoefs]

theorem decodeAC_cases :
    (∃ vs p', AcItems s (acTableOf s c) 1 (cursorPos s) vs 64 p' ∧
      decodeAC c s = .done () (atPos p' (storeCoefs c 1 vs s))) ∨
    ∃ f q, f ≠ .none ∧ cursorPos s ≤ q ∧ q ≤ max (cursorPos s) (streamEnd s) ∧ decodeAC c s = .raised (raise f (atPos q s)) := by
  have := decodeACFrom_cases s c (n := 63) (k := 1) (m := 1) (p := cursorPos s) (ws := []) (by omega) (by omega)
    (cursorPos_lt s) rfl
  simpa [AcEnds, decodeAC, storeCoefs] using this

end Sys2Proof.Machine
end

