-- ==== Sys2Proof/Laws/Units.lean ====
section
/-! SUPPORT. The laws of blocks, units and scans (41_huffman_engine R155 to R163): each decodes what stands at the cursor
or raises, and changes nothing but the cursor, the predictors and the cells of its own blocks. -/

namespace Sys2Proof.Machine

/-! ## What decoding changes -/

/-- What the decoding of blocks of the components `cs` of unit `BLKIDX` changes: the cursor, not backwards, the
predictors of those components and the cells of those blocks. -/
structure Decoded (cs : List (Fin 3)) (s t : State) : Prop where
  frame : t = { s with byteIdx := t.byteIdx, bitIdx := t.bitIdx, pred := t.pred,
                       grid := { s.grid with cells := t.grid.cells } }
  forward : cursorPos s ≤ cursorPos t
  limit : cursorPos t ≤ max (cursorPos s) (streamEnd s)
  pred : ∀ e, e ∉ cs → t.pred[e] = s.pred[e]
  grid : ∀ u p i : Nat, p < 3 → i < 64 → ¬ (u = s.blkIdx.toNat ∧ ∃ e ∈ cs, p = e.val) →
    t.grid.word u p i = s.grid.word u p i
  wf : Memory.wf s.grid.cells = true → Memory.wf t.grid.cells = true
  below : ∀ b, s.blkIdx.toNat * 192 + 192 ≤ b → Memory.below b s.grid.cells = true →
    Memory.below b t.grid.cells = true

variable {s t u : State} {c : Fin 3} {cs ds : List (Fin 3)}

theorem Decoded.refl (cs : List (Fin 3)) (s : State) : Decoded cs s s :=
  ⟨rfl, le_rfl, le_max_left _ _, fun _ _ => rfl, fun _ _ _ _ _ _ => rfl, id, fun _ _ => id⟩

theorem Decoded.mono (h : Decoded cs s t) (hc : ∀ c ∈ cs, c ∈ ds) : Decoded ds s t :=
  ⟨h.frame, h.forward, h.limit, fun e he => h.pred e fun h' => he (hc e h'),
    fun u p i hp hi hn => h.grid u p i hp hi fun ⟨h1, e, h2, h3⟩ => hn ⟨h1, e, hc e h2, h3⟩, h.wf, h.below⟩

theorem Decoded.blkIdx (h : Decoded cs s t) : t.blkIdx = s.blkIdx := by rw [h.frame]

theorem Decoded.streamEnd (h : Decoded cs s t) : Machine.streamEnd t = Machine.streamEnd s := by
  rw [h.frame]; rfl

theorem Decoded.trans (h : Decoded cs s t) (h' : Decoded cs t u) : Decoded cs s u where
  frame := by
    have e1 := h.frame
    have e2 := h'.frame
    rw [e1] at e2
    exact e2
  forward := h.forward.trans h'.forward
  limit := by have h1 := h.limit; have h2 := h'.limit; have h3 := h.streamEnd; omega
  pred := fun e he => (h'.pred e he).trans (h.pred e he)
  grid := fun v p i hp hi hn => by
    rw [h'.grid v p i hp hi (by rw [h.blkIdx]; exact hn), h.grid v p i hp hi hn]
  wf := fun hw => h'.wf (h.wf hw)
  below := fun b hb hw => h'.below b (by rw [h.blkIdx]; exact hb) (h.below b hb hw)

theorem decoded_atPos (cs : List (Fin 3)) {p : Nat} (h : cursorPos s ≤ p) (hp : p ≤ max (cursorPos s) (streamEnd s)) :
    Decoded cs s (atPos p s) :=
  have hlt : p < 34359738368 := by have := cursorPos_lt s; have := streamEnd_le s; omega
  ⟨rfl, by rwa [cursorPos_atPos s hlt], by rwa [cursorPos_atPos s hlt], fun _ _ => rfl, fun _ _ _ _ _ _ => rfl, id, fun _ _ => id⟩

theorem decoded_setPred (v : Int) (hc : c ∈ cs) : Decoded cs s (setPred c v s) :=
  ⟨rfl, le_rfl, le_max_left _ _, fun e he => by
    simp only [setPred_pred]
    refine Vector.getElem_set_ne (Fin.isLt _) (Fin.isLt _) fun hh => he ?_
    rw [← Fin.ext hh]; exact hc, fun _ _ _ _ _ _ => rfl, id, fun _ _ => id⟩

theorem decoded_putCoef {m : Nat} (v : Int) (hc : c ∈ cs) (hm : m < 64) : Decoded cs s (putCoef c m v s) :=
  ⟨rfl, le_rfl, le_max_left _ _, fun _ _ => rfl, fun u p i hp hi hn => by
    rw [putCoef_grid, Grid.word_put_other]
    intro e
    rw [gridKey_inj hp c.isLt hi (zz_lt hm)] at e
    exact hn ⟨e.1, c, hc, e.2.1⟩,
    fun hw => Memory.wf_write _ _ hw,
    fun b hb hw => Memory.below_write _ (by have := zz_lt hm; have := c.isLt; unfold gridKey; omega) hw⟩

theorem decoded_storeCoefs {m : Nat} {vs : List Int} (hc : c ∈ cs) (hm : m + vs.length ≤ 64) :
    Decoded cs s (storeCoefs c m vs s) := by
  induction vs generalizing m s with
  | nil => exact .refl cs s
  | cons v vs ih =>
    simp only [List.length_cons] at hm
    exact (decoded_putCoef v hc (by omega)).trans (ih (by omega))

/-! ## Items read the same where the stream and the tables are the same -/

theorem AcItems.congr {s x : State} {t : Fin 4} {k p k' p' : Nat} {vs : List Int}
    (hf : ∀ p l j, FirstMatch s .ac t p l j → FirstMatch x .ac t p l j) (hs : ∀ j, symAt x .ac t j = symAt s .ac t j)
    (he : streamEnd x = streamEnd s) (hv : ∀ p n, streamField x p n = streamField s p n)
    (h : AcItems s t k p vs k' p') : AcItems x t k p vs k' p' := by
  induction h with
  | nil => exact .nil _ _
  | eob k p l j h1 h2 h3 => exact .eob k p l j h1 (hf _ _ _ h2) (by rw [hs]; exact h3)
  | zrl k p l j vs k' p' h1 h2 h3 _ ih => exact .zrl k p l j vs k' p' (hf _ _ _ h1) (by rw [hs]; exact h2) h3 ih
  | zrun k p l j run vs k' p' h1 h2 h3 h4 h5 _ ih =>
    exact .zrun k p l j run vs k' p' (hf _ _ _ h1) (by rw [hs]; exact h2) h3 h4 h5 ih
  | coef k p l j run size vs k' p' h1 h2 h3 h4 h5 h6 _ ih =>
    rw [← hv]
    exact .coef k p l j run size vs k' p' (hf _ _ _ h1) (by rw [hs]; exact h2) h3 h4 h5 (by rw [he]; exact h6) ih

/-- The state a DC item leaves has the AC items of the state before. -/
theorem acItems_after_dc {s : State} {c : Fin 3} {v : Int} {q : Nat} {t : Fin 4} {k p k' p' : Nat} {vs : List Int} :
    AcItems (atPos q (storeCoefs c 0 [v] (setPred c v s))) t k p vs k' p' ↔ AcItems s t k p vs k' p' := by
  constructor <;> intro h <;> refine h.congr ?_ ?_ ?_ ?_ <;> simp

/-! ## Blocks -/

theorem DcItem.bounds {t : Fin 4} {p q : Nat} {diff : Int} (h : DcItem s t p diff q) :
    p ≤ q ∧ q < 34359738368 ∧ q ≤ streamEnd s := by
  obtain ⟨l, j, hf, _, hq, hend, _⟩ := h
  have := streamEnd_le s; omega

theorem decodeBlock_of_decodes (h : BlockDecodes c s t) : decodeBlock c s = .done () t := by
  obtain ⟨diff, q, vs, p', hd, hfit, ha, rfl⟩ := h
  have hq : q < 34359738368 := by
    obtain ⟨l, j, hf, _, _, hend, _⟩ := hd; have := streamEnd_le s; omega
  rw [decodeBlock, decodeDC_of_item s c hd, if_pos hfit, Ran.andThen_done]
  have hx : putCoef c 0 (predAt s c + diff) (setPred c (predAt s c + diff) s) =
      storeCoefs c 0 [predAt s c + diff] (setPred c (predAt s c + diff) s) := rfl
  rw [hx, decodeAC_of_items (p' := p') (vs := vs)]
  · rw [storeCoefs_atPos, atPos_atPos]; rfl
  · rw [cursorPos_atPos _ hq, acItems_after_dc]; simpa using ha

/-- A block either decodes or raises; up to the raise it has changed what decoding changes. -/
theorem decodeBlock_cases (c : Fin 3) (s : State) :
    (∃ t, BlockDecodes c s t ∧ decodeBlock c s = .done () t) ∨
    ∃ f u, f ≠ .none ∧ Decoded [c] s u ∧ decodeBlock c s = .raised (raise f u) := by
  rcases decodeDC_cases s c with ⟨diff, q, hd, hfit, e⟩ | ⟨f, q, h0, h1, h2, e⟩
  · have hq : cursorPos s ≤ q ∧ q < 34359738368 := by
      obtain ⟨l, j, hf, _, hq, hend, _⟩ := hd; have := streamEnd_le s; omega
    have hx : putCoef c 0 (predAt s c + diff) (setPred c (predAt s c + diff) s) =
      storeCoefs c 0 [predAt s c + diff] (setPred c (predAt s c + diff) s) := rfl
    rw [hx] at e
    rcases decodeAC_cases (atPos q (storeCoefs c 0 [predAt s c + diff] (setPred c (predAt s c + diff) s))) c with
      ⟨vs, p', ha, e'⟩ | ⟨f, q', h0, h1, h2, e'⟩
    · left
      rw [cursorPos_atPos _ hq.2, acItems_after_dc] at ha
      have hb : BlockDecodes c s _ := ⟨diff, q, vs, p', hd, hfit, by simpa using ha, rfl⟩
      exact ⟨_, hb, decodeBlock_of_decodes hb⟩
    · right
      rw [cursorPos_atPos _ hq.2] at h1
      refine ⟨f, _, h0, ?_, by rw [decodeBlock, e, Ran.andThen_done, e']⟩
      exact ((decoded_setPred _ (by simp)).trans (decoded_storeCoefs (by simp) (by simp))).trans
        (decoded_atPos [c] (by simp [cursorPos_setPred]; omega)
          (by
            simp only [cursorPos_storeCoefs, streamEnd_storeCoefs, cursorPos_setPred, streamEnd_setPred,
              cursorPos_atPos _ hq.2, streamEnd_atPos] at h2 ⊢
            have := hd.bounds; omega))
  · right
    exact ⟨f, _, h0, decoded_atPos [c] h1 h2, by rw [decodeBlock, e, Ran.andThen_raised]⟩

theorem BlockDecodes.decoded (h : BlockDecodes c s t) : Decoded [c] s t := by
  obtain ⟨diff, q, vs, p', hd, hfit, ha, rfl⟩ := h
  have hle := streamEnd_le s
  have hq := hd.bounds
  obtain ⟨b1, b2, b3, b4⟩ := ha.bounds (by omega)
  exact ((decoded_setPred _ (by simp)).trans (decoded_storeCoefs (by simp) (by simp; omega))).trans
    (decoded_atPos [c] (by simp [cursorPos_setPred]; omega)
      (by simp [cursorPos_setPred]; omega))

/-! ## Units -/

theorem forComps_of_decodes (h : BlocksDecode cs s t) : forComps decodeBlock cs s = .done () t := by
  induction cs generalizing s with
  | nil => obtain rfl := h; rfl
  | cons c cs ih =>
    obtain ⟨m, h1, h2⟩ := h
    rw [forComps, decodeBlock_of_decodes h1, Ran.andThen_done, ih h2]

theorem forComps_cases (cs : List (Fin 3)) (s : State) :
    (∃ t, BlocksDecode cs s t ∧ forComps decodeBlock cs s = .done () t) ∨
    ∃ f u, f ≠ .none ∧ Decoded cs s u ∧ forComps decodeBlock cs s = .raised (raise f u) := by
  induction cs generalizing s with
  | nil => exact .inl ⟨s, rfl, rfl⟩
  | cons c cs ih =>
    rcases decodeBlock_cases c s with ⟨m, h1, e1⟩ | ⟨f, u, h0, h1, e1⟩
    · rcases ih m with ⟨t, h2, e2⟩ | ⟨f, u, h0, h2, e2⟩
      · exact .inl ⟨t, ⟨m, h1, h2⟩, by rw [forComps, e1, Ran.andThen_done, e2]⟩
      · exact .inr ⟨f, u, h0, (h1.decoded.mono (by simp)).trans (h2.mono (by simp +contextual)),
          by rw [forComps, e1, Ran.andThen_done, e2]⟩
    · exact .inr ⟨f, u, h0, h1.mono (by simp), by rw [forComps, e1, Ran.andThen_raised]⟩

theorem BlocksDecode.decoded (h : BlocksDecode cs s t) : Decoded cs s t := by
  induction cs generalizing s with
  | nil => obtain rfl := h; exact .refl _ _
  | cons c cs ih =>
    obtain ⟨m, h1, h2⟩ := h
    exact (h1.decoded.mono (by simp)).trans ((ih h2).mono (by simp +contextual))

theorem mem_all : ∀ c : Fin 3, c ∈ [(0 : Fin 3), 1, 2] := by decide

theorem decoded_restartCheck (s : State) : Decoded [0, 1, 2] s (restartCheck s) := by
  unfold restartCheck
  split
  · obtain ⟨p, e⟩ := align_atPos (clearPred s)
    have hp := (cursorPos_align (clearPred s)).1
    have hlt : cursorPos (atPos p (clearPred s)) < 34359738368 := cursorPos_lt _
    have h1 : Decoded [0, 1, 2] s (clearPred s) :=
      ⟨rfl, le_rfl, le_max_left _ _, fun e he => absurd (mem_all e) he, fun _ _ _ _ _ _ => rfl, id, fun _ _ => id⟩
    have h2 : Decoded [0, 1, 2] (clearPred s) (align (clearPred s)) := by
      rw [e]
      exact ⟨rfl, e ▸ hp, e ▸ cursorPos_align_le _, fun _ _ => rfl, fun _ _ _ _ _ _ => rfl, id, fun _ _ => id⟩
    exact h1.trans h2
  · exact .refl _ _

theorem restartCheck_grid (s : State) : (restartCheck s).grid = s.grid := by
  unfold restartCheck
  split
  · obtain ⟨p, e⟩ := align_atPos (clearPred s)
    rw [e]; rfl
  · rfl

theorem UnitOrder.eq (h : UnitOrder s cs) : cs = components s := by
  rcases h with ⟨h, rfl⟩ | ⟨h, rfl⟩
  · have : s.ncomp ≠ 3#2 := fun e => by simp [e] at h
    rw [components, if_neg this]
  · have : s.ncomp = 3#2 := BitVec.eq_of_toNat_eq (by simpa using h)
    rw [components, if_pos this]

theorem unitOrder_components (h : s.ncomp.toNat = 1 ∨ s.ncomp.toNat = 3) : UnitOrder s (components s) := by
  rcases h with h | h
  · exact (UnitOrder.eq (.inl ⟨h, rfl⟩)) ▸ .inl ⟨h, rfl⟩
  · exact (UnitOrder.eq (.inr ⟨h, rfl⟩)) ▸ .inr ⟨h, rfl⟩

theorem nextUnit_eq (s : State) : nextUnit s = unitCounted s := by
  unfold nextUnit unitCounted; split <;> rfl

theorem decodeUnit_of_decodes (h : UnitDecodes s t) : decodeUnit s = .done () t := by
  obtain ⟨cs, m, hc, h1, rfl⟩ := h
  rw [decodeUnit, ← hc.eq, forComps_of_decodes h1, Ran.andThen_done, nextUnit_eq]

theorem decodeUnit_cases (s : State) (hc : s.ncomp.toNat = 1 ∨ s.ncomp.toNat = 3) :
    (∃ t, UnitDecodes s t ∧ decodeUnit s = .done () t) ∨
    ∃ f u, f ≠ .none ∧ Decoded [0, 1, 2] s u ∧ decodeUnit s = .raised (raise f u) := by
  rcases forComps_cases (components s) (restartCheck s) with ⟨m, h1, e⟩ | ⟨f, u, h0, h1, e⟩
  · exact .inl ⟨_, ⟨_, m, unitOrder_components hc, h1, (nextUnit_eq m)⟩, by rw [decodeUnit, e, Ran.andThen_done]⟩
  · refine .inr ⟨f, u, h0, (decoded_restartCheck s).trans (h1.mono fun c _ => mem_all c),
      by rw [decodeUnit, e, Ran.andThen_raised]⟩

/-- What one unit changes: as decoding, and then the unit counter and at the end of the scan the phase. -/
theorem UnitDecodes.decoded (h : UnitDecodes s t) :
    ∃ m, Decoded [0, 1, 2] s m ∧ t = nextUnit m ∧
      ∀ u p i : Nat, p < 3 → i < 64 → ¬ (u = s.blkIdx.toNat ∧ ∃ e ∈ components s, p = e.val) →
        m.grid.word u p i = s.grid.word u p i := by
  obtain ⟨cs, m, hc, h1, rfl⟩ := h
  obtain rfl := hc.eq
  refine ⟨m, (decoded_restartCheck s).trans (h1.decoded.mono fun c _ => mem_all c), (nextUnit_eq m).symm,
    fun u p i hp hi hn => ?_⟩
  rw [h1.decoded.grid u p i hp hi (by rw [(decoded_restartCheck s).blkIdx]; exact hn), restartCheck_grid]

end Sys2Proof.Machine
end

