-- ==== Sys2Proof/Laws/Scan.lean ====
section
/-! SUPPORT. The laws of the checks every command begins with, of one unit as a command and of the scan loop
(41_huffman_engine R156 to R163). -/

namespace Sys2Proof.Machine

variable {s t u : State} {c : Fin 3}

/-! ## Checks -/

theorem require_pos {α : Type} {cond : Bool} (h : cond = true) (f : FaultCode) (s : State) (go : State → Ran α) :
    require cond f s go = go s := by simp [require, h]

theorem require_neg {α : Type} {cond : Bool} (h : cond = false) (f : FaultCode) (s : State) (go : State → Ran α) :
    require cond f s go = .raised (raise f s) := by simp [require, h]

theorem ncompOk_iff (s : State) : ncompOk s = true ↔ s.ncomp.toNat = 1 ∨ s.ncomp.toNat = 3 := by
  simp [ncompOk, BitVec.toNat_eq]

theorem tableReady_iff (s : State) (k : HuffClass) (t : Fin 4) : tableReady s k t = true ↔ Ready s k t := by
  simp [tableReady, Ready]

theorem mem_components (h : s.ncomp.toNat = 1 ∨ s.ncomp.toNat = 3) (c : Fin 3) :
    c ∈ components s ↔ c.val < s.ncomp.toNat := by
  rcases h with h | h
  · have : s.ncomp ≠ 3#2 := fun e => by simp [e] at h
    rw [components, if_neg this, h, List.mem_singleton, Fin.ext_iff]; simp
  · have : s.ncomp = 3#2 := BitVec.eq_of_toNat_eq (by simpa using h)
    rw [components, if_pos this, h]; simp [mem_all c]

theorem blockChecks_ready (h : BlockReady c s) {tables : State → Bool} (ht : tables s = true) (go : State → Ran Unit) :
    blockChecks c tables s go = go s := by
  obtain ⟨_, h2, h3, h4⟩ := h
  rw [blockChecks, require_pos (by simp [h2]), require_pos (by simp [ncompOk_iff, h3, h4]), require_pos ht]

theorem blockChecks_sequence (h : s.phase ≠ .decode) (tables : State → Bool) (go : State → Ran Unit) :
    blockChecks c tables s go = .raised (raise .sequence s) := by
  rw [blockChecks, require_neg (by simp [h])]

theorem blockChecks_config (h : s.phase = .decode)
    (h' : ¬ ((s.ncomp.toNat = 1 ∨ s.ncomp.toNat = 3) ∧ c.val < s.ncomp.toNat)) (tables : State → Bool)
    (go : State → Ran Unit) : blockChecks c tables s go = .raised (raise .config s) := by
  rw [blockChecks, require_pos (by simp [h]), require_neg]
  rw [← ncompOk_iff] at h'
  simpa using h'

theorem blockChecks_table (h : s.phase = .decode) (h2 : s.ncomp.toNat = 1 ∨ s.ncomp.toNat = 3)
    (h3 : c.val < s.ncomp.toNat) {tables : State → Bool} (ht : tables s = false) (go : State → Ran Unit) :
    blockChecks c tables s go = .raised (raise .table s) := by
  rw [blockChecks, require_pos (by simp [h]), require_pos (by simp [ncompOk_iff, h2, h3]), require_neg ht]

/-- The checks of DECDC, DECAC and DECBLK either let the command through or raise before anything has changed. -/
theorem blockChecks_cases (c : Fin 3) (tables : State → Bool) (s : State) (go : State → Ran Unit) :
    (s.phase = .decode ∧ (s.ncomp.toNat = 1 ∨ s.ncomp.toNat = 3) ∧ c.val < s.ncomp.toNat ∧ tables s = true ∧
      blockChecks c tables s go = go s) ∨
    ∃ f, f ≠ .none ∧ blockChecks c tables s go = .raised (raise f s) := by
  by_cases h1 : s.phase = .decode
  · by_cases h2 : (s.ncomp.toNat = 1 ∨ s.ncomp.toNat = 3) ∧ c.val < s.ncomp.toNat
    · cases h3 : tables s
      · exact .inr ⟨.table, by simp, blockChecks_table h1 h2.1 h2.2 h3 go⟩
      · refine .inl ⟨h1, h2.1, h2.2, h3.symm ▸ rfl, ?_⟩
        rw [blockChecks, require_pos (by simp [h1]), require_pos (by simp [ncompOk_iff, h2.1, h2.2]), require_pos h3]
    · exact .inr ⟨.config, by simp, blockChecks_config h1 h2 tables go⟩
  · exact .inr ⟨.sequence, by simp, blockChecks_sequence h1 tables go⟩

@[simp] theorem compIndex_compArg (c : Fin 3) : compIndex (compArg c) = some c := by revert c; decide

theorem compCommand_compArg {α : Type} (c : Fin 3) (body : Fin 3 → State → Ran α) (s : State) :
    compCommand (compArg c) body s = command (body c) s := by simp [compCommand]

theorem command_valid {α : Type} {body : State → Ran α} (h : s.valid = true) :
    command body s = .next (body s).state := by simp [command, h]

theorem command_invalid {α : Type} {body : State → Ran α} (h : s.valid = false) :
    command body s = .next s := by simp [command, h]

theorem plainCommand_valid {f : State → State} (h : s.valid = true) : plainCommand f s = .next (f s) := by
  simp [plainCommand, h]

theorem plainCommand_invalid {f : State → State} (h : s.valid = false) : plainCommand f s = .next s := by
  simp [plainCommand, h]

/-! ## DECMCU -/

theorem allReady_iff (h : s.ncomp.toNat = 1 ∨ s.ncomp.toNat = 3) :
    allReady s = true ↔
      ∀ c : Fin 3, c.val < s.ncomp.toNat → Ready s .dc (dcTableOf s c) ∧ Ready s .ac (acTableOf s c) := by
  simp [allReady, dcReady, acReady, tableReady_iff, mem_components h]

theorem decmcuBody_ready (h : UnitReady s) : decmcuBody s = decodeUnit s := by
  obtain ⟨_, h2, h3, h4⟩ := h
  rw [decmcuBody, require_pos (by simp [h2]), require_pos ((ncompOk_iff s).mpr h3),
    require_pos ((allReady_iff h3).mpr h4)]

/-- DECMCU decodes a unit or raises; up to the raise it has changed what decoding changes. -/
theorem decmcuBody_cases (hv : s.valid = true) :
    (UnitReady s ∧ ∃ t, UnitDecodes s t ∧ decmcuBody s = .done () t) ∨
    ∃ f u, f ≠ .none ∧ Decoded [0, 1, 2] s u ∧ decmcuBody s = .raised (raise f u) := by
  by_cases h1 : s.phase = .decode
  · by_cases h2 : s.ncomp.toNat = 1 ∨ s.ncomp.toNat = 3
    · by_cases h3 : allReady s = true
      · have hr : UnitReady s := ⟨hv, h1, h2, (allReady_iff h2).mp h3⟩
        rcases decodeUnit_cases s h2 with ⟨t, h, e⟩ | ⟨f, u, h0, h, e⟩
        · exact .inl ⟨hr, t, h, by rw [decmcuBody_ready hr, e]⟩
        · exact .inr ⟨f, u, h0, h, by rw [decmcuBody_ready hr, e]⟩
      · refine .inr ⟨.table, s, by simp, .refl _ _, ?_⟩
        rw [decmcuBody, require_pos (by simp [h1]), require_pos ((ncompOk_iff s).mpr h2), require_neg (by simpa using h3)]
    · refine .inr ⟨.config, s, by simp, .refl _ _, ?_⟩
      rw [← ncompOk_iff] at h2
      rw [decmcuBody, require_pos (by simp [h1]), require_neg (by simpa using h2)]
  · refine .inr ⟨.sequence, s, by simp, .refl _ _, ?_⟩
    rw [decmcuBody, require_neg (by simp [h1])]

/-! ## The scan -/

theorem nextUnit_blkIdx (s : State) : (nextUnit s).blkIdx = s.blkIdx + 1 := by unfold nextUnit; split <;> rfl

theorem nextUnit_phase (s : State) :
    (nextUnit s).phase = if s.blkIdx + 1 = s.nUnits then .coef else s.phase := by unfold nextUnit; split <;> rfl

/-- The end of a unit changes the unit counter and the phase. -/
theorem nextUnit_frame (s : State) :
    nextUnit s = { s with blkIdx := (nextUnit s).blkIdx, phase := (nextUnit s).phase } := by
  unfold nextUnit; split <;> rfl

/-- What a unit leaves of everything but the cursor, the predictors and the cells. -/
theorem UnitDecodes.frame (h : UnitDecodes s t) :
    t = { s with byteIdx := t.byteIdx, bitIdx := t.bitIdx, pred := t.pred, blkIdx := s.blkIdx + 1,
                 phase := if s.blkIdx + 1 = s.nUnits then .coef else s.phase,
                 grid := { s.grid with cells := t.grid.cells } } := by
  obtain ⟨m, hm, rfl, _⟩ := h.decoded
  have e := hm.frame
  have e2 := nextUnit_frame m
  have h1 : m.blkIdx = s.blkIdx := hm.blkIdx
  have h2 : m.nUnits = s.nUnits := by rw [e]
  have h3 : m.phase = s.phase := by rw [e]
  rw [nextUnit_blkIdx, nextUnit_phase, h1, h2, h3] at e2
  rw [e2]
  conv_lhs => rw [e]

theorem UnitDecodes.ready (h : UnitDecodes s t) (hr : UnitReady s) (hp : t.phase = .decode) : UnitReady t := by
  have e := h.frame
  obtain ⟨h1, h2, h3, h4⟩ := hr
  refine ⟨by rw [e]; exact h1, hp, by rw [e]; exact h3, fun c hc => ?_⟩
  have := h4 c (by rw [e] at hc; exact hc)
  rw [e]
  exact this

theorem unitsLeft_next (hb : t.blkIdx = s.blkIdx + 1) (hn : t.nUnits = s.nUnits) (hne : s.blkIdx + 1 ≠ s.nUnits) :
    unitsLeft s = unitsLeft t + 1 := by
  unfold unitsLeft
  rw [hb, hn]
  bv_omega

/-- The scan loop on units that stand in the stream. -/
theorem scanFrom_of_decodes (h : ScanDecodes s t) (hr : UnitReady s) :
    scanFrom (unitsLeft s) s = .done () t ∧ t.blkIdx = s.nUnits ∧ t.phase = .coef := by
  induction h with
  | last s t hu hp =>
    have e := hu.frame
    have hb : s.blkIdx + 1 = s.nUnits := by
      by_contra hne
      have : t.phase = s.phase := (congrArg State.phase e).trans (if_neg hne)
      rw [hr.2.1, hp] at this
      exact absurd this (by simp)
    refine ⟨?_, by rw [e]; simpa using hb, hp⟩
    rw [unitsLeft, scanFrom, if_pos hr.2.1, decmcuBody_ready hr, decodeUnit_of_decodes hu, Ran.andThen_done]
    cases (s.nUnits - s.blkIdx - 1).toNat with
    | zero => rfl
    | succ n => rw [scanFrom, if_neg (by simp [hp])]
  | more s m t hu hp hs ih =>
    have e := hu.frame
    have hne : s.blkIdx + 1 ≠ s.nUnits := fun hb => by
      have : m.phase = .coef := (congrArg State.phase e).trans (if_pos hb)
      rw [hp] at this; exact absurd this (by simp)
    have hm : m.nUnits = s.nUnits := by rw [e]
    obtain ⟨i1, i2, i3⟩ := ih (hu.ready hr hp)
    refine ⟨?_, by rw [i2, hm], i3⟩
    rw [unitsLeft_next (t := m) (by rw [e]) hm hne, scanFrom, if_pos hr.2.1, decmcuBody_ready hr,
      decodeUnit_of_decodes hu, Ran.andThen_done, i1]

theorem execTimes_invalid (h : s.valid = false) (n : Nat) : execTimes .decmcu n s = .next s := by
  induction n with
  | zero => rfl
  | succ n ih =>
    rw [execTimes]
    have : exec .decmcu s = .next s := command_invalid h
    rw [this]; exact ih

/-- As long as the scan lasts, its loop is the same as so many DECMCU commands (41_huffman_engine R163). -/
theorem execTimes_decmcu {n : Nat} (hv : s.valid = true) (hp : s.phase = .decode) (hn : n ≤ unitsLeft s) :
    execTimes .decmcu n s = .next (scanFrom n s).state := by
  induction n generalizing s with
  | zero => rfl
  | succ n ih =>
    have e : exec .decmcu s = .next (decmcuBody s).state := command_valid hv
    rw [execTimes, e, scanFrom, if_pos hp]
    simp only []
    rcases decmcuBody_cases hv with ⟨hr, t, hu, e1⟩ | ⟨f, u, h0, _, e1⟩
    · rw [e1, Ran.state_done, Ran.andThen_done]
      have ef := hu.frame
      by_cases hb : s.blkIdx + 1 = s.nUnits
      · have : n = 0 := by
          have h1 : s.nUnits - s.blkIdx - 1 = 0 := by rw [← hb]; ring
          have : unitsLeft s = 1 := by unfold unitsLeft; rw [h1]; rfl
          omega
        subst this
        rfl
      · have hp' : t.phase = .decode := ((congrArg State.phase ef).trans (if_neg hb)).trans hp
        have := unitsLeft_next (s := s) (t := t) (by rw [ef]) (by rw [ef]) hb
        exact ih (by rw [ef]; exact hv) hp' (by omega)
    · rw [e1, Ran.state_raised, Ran.andThen_raised, Ran.state_raised, execTimes_invalid (by rfl)]

end Sys2Proof.Machine
end

