-- ==== Sys2Proof/Laws/Breaks.lean ====
section
/-! SUPPORT. Where a stream breaks (41_huffman_engine R166, 60_exceptions R276): a procedure on an item that breaks raises the
fault the grammar of breaks names, and an item that is not good breaks. -/

namespace Sys2Proof.Machine

variable {s t u : State} {c : Fin 3} {cs : List (Fin 3)}

/-- At any position a first match stands or no code does. -/
theorem firstMatch_or_noCode (s : State) (k : HuffClass) (i : Fin 4) {p : Nat} (hp : p < 34359738368) :
    (∃ l j, FirstMatch s k i p l j) ∨ NoCode s k i p := by
  rcases decodeSymbol_cases (atPos p s) k i with ⟨l, j, hf, _⟩ | ⟨hn, _⟩
  · rw [cursorPos_atPos _ hp, firstMatch_atPos] at hf
    exact .inl ⟨l, j, hf⟩
  · rw [cursorPos_atPos _ hp, noCode_atPos] at hn
    exact .inr hn

/-! ## DC items -/

theorem decodeDC_of_breaks (h : DcBreaks c s u) : decodeDC c s = .raised u := by
  rcases h with ⟨hn, rfl⟩ | ⟨l, j, hf, h⟩ | ⟨diff, p', hd, hfit, rfl⟩
  · rw [decodeDC, decodeSymbol_of_noCode hn]; rfl
  · have hl := hf.lt
    rw [decodeDC, decodeSymbol_of_firstMatch hf, Ran.andThen_done, decodeDc_eq]
    rcases h with ⟨h12, rfl⟩ | ⟨h11, hend, rfl⟩
    · rw [if_neg (by omega)]; rfl
    · rw [if_pos h11]
      show symDccat _ c _ = _
      rw [symDccat_eq, if_neg (by rw [cursorPos_atPos _ hl.1, streamEnd_atPos]; omega), atEnd, cursorPos_atPos _ hl.1,
        streamEnd_atPos, atPos_atPos, max_eq_right hl.2.2]
  · rw [decodeDC_of_item s c hd, if_neg (by simp [hfit])]

theorem dc_good_or_breaks (c : Fin 3) (s : State) :
    (∃ diff p', DcItem s (dcTableOf s c) (cursorPos s) diff p' ∧ fits (predAt s c + diff) = true) ∨
      ∃ u, DcBreaks c s u := by
  rcases firstMatch_or_noCode s .dc (dcTableOf s c) (cursorPos_lt s) with ⟨l, j, hf⟩ | hn
  · by_cases h11 : (symAt s .dc (dcTableOf s c) j).toNat ≤ 11
    · by_cases hv : cursorPos s + l + (symAt s .dc (dcTableOf s c) j).toNat ≤ streamEnd s
      · have hd : DcItem s (dcTableOf s c) (cursorPos s) _ _ := ⟨l, j, hf, h11, rfl, hv, rfl⟩
        cases hfit : fits (predAt s c + extend (streamField s (cursorPos s + l) (symAt s .dc (dcTableOf s c) j).toNat)
          (symAt s .dc (dcTableOf s c) j).toNat)
        · exact .inr ⟨_, .inr (.inr ⟨_, _, hd, hfit, rfl⟩)⟩
        · exact .inl ⟨_, _, hd, hfit⟩
      · exact .inr ⟨_, .inr (.inl ⟨l, j, hf, .inr ⟨h11, by omega, rfl⟩⟩)⟩
    · exact .inr ⟨_, .inr (.inl ⟨l, j, hf, .inl ⟨by omega, rfl⟩⟩)⟩
  · exact .inr ⟨_, .inl ⟨hn, rfl⟩⟩

/-! ## AC items -/

/-- A fault raised behind stored coefficients is the fault raised without them. -/
theorem lostCode_storeCoefs (m p : Nat) (vs : List Int) (hp : p < 34359738368) :
    lostCode p (storeCoefs c m vs s) = lostCode p s := by
  unfold lostCode atEnd
  simp only [streamEnd_atPos, streamEnd_storeCoefs, atPos_atPos, raise_atPos_storeCoefs, cursorPos_atPos _ hp]

/-- The loop of `DecodeAC` on an item that breaks. -/
theorem decodeACFrom_of_breaks {n k m q : Nat} {ws : List Int} (hq : q < 34359738368) (hk : k < 64)
    (h : AcItemBreaks s (acTableOf s c) k q u) :
    decodeACFrom c (n + 1) k (atPos q (storeCoefs c m ws s)) = .raised u := by
  rcases h with ⟨hn, rfl⟩ | ⟨l, j, hf, h⟩
  · have hn' : NoCode (atPos q (storeCoefs c m ws s)) .ac (acTableOf (atPos q (storeCoefs c m ws s)) c)
        (cursorPos (atPos q (storeCoefs c m ws s))) := by
      rw [cursorPos_atPos _ hq]; simpa using hn
    rw [decodeACFrom, if_pos hk, decodeSymbol_of_noCode hn', Ran.andThen_raised, cursorPos_atPos _ hq, ← storeCoefs_atPos,
      lostCode_storeCoefs _ _ _ hq]
    unfold lostCode
    simp only [streamEnd_atPos, atPos_atPos]
    rfl
  · have hl := hf.lt
    have hb := (symAt s .ac (acTableOf s c) j).isLt
    have hrun : (BitVec.ofNat 4 ((symAt s .ac (acTableOf s c) j).toNat / 16)).toNat =
        (symAt s .ac (acTableOf s c) j).toNat / 16 := by simp only [BitVec.toNat_ofNat]; omega
    have hsize : (BitVec.ofNat 4 ((symAt s .ac (acTableOf s c) j).toNat % 16)).toNat =
        (symAt s .ac (acTableOf s c) j).toNat % 16 := by simp only [BitVec.toNat_ofNat]; omega
    rw [decodeACFrom_symbol s c hq hk hf, decodeAc_eq]
    rcases h with ⟨h11, rfl⟩ | ⟨h10, hne, hge, rfl⟩ | ⟨h1, h10, hlt, hend, rfl⟩
    · rw [if_neg (by omega), if_neg (by omega), if_neg (by omega), if_neg (by omega)]
      simp only [runAcSym, symAcbad, Ran.andThen_raised, raise_atPos_storeCoefs]
    · rw [if_neg (by omega)]
      by_cases h240 : (symAt s .ac (acTableOf s c) j).toNat = 240
      · rw [if_pos (by omega)] at hge
        rw [if_pos h240]
        simp only [runAcSym, symZrl, zeroRun_eq, if_neg (by omega : ¬ k + 16 < 64), Ran.andThen_raised,
          raise_atPos_storeCoefs]
      · rw [if_neg (by omega)] at hge
        rw [if_neg h240]
        by_cases h0 : (symAt s .ac (acTableOf s c) j).toNat % 16 = 0
        · rw [if_pos h0]
          simp only [runAcSym, symZrun, hrun, zeroRun_eq, if_neg (by omega :
            ¬ k + (symAt s .ac (acTableOf s c) j).toNat / 16 < 64), Ran.andThen_raised, raise_atPos_storeCoefs]
        · rw [if_neg h0, if_pos (by omega)]
          simp only [runAcSym, symAccoef_eq, hrun, if_neg (by omega :
            ¬ k + (symAt s .ac (acTableOf s c) j).toNat / 16 < 64), Ran.andThen_raised, raise_atPos_storeCoefs]
    · rw [if_neg (by omega), if_neg (by omega), if_neg (by omega), if_pos (by omega)]
      have hv : ¬ ((symAt s .ac (acTableOf s c) j).toNat % 16 = 0 ∨
        q + l + (symAt s .ac (acTableOf s c) j).toNat % 16 ≤ streamEnd s) := by omega
      simp only [runAcSym, symAccoef_eq, hrun, hsize, if_pos hlt, cursorPos_atPos _ hl.1, streamEnd_atPos,
        streamEnd_storeCoefs, if_neg hv, Ran.andThen_raised, atEnd, atPos_atPos, raise_atPos_storeCoefs,
        max_eq_right hl.2.2]

theorem decodeAC_of_breaks (h : AcBreaks c s u) : decodeAC c s = .raised u := by
  obtain ⟨vs, k, q, ha, hk, hb⟩ := h
  have h1 := ha.bounds (by omega)
  have hp := cursorPos_lt s
  have hle := streamEnd_le s
  obtain ⟨n', hn', e⟩ := decodeACFrom_of_items s c ha (by omega) hp (n := 63) (m := 1) (ws := []) (by omega) rfl
  obtain ⟨n, rfl⟩ : ∃ n, n' = n + 1 := ⟨n' - 1, by omega⟩
  simp only [storeCoefs, atPos_cursorPos, List.nil_append] at e
  rw [decodeAC, e, decodeACFrom_of_breaks (by omega) hk hb]

/-- One AC item breaks, or it is good and the next position is reached. -/
theorem acItem_good_or_breaks {tab : Fin 4} {k p : Nat} (hk : k < 64) (hp : p < 34359738368) :
    (∃ us k2 p2, k < k2 ∧ k2 ≤ 64 ∧ p2 < 34359738368 ∧
      ∀ vs k' p', k2 < 64 ∨ (vs = [] ∧ k' = 64 ∧ p' = p2) → AcItems s tab k2 p2 vs k' p' →
        AcItems s tab k p (us ++ vs) k' p') ∨
    ∃ u, AcItemBreaks s tab k p u := by
  have hle := streamEnd_le s
  rcases firstMatch_or_noCode s .ac tab hp with ⟨l, j, hf⟩ | hn
  · have hl := hf.lt
    have hb := (symAt s .ac tab j).isLt
    have brk : ∀ {u}, _ → ∃ u, AcItemBreaks s tab k p u := fun {u} h => ⟨u, .inr ⟨l, j, hf, h⟩⟩
    by_cases h11 : 11 ≤ (symAt s .ac tab j).toNat % 16
    · exact .inr (brk (.inl ⟨h11, rfl⟩))
    by_cases h0 : (symAt s .ac tab j).toNat = 0
    · refine .inl ⟨List.replicate (64 - k) 0, 64, p + l, by omega, le_rfl, hl.1, fun vs k' p' h _ => ?_⟩
      obtain ⟨rfl, rfl, rfl⟩ := h.resolve_left (by omega)
      rw [List.append_nil]
      exact .eob k p l j hk hf h0
    by_cases h240 : (symAt s .ac tab j).toNat = 0xF0
    · by_cases hr : k + 16 < 64
      · exact .inl ⟨_, k + 16, p + l, by omega, by omega, hl.1, fun vs k' p' _ h => .zrl k p l j vs k' p' hf h240 hr h⟩
      · exact .inr (brk (.inr (.inl ⟨by omega, by omega, by rw [if_pos (by omega)]; omega, rfl⟩)))
    by_cases hr : k + (symAt s .ac tab j).toNat / 16 < 64
    · by_cases hz : (symAt s .ac tab j).toNat % 16 = 0
      · exact .inl ⟨_, _, p + l, by omega, by omega, hl.1, fun vs k' p' _ h =>
          .zrun k p l j ((symAt s .ac tab j).toNat / 16) vs k' p' hf (by omega) (by omega) (by omega) hr h⟩
      · by_cases hv : p + l + (symAt s .ac tab j).toNat % 16 ≤ streamEnd s
        · refine .inl ⟨List.replicate ((symAt s .ac tab j).toNat / 16) 0 ++ [extend (streamField s (p + l)
              ((symAt s .ac tab j).toNat % 16)) ((symAt s .ac tab j).toNat % 16)], k + (symAt s .ac tab j).toNat / 16 + 1,
            p + l + (symAt s .ac tab j).toNat % 16, by omega, by omega, by omega, fun vs k' p' _ h => ?_⟩
          rw [List.append_assoc]
          exact .coef k p l j ((symAt s .ac tab j).toNat / 16) ((symAt s .ac tab j).toNat % 16) vs k' p' hf (by omega)
            (by omega) (by omega) hr hv h
        · exact .inr (brk (.inr (.inr ⟨by omega, by omega, hr, by omega, rfl⟩)))
    · exact .inr (brk (.inr (.inl ⟨by omega, by omega, by rw [if_neg (by omega)]; omega, rfl⟩)))
  · exact .inr ⟨_, .inl ⟨hn, rfl⟩⟩

theorem ac_good_or_breaks_from {tab : Fin 4} (n : Nat) {k p : Nat} (hn : 64 ≤ n + k) (hk : k ≤ 64) (hp : p < 34359738368) :
    (∃ vs p', AcItems s tab k p vs 64 p') ∨
    ∃ vs k' q u, AcItems s tab k p vs k' q ∧ k' < 64 ∧ AcItemBreaks s tab k' q u := by
  induction n generalizing k p with
  | zero =>
    obtain rfl : k = 64 := by omega
    exact .inl ⟨[], p, .nil _ _⟩
  | succ n ih =>
    rcases Nat.lt_or_eq_of_le hk with hk | rfl
    · rcases acItem_good_or_breaks (s := s) (tab := tab) hk hp with ⟨us, k2, p2, h1, h2, h3, ext⟩ | ⟨u, h⟩
      · rcases Nat.lt_or_eq_of_le h2 with hk2 | rfl
        · rcases ih (k := k2) (p := p2) (by omega) h2 h3 with ⟨vs, p', h⟩ | ⟨vs, k', q, u, h, hk', hb⟩
          · exact .inl ⟨_, p', ext vs 64 p' (.inl hk2) h⟩
          · exact .inr ⟨_, k', q, u, ext vs k' q (.inl hk2) h, hk', hb⟩
        · exact .inl ⟨_, p2, ext [] 64 p2 (.inr ⟨rfl, rfl, rfl⟩) (.nil _ _)⟩
      · exact .inr ⟨[], k, p, u, .nil _ _, hk, h⟩
    · exact .inl ⟨[], p, .nil _ _⟩

theorem ac_good_or_breaks (c : Fin 3) (s : State) :
    (∃ vs p', AcItems s (acTableOf s c) 1 (cursorPos s) vs 64 p') ∨ ∃ u, AcBreaks c s u := by
  rcases ac_good_or_breaks_from (s := s) (tab := acTableOf s c) 63 (k := 1) (by omega) (by omega) (cursorPos_lt s) with
    h | ⟨vs, k, q, u, h⟩
  · exact .inl h
  · exact .inr ⟨u, vs, k, q, h⟩

/-! ## Blocks and units -/

/-- A grammar of breaks does not see what was stored before. -/
theorem acBreaks_storeCoefs {p m : Nat} {vs : List Int} (hp : p < 34359738368) (h : AcBreaks c (atPos p s) u) :
    AcBreaks c (atPos p (storeCoefs c m vs s)) u := by
  obtain ⟨ws, k, q, ha, hk, hb⟩ := h
  have h1 := ha.bounds (by omega)
  have hle := streamEnd_le s
  rw [cursorPos_atPos _ hp, streamEnd_atPos] at h1
  refine ⟨ws, k, q, ?_, hk, ?_⟩
  · rw [cursorPos_atPos _ hp] at ha ⊢
    refine AcItems.congr (s := atPos p s) ?_ ?_ ?_ ?_ ?_
    all_goals first | (simp; done) | simpa using ha
  · have hq : q < 34359738368 := by omega
    have e : lostCode q (atPos p (storeCoefs c m vs s)) = lostCode q (atPos p s) := by
      rw [← storeCoefs_atPos, lostCode_storeCoefs _ _ _ hq]
    unfold AcItemBreaks at hb ⊢
    simpa [e, raise_atPos_storeCoefs] using hb

theorem decodeBlock_of_breaks (h : BlockBreaks c s u) : decodeBlock c s = .raised u := by
  rcases h with h | ⟨diff, q, hd, hfit, h⟩
  · rw [decodeBlock, decodeDC_of_breaks h, Ran.andThen_raised]
  · rw [decodeBlock, decodeDC_of_item s c hd, if_pos hfit, Ran.andThen_done]
    exact decodeAC_of_breaks (acBreaks_storeCoefs (m := 0) (vs := [predAt s c + diff]) hd.bounds.2.1 h)

theorem block_good_or_breaks (c : Fin 3) (s : State) : ∃ t, BlockDecodes c s t ∨ BlockBreaks c s t := by
  rcases dc_good_or_breaks c s with ⟨diff, q, hd, hfit⟩ | ⟨u, h⟩
  · rcases ac_good_or_breaks c (atPos q (setPred c (predAt s c + diff) s)) with ⟨vs, p', ha⟩ | ⟨u, h⟩
    · refine ⟨_, .inl ⟨diff, q, vs, p', hd, hfit, ?_, rfl⟩⟩
      rw [cursorPos_atPos _ hd.bounds.2.1] at ha
      refine AcItems.congr (s := atPos q (setPred c (predAt s c + diff) s)) ?_ ?_ ?_ ?_ ?_
      all_goals first | simp | simpa using ha
    · exact ⟨u, .inr (.inr ⟨diff, q, hd, hfit, h⟩)⟩
  · exact ⟨u, .inr (.inl h)⟩

theorem forComps_of_breaks (h : BlocksBreak cs s u) : forComps decodeBlock cs s = .raised u := by
  induction cs generalizing s with
  | nil => exact h.elim
  | cons c cs ih =>
    rcases h with h | ⟨m, h1, h2⟩
    · rw [forComps, decodeBlock_of_breaks h, Ran.andThen_raised]
    · rw [forComps, decodeBlock_of_decodes h1, Ran.andThen_done, ih h2]

theorem blocks_good_or_break (cs : List (Fin 3)) (s : State) : ∃ t, BlocksDecode cs s t ∨ BlocksBreak cs s t := by
  induction cs generalizing s with
  | nil => exact ⟨s, .inl rfl⟩
  | cons c cs ih =>
    obtain ⟨m, h | h⟩ := block_good_or_breaks c s
    · obtain ⟨t, h' | h'⟩ := ih m
      · exact ⟨t, .inl ⟨m, h, h'⟩⟩
      · exact ⟨t, .inr (.inr ⟨m, h, h'⟩)⟩
    · exact ⟨m, .inr (.inl h)⟩

theorem decodeUnit_of_breaks (h : UnitBreaks s u) : decodeUnit s = .raised u := by
  obtain ⟨cs, hc, h⟩ := h
  rw [decodeUnit, ← hc.eq, forComps_of_breaks h, Ran.andThen_raised]

theorem unit_good_or_breaks (hc : s.ncomp.toNat = 1 ∨ s.ncomp.toNat = 3) : ∃ t, UnitDecodes s t ∨ UnitBreaks s t := by
  obtain ⟨m, h | h⟩ := blocks_good_or_break (components s) (restartCheck s)
  · exact ⟨_, .inl ⟨_, m, unitOrder_components hc, h, rfl⟩⟩
  · exact ⟨m, .inr ⟨_, unitOrder_components hc, h⟩⟩

/-- The scan loop on a scan that breaks. -/
theorem scanFrom_of_breaks (h : ScanBreaks s u) (hr : UnitReady s) : scanFrom (unitsLeft s) s = .raised u := by
  induction h with
  | here s u h =>
    rw [unitsLeft, scanFrom, if_pos hr.2.1, decmcuBody_ready hr, decodeUnit_of_breaks h, Ran.andThen_raised]
  | later s m u hu hp _ ih =>
    have e := hu.frame
    have hne : s.blkIdx + 1 ≠ s.nUnits := fun hb => by
      have : m.phase = .coef := (congrArg State.phase e).trans (if_pos hb)
      rw [hp] at this; exact absurd this (by simp)
    rw [unitsLeft_next (t := m) (by rw [e]) (by rw [e]) hne, scanFrom, if_pos hr.2.1, decmcuBody_ready hr,
      decodeUnit_of_decodes hu, Ran.andThen_done, ih (hu.ready hr hp)]

end Sys2Proof.Machine
end

