-- ==== Sys2Proof/Laws/Stages.lean ====
section
/-! SUPPORT. The laws of the three grid stages (43_dequantizer R200, R201; 44_inverse_dct R217; 45_color_converter R234):
each block or sample gets a value computed from its own old contents, whatever the order of the visits, and nothing
else changes. -/

namespace Sys2Proof.Machine

/-! ## Writing one block -/

/-- `g'` is `g` with the block `GRID[u][c]` replaced by the values `v`. -/
structure BlockSet (u : Nat) (c : Fin 3) (v : Nat → Int) (g g' : Grid) : Prop where
  epoch : g'.epoch = g.epoch
  inside : ∀ i, i < 64 → g'.word u c i = BitVec.ofInt 32 (v i)
  outside : ∀ u' p i : Nat, p < 3 → i < 64 → ¬ (u' = u ∧ p = c.val) → g'.word u' p i = g.word u' p i
  wf : Memory.wf g.cells = true → Memory.wf g'.cells = true
  below : ∀ b, u * 192 + 192 ≤ b → Memory.below b g.cells = true → Memory.below b g'.cells = true

/-- `g'` is `g` with the first `n` elements of the block `GRID[u][c]` replaced by the values `v`. -/
structure PartSet (u : Nat) (c : Fin 3) (v : Nat → Int) (n : Nat) (g g' : Grid) : Prop where
  epoch : g'.epoch = g.epoch
  inside : ∀ i, i < n → g'.word u c i = BitVec.ofInt 32 (v i)
  outside : ∀ u' p i : Nat, p < 3 → i < 64 → ¬ (u' = u ∧ p = c.val ∧ i < n) → g'.word u' p i = g.word u' p i
  wf : Memory.wf g.cells = true → Memory.wf g'.cells = true
  below : ∀ b, u * 192 + 192 ≤ b → Memory.below b g.cells = true → Memory.below b g'.cells = true

variable {u : Nat} {c : Fin 3} {v : Nat → Int} {g g' : Grid}

theorem PartSet.zero (u : Nat) (c : Fin 3) (v : Nat → Int) (g : Grid) : PartSet u c v 0 g g :=
  ⟨rfl, fun i hi => by omega, fun _ _ _ _ _ _ => rfl, id, fun _ _ => id⟩

theorem PartSet.put {n : Nat} (hn : n < 64) (h : PartSet u c v n g g') :
    PartSet u c v (n + 1) g (g'.put u c n (v n)) where
  epoch := h.epoch
  inside := fun i hi => by
    by_cases e : i = n
    · subst e; simp
    · rw [Grid.word_put_other, h.inside i (by omega)]
      rw [Ne, gridKey_inj c.isLt c.isLt (by omega) hn]; omega
  outside := fun u' p i hp hi hne => by
    rw [Grid.word_put_other, h.outside u' p i hp hi (by omega)]
    rw [Ne, gridKey_inj hp c.isLt hi hn]; omega
  wf := fun hw => Memory.wf_write _ _ (h.wf hw)
  below := fun b hb hw => Memory.below_write _ (by have := c.isLt; unfold gridKey; omega) (h.below b hb hw)

theorem PartSet.full (h : PartSet u c v 64 g g') : BlockSet u c v g g' :=
  ⟨h.epoch, h.inside, fun u' p i hp hi hne => h.outside u' p i hp hi (by omega), h.wf, h.below⟩

/-! ## Block by block -/

/-- An operation on one block that gives the values `val`, computed from the block alone, where `ok` holds of it, and
nothing where it does not. -/
structure BlockOp (f : Nat → Fin 3 → Grid → Option Grid) (ok : Nat → Fin 3 → Grid → Prop)
    (val : Nat → Fin 3 → Grid → Nat → Int) : Prop where
  some : ∀ u c g, ok u c g → ∃ g', f u c g = some g' ∧ BlockSet u c (val u c g) g g'
  none : ∀ u c g, ¬ ok u c g → f u c g = none
  ok_local : ∀ u c g g', (∀ i, i < 64 → g'.word u c i = g.word u c i) → (ok u c g' ↔ ok u c g)
  val_local : ∀ u c g g', (∀ i, i < 64 → g'.word u c i = g.word u c i) →
    ∀ i, i < 64 → val u c g' i = val u c g i

/-- `g'` is `g` with every block of a set of (unit, component) pairs replaced. -/
structure GridSet (done : Nat → Fin 3 → Prop) (val : Nat → Fin 3 → Grid → Nat → Int) (g g' : Grid) : Prop where
  epoch : g'.epoch = g.epoch
  inside : ∀ u c i, done u c → i < 64 → g'.word u c.val i = BitVec.ofInt 32 (val u c g i)
  outside : ∀ u p i : Nat, p < 3 → i < 64 → (¬ ∃ c, done u c ∧ p = c.val) → g'.word u p i = g.word u p i
  wf : Memory.wf g.cells = true → Memory.wf g'.cells = true
  below : ∀ b, (∀ u c, done u c → u * 192 + 192 ≤ b) → Memory.below b g.cells = true → Memory.below b g'.cells = true

variable {f : Nat → Fin 3 → Grid → Option Grid} {ok : Nat → Fin 3 → Grid → Prop}
  {val : Nat → Fin 3 → Grid → Nat → Int} {done : Nat → Fin 3 → Prop}

theorem GridSet.start (val : Nat → Fin 3 → Grid → Nat → Int) (g : Grid) : GridSet (fun _ _ => False) val g g :=
  ⟨rfl, fun _ _ _ h => h.elim, fun _ _ _ _ _ _ => rfl, id, fun _ _ => id⟩

theorem GridSet.congr {done' : Nat → Fin 3 → Prop} (h : GridSet done val g g') (e : ∀ u c, done' u c ↔ done u c) :
    GridSet done' val g g' := by
  have : done' = done := by funext u c; exact propext (e u c)
  rwa [this]

theorem GridSet.same {u : Nat} {c : Fin 3} (h : GridSet done val g g') (hn : ¬ done u c) (i : Nat) (hi : i < 64) :
    g'.word u c i = g.word u c i :=
  h.outside u c i c.isLt hi (by rintro ⟨c', h1, h2⟩; exact hn (by rw [Fin.ext h2]; exact h1))

/-- One more block. -/
theorem GridSet.step {u : Nat} {c : Fin 3} {g2 : Grid} (hop : BlockOp f ok val) (h : GridSet done val g g')
    (hn : ¬ done u c) (hb : BlockSet u c (val u c g') g' g2) :
    GridSet (fun u' c' => done u' c' ∨ (u' = u ∧ c' = c)) val g g2 where
  epoch := hb.epoch.trans h.epoch
  inside := fun u' c' i hd hi => by
    by_cases e : u' = u ∧ c' = c
    · obtain ⟨rfl, rfl⟩ := e
      rw [hb.inside i hi, hop.val_local _ _ g g' (h.same hn) i hi]
    · rcases hd with hd | hd
      · rw [hb.outside u' c' i c'.isLt hi (fun ⟨h1, h2⟩ => e ⟨h1, Fin.ext h2⟩), h.inside u' c' i hd hi]
      · exact absurd hd e
  outside := fun u' p i hp hi hne => by
    rw [hb.outside u' p i hp hi (fun ⟨h1, h2⟩ => hne ⟨c, .inr ⟨h1, rfl⟩, h2⟩),
      h.outside u' p i hp hi (fun ⟨c', h1, h2⟩ => hne ⟨c', .inl h1, h2⟩)]
  wf := fun hw => hb.wf (h.wf hw)
  below := fun b hbd hw => hb.below b (hbd u c (.inr ⟨rfl, rfl⟩)) (h.below b (fun u' c' hd => hbd u' c' (.inl hd)) hw)

/-- The components of one unit. -/
theorem overComps_spec (hop : BlockOp f ok val) {cs : List (Fin 3)} (hnd : cs.Nodup) {g0 : Grid}
    (h : GridSet done val g0 g) (hn : ∀ c ∈ cs, ¬ done u c) :
    ((∀ c ∈ cs, ok u c g0) → ∃ g', overComps (f u) cs g = some g' ∧
      GridSet (fun u' c' => done u' c' ∨ (u' = u ∧ c' ∈ cs)) val g0 g') ∧
    ((∃ c ∈ cs, ¬ ok u c g0) → overComps (f u) cs g = none) := by
  induction cs generalizing g done with
  | nil => exact ⟨fun _ => ⟨g, rfl, h.congr (by simp)⟩, by simp⟩
  | cons c cs ih =>
    have hokc : ok u c g ↔ ok u c g0 := hop.ok_local u c g0 g (h.same (hn c (by simp)))
    obtain ⟨hc, hcs⟩ := List.nodup_cons.mp hnd
    by_cases hk : ok u c g0
    · obtain ⟨g1, e1, hb⟩ := hop.some u c g (hokc.mpr hk)
      have hs := h.step hop (hn c (by simp)) hb
      obtain ⟨i1, i2⟩ := ih hcs hs (fun c' hc' hd => by
        rcases hd with hd | ⟨_, rfl⟩
        · exact hn c' (by simp [hc']) hd
        · exact hc hc')
      constructor
      · intro hall
        obtain ⟨g', e2, h2⟩ := i1 fun c' hc' => hall c' (by simp [hc'])
        refine ⟨g', by rw [overComps, e1, Option.bind_some, e2], h2.congr fun u' c' => ?_⟩
        simp only [List.mem_cons]; tauto
      · rintro ⟨c', hc', hbad⟩
        rw [overComps, e1, Option.bind_some]
        rcases List.mem_cons.mp hc' with rfl | hc'
        · exact absurd hk hbad
        · exact i2 ⟨c', hc', hbad⟩
    · have e1 := hop.none u c g (fun h' => hk (hokc.mp h'))
      exact ⟨fun hall => absurd (hall c (by simp)) hk, fun _ => by rw [overComps, e1, Option.bind_none]⟩

/-- Every unit. -/
theorem overUnits_spec (hop : BlockOp f ok val) {cs : List (Fin 3)} (hnd : cs.Nodup) (n : Nat) (g0 : Grid) :
    ((∀ u, u < n → ∀ c ∈ cs, ok u c g0) → ∃ g', upTo (fun u => overComps (f u) cs) n g0 = some g' ∧
      GridSet (fun u c => u < n ∧ c ∈ cs) val g0 g') ∧
    ((∃ u, u < n ∧ ∃ c ∈ cs, ¬ ok u c g0) → upTo (fun u => overComps (f u) cs) n g0 = none) := by
  induction n with
  | zero => exact ⟨fun _ => ⟨g0, rfl, (GridSet.start val g0).congr (by simp)⟩, by simp⟩
  | succ n ih =>
    by_cases hall : ∀ u, u < n → ∀ c ∈ cs, ok u c g0
    · obtain ⟨g1, e1, h1⟩ := ih.1 hall
      obtain ⟨i1, i2⟩ := overComps_spec (u := n) hop hnd h1 (fun c _ hd => by omega)
      constructor
      · intro hall'
        obtain ⟨g', e2, h2⟩ := i1 (hall' n (by omega))
        refine ⟨g', by rw [upTo, e1, Option.bind_some, e2], h2.congr fun u c => ?_⟩
        constructor
        · rintro ⟨a, b⟩
          by_cases hun : u = n
          · exact .inr ⟨hun, b⟩
          · exact .inl ⟨by omega, b⟩
        · rintro (⟨a, b⟩ | ⟨a, b⟩)
          · exact ⟨by omega, b⟩
          · exact ⟨by omega, b⟩
      · rintro ⟨u, hu, c, hc, hbad⟩
        rw [upTo, e1, Option.bind_some]
        refine i2 ⟨c, hc, ?_⟩
        by_cases hun : u = n
        · subst hun; exact hbad
        · exact absurd (hall u (by omega) c hc) hbad
    · have e1 := ih.2 (by push Not at hall; obtain ⟨u, hu, c, hc, hb⟩ := hall; exact ⟨u, hu, c, hc, hb⟩)
      exact ⟨fun h => absurd (fun u hu => h u (by omega)) hall, fun _ => by rw [upTo, e1, Option.bind_none]⟩

theorem components_nodup (s : State) : (components s).Nodup := by
  unfold components; split <;> decide

/-! ## DEQUANT -/

/-- The product of one element (43_dequantizer R200). -/
def product (s : State) (u : Nat) (c : Fin 3) (g : Grid) (i : Nat) : Int :=
  g.read u c i * ((quantAt s (qTableOf s c) i).toNat : Int)

theorem dequantElems_spec (s : State) (u : Nat) (c : Fin 3) (g : Grid) {n : Nat} (hn : n ≤ 64) :
    ((∀ i, i < n → fits (product s u c g i) = true) →
      ∃ g', upTo (dequantElem s u c) n g = some g' ∧ PartSet u c (product s u c g) n g g') ∧
    ((∃ i, i < n ∧ fits (product s u c g i) = false) → upTo (dequantElem s u c) n g = none) := by
  induction n with
  | zero => exact ⟨fun _ => ⟨g, rfl, .zero _ _ _ _⟩, by simp⟩
  | succ n ih =>
    by_cases hall : ∀ i, i < n → fits (product s u c g i) = true
    · obtain ⟨g1, e1, h1⟩ := (ih (by omega)).1 hall
      have hr : g1.read u c n = g.read u c n := by
        rw [Grid.read, Grid.read, h1.outside u c n c.isLt (by omega) (by omega)]
      have e2 : dequantElem s u c n g1 =
          if fits (product s u c g n) then some (g1.put u c n (product s u c g n)) else none := by
        simp only [dequantElem, hr, product]; rfl
      constructor
      · intro h
        refine ⟨_, ?_, h1.put (by omega)⟩
        rw [upTo, e1, Option.bind_some, e2, if_pos (h n (by omega))]
      · rintro ⟨i, hi, hb⟩
        rw [upTo, e1, Option.bind_some, e2, if_neg]
        by_cases hin : i = n
        · subst hin; simp [hb]
        · simp [hall i (by omega)] at hb
    · have e1 := (ih (by omega)).2 (by push Not at hall; simpa using hall)
      exact ⟨fun h => absurd (fun i hi => h i (by omega)) hall, fun _ => by rw [upTo, e1, Option.bind_none]⟩

theorem dequantBlock_op (s : State) : BlockOp (dequantBlock s)
    (fun u c g => ∀ i, i < 64 → fits (product s u c g i) = true) (product s) where
  some := fun u c g h => by
    obtain ⟨g', e, hp⟩ := (dequantElems_spec s u c g le_rfl).1 h
    exact ⟨g', e, hp.full⟩
  none := fun u c g h => (dequantElems_spec s u c g le_rfl).2 (by push Not at h; simpa using h)
  ok_local := fun u c g g' h => by
    refine forall₂_congr fun i hi => ?_
    simp [product, Grid.read, h i hi]
  val_local := fun u c g g' h i hi => by simp [product, Grid.read, h i hi]

/-! ## IDCT -/

theorem getD_tabulate {α : Type} {n : Nat} (f : Nat → α) {i : Nat} (h : i < n) (d : α) :
    (tabulate n f).getD i d = f i := by
  simp [tabulate, Vector.getD, h]

theorem gridBlock_local {u : Nat} {c : Fin 3} {g g' : Grid} (h : ∀ i, i < 64 → g'.word u c i = g.word u c i) :
    gridBlock g' u c = gridBlock g u c := by
  apply Vector.ext
  intro i hi
  simp [gridBlock, tabulate, Grid.read, h i hi]

theorem putBlock_spec (u : Nat) (c : Fin 3) (B : Block) (g : Grid) {n : Nat} (hn : n ≤ 64) :
    PartSet u c (fun i => B.getD i 0) n g (forUpTo (fun i g => g.put u c i (B.getD i 0)) n g) := by
  induction n with
  | zero => exact .zero _ _ _ _
  | succ n ih => exact (ih (by omega)).put (by omega)

theorem idctOf_fits_iff (choice : IdctChoice) (F : Block) :
    (idctOf choice F).toList.all fits = true ↔ ∀ i, i < 64 → fits (idctAt choice F i) = true := by
  simp [idctOf, tabulate]

theorem idctBlock_op (choice : IdctChoice) : BlockOp (idctBlock choice)
    (fun u c g => ∀ i, i < 64 → fits (idctAt choice (gridBlock g u c) i) = true)
    (fun u c g => idctAt choice (gridBlock g u c)) where
  some := fun u c g h => by
    refine ⟨_, by rw [idctBlock, if_pos ((idctOf_fits_iff _ _).mpr h)], ?_⟩
    have hp := (putBlock_spec u c (idctOf choice (gridBlock g u c)) g le_rfl).full
    exact ⟨hp.epoch, fun i hi => by rw [putBlock, hp.inside i hi, idctOf, getD_tabulate _ hi], hp.outside, hp.wf, hp.below⟩
  none := fun u c g h => by rw [idctBlock, if_neg (fun h' => h ((idctOf_fits_iff _ _).mp h'))]
  ok_local := fun u c g g' h => by rw [gridBlock_local h]
  val_local := fun u c g g' h i hi => by rw [gridBlock_local h]

/-! ## COLOR -/

/-- The three values of one sample (45_color_converter R234). -/
def sample (three : Bool) (g : Grid) (u p i : Nat) : Int :=
  if three then
    if p = 0 then redOf (g.read u 0 i) (g.read u 2 i)
    else if p = 1 then greenOf (g.read u 0 i) (g.read u 1 i) (g.read u 2 i)
    else blueOf (g.read u 0 i) (g.read u 1 i)
  else grayOf (g.read u 0 i)

/-- `g'` is `g` with the samples of a set of (unit, index) pairs converted. -/
structure Converted (three : Bool) (done : Nat → Nat → Prop) (g g' : Grid) : Prop where
  epoch : g'.epoch = g.epoch
  inside : ∀ u p i, p < 3 → i < 64 → done u i → g'.word u p i = BitVec.ofInt 32 (sample three g u p i)
  outside : ∀ u p i, p < 3 → i < 64 → ¬ done u i → g'.word u p i = g.word u p i
  wf : Memory.wf g.cells = true → Memory.wf g'.cells = true
  below : ∀ b, (∀ u i, done u i → u * 192 + 192 ≤ b) → Memory.below b g.cells = true → Memory.below b g'.cells = true

theorem word_putRgb {u i u' p i' : Nat} (r gg b : Int) (g : Grid) (hi : i < 64) (hp : p < 3) (hi' : i' < 64) :
    (putRgb u i r gg b g).word u' p i' =
      if u' = u ∧ i' = i then BitVec.ofInt 32 (if p = 0 then r else if p = 1 then gg else b)
      else g.word u' p i' := by
  have k0 := gridKey_inj (u := u') (u' := u) hp (p' := 0) (by omega) hi' hi
  have k1 := gridKey_inj (u := u') (u' := u) hp (p' := 1) (by omega) hi' hi
  have k2 := gridKey_inj (u := u') (u' := u) hp (p' := 2) (by omega) hi' hi
  simp only [putRgb, Grid.word_put, k0, k1, k2]
  by_cases h : u' = u ∧ i' = i
  · obtain ⟨rfl, rfl⟩ := h
    have : p = 0 ∨ p = 1 ∨ p = 2 := by omega
    rcases this with rfl | rfl | rfl <;> simp
  · rw [if_neg h, if_neg (by tauto), if_neg (by tauto), if_neg (by tauto)]

theorem Converted.step {three : Bool} {done : Nat → Nat → Prop} {g g' : Grid} {u i : Nat}
    (h : Converted three done g g') (hn : ¬ done u i) (hi : i < 64) :
    Converted three (fun u' i' => done u' i' ∨ (u' = u ∧ i' = i)) g (colorElem three u i g') := by
  have hr : ∀ p, p < 3 → g'.read u p i = g.read u p i := fun p hp => by
    rw [Grid.read, Grid.read, h.outside u p i hp hi hn]
  have e : colorElem three u i g' =
      putRgb u i (sample three g u 0 i) (sample three g u 1 i) (sample three g u 2 i) g' := by
    cases three <;> simp [colorElem, sample, hr 0, hr 1, hr 2]
  have hw : Memory.wf g'.cells = true → Memory.wf (colorElem three u i g').cells = true := fun hw => by
    rw [e]; exact Memory.wf_write _ _ (Memory.wf_write _ _ (Memory.wf_write _ _ hw))
  refine ⟨by rw [e]; exact h.epoch, fun u' p i' hp hi' hd => ?_, fun u' p i' hp hi' hd => ?_,
    fun hwf => hw (h.wf hwf), fun b hb hbl => ?_⟩
  · rw [e, word_putRgb _ _ _ _ hi hp hi']
    by_cases hc : u' = u ∧ i' = i
    · obtain ⟨rfl, rfl⟩ := hc
      rw [if_pos ⟨rfl, rfl⟩]
      have : p = 0 ∨ p = 1 ∨ p = 2 := by omega
      rcases this with rfl | rfl | rfl <;> simp
    · rw [if_neg hc]
      exact h.inside u' p i' hp hi' (hd.resolve_right hc)
  · rw [e, word_putRgb _ _ _ _ hi hp hi', if_neg (fun hc => hd (.inr hc))]
    exact h.outside u' p i' hp hi' fun hd' => hd (.inl hd')
  · have h0 := h.below b (fun u' i' hd => hb u' i' (.inl hd)) hbl
    have hu := hb u i (.inr ⟨rfl, rfl⟩)
    rw [e]
    exact Memory.below_write _ (by unfold gridKey; omega) (Memory.below_write _ (by unfold gridKey; omega)
      (Memory.below_write _ (by unfold gridKey; omega) h0))

theorem Converted.congr {three : Bool} {done done' : Nat → Nat → Prop} {g g' : Grid} (h : Converted three done g g')
    (e : ∀ u i, done' u i ↔ done u i) : Converted three done' g g' := by
  have : done' = done := by funext u i; exact propext (e u i)
  rwa [this]

theorem colorUnit_spec {three : Bool} {done : Nat → Nat → Prop} {g g' : Grid} {u n : Nat}
    (h : Converted three done g g') (hd : ∀ i, ¬ done u i) (hn : n ≤ 64) :
    Converted three (fun u' i' => done u' i' ∨ (u' = u ∧ i' < n)) g (forUpTo (colorElem three u) n g') := by
  induction n with
  | zero => exact h.congr (by simp)
  | succ n ih =>
    refine ((ih (by omega)).step (u := u) (i := n) (by rintro (h1 | h1); exact hd n h1; omega) (by omega)).congr
      fun u' i' => ?_
    by_cases e : i' = n
    · subst e; simp
    · have : i' < n + 1 ↔ i' < n := by omega
      simp [e, this]

theorem colorGrid_spec (three : Bool) (g : Grid) (n : Nat) :
    Converted three (fun u i => u < n ∧ i < 64) g (forUpTo (fun u => forUpTo (colorElem three u) 64) n g) := by
  induction n with
  | zero => exact ⟨rfl, fun _ _ _ _ _ h => by omega, fun _ _ _ _ _ _ => rfl, id, fun _ _ => id⟩
  | succ n ih =>
    refine (colorUnit_spec ih (fun i h => by omega) le_rfl).congr fun u i => ?_
    by_cases e : u = n
    · subst e; simp
    · have : u < n + 1 ↔ u < n := by omega
      simp [e, this]

theorem clamp255_range (v : Int) : 0 ≤ clamp255 v ∧ clamp255 v ≤ 255 := by unfold clamp255; split_ifs <;> omega

theorem sample_range (three : Bool) (g : Grid) (u p i : Nat) : 0 ≤ sample three g u p i ∧ sample three g u p i ≤ 255 := by
  unfold sample redOf greenOf blueOf grayOf
  split_ifs <;> exact clamp255_range _

theorem fits_sample (three : Bool) (g : Grid) (u p i : Nat) : fits (sample three g u p i) = true := by
  rw [fits_iff]; have := sample_range three g u p i; omega

end Sys2Proof.Machine
end

