-- ==== Sys2Proof/Laws/Commands.lean ====
section
/-! SUPPORT. What each command can do, said once: the state it ends in where it completes and the state it has raised
in where it does not.  Every frame and every invariant is a consequence of these. -/

namespace Sys2Proof.Machine

variable {s t u : State} {c : Fin 3}

/-! ## The shape of a command -/

/-- A procedure ends in a state of which `P` holds, or raises a fault in a state of which `Q` holds. -/
def EndsIn {α : Type} (r : Ran α) (P Q : State → Prop) : Prop :=
  (∃ a t, r = .done a t ∧ P t) ∨ ∃ f u, f ≠ .none ∧ r = .raised (raise f u) ∧ Q u

theorem EndsIn.state {α : Type} {r : Ran α} {P Q : State → Prop} (h : EndsIn r P Q) :
    P r.state ∨ ∃ f u, f ≠ .none ∧ r.state = raise f u ∧ Q u := by
  rcases h with ⟨a, t, rfl, hp⟩ | ⟨f, u, h0, rfl, hq⟩
  · exact .inl hp
  · exact .inr ⟨f, u, h0, rfl, hq⟩

theorem EndsIn.done {α : Type} {a : α} {P Q : State → Prop} (h : P t) : EndsIn (.done a t) P Q :=
  .inl ⟨a, t, rfl, h⟩

theorem EndsIn.raised {α : Type} {f : FaultCode} {P Q : State → Prop} (h0 : f ≠ .none) (h : Q u) :
    EndsIn (.raised (raise f u) : Ran α) P Q := .inr ⟨f, u, h0, rfl, h⟩

theorem EndsIn.mono {α : Type} {r : Ran α} {P Q P' Q' : State → Prop} (h : EndsIn r P Q) (hp : ∀ t, P t → P' t)
    (hq : ∀ u, Q u → Q' u) : EndsIn r P' Q' := by
  rcases h with ⟨a, t, e, h⟩ | ⟨f, u, h0, e, h⟩
  · exact .inl ⟨a, t, e, hp t h⟩
  · exact .inr ⟨f, u, h0, e, hq u h⟩

theorem EndsIn.require {α : Type} {cond : Bool} {f : FaultCode} {go : State → Ran α} {P Q : State → Prop}
    (h0 : f ≠ .none) (hq : Q s) (h : cond = true → EndsIn (go s) P Q) :
    EndsIn (Machine.require cond f s go) P Q := by
  cases hc : cond
  · rw [require_neg rfl]; exact .raised h0 hq
  · rw [require_pos rfl]; exact h hc

/-! ## SCANINIT, HTBUILD, DECSYM -/

theorem scaninit_ends (s : State) :
    EndsIn (scaninitBody s) (fun t => t = startScan s ∧ (s.ncomp.toNat = 1 ∨ s.ncomp.toNat = 3) ∧ s.width ≠ 0#16 ∧
      s.height ≠ 0#16 ∧ s.entLen.toNat ≤ s.cfg.entCap.toNat ∧ unitCount s ≤ s.cfg.gridCap) (fun u => u = s) := by
  refine .require (by simp) rfl fun h1 => .require (by simp) rfl fun h2 => .require (by simp) rfl fun h3 =>
    .require (by simp) rfl fun h4 => .done ?_
  simp only [decide_eq_true_eq] at h2 h3 h4
  exact ⟨rfl, (ncompOk_iff s).mp h1, h2.1, h2.2, h3, h4⟩

theorem htbuild_ends (k : HuffClass) (i : Fin 4) (s : State) :
    EndsIn (htbuildBody k i s)
      (fun t => t = setHt k i (builtTable s k i) s ∧ (s.ht k i).set = true ∧ OffsetsLegal s k i)
      (fun u => u = setHt k i { s.ht k i with built := false } s) := by
  cases h : tableWellFormed s k i
  · rw [htbuild_raised s k i h]; exact .raised (by simp) rfl
  · rw [htbuild_done s k i h]; exact .done ⟨rfl, (tableWellFormed_iff s k i).mp h⟩

/-- DECSYM moves the cursor and returns a symbol, or latches a fault; unless the table was not ready it has then
moved the cursor and returned FAIL. -/
theorem decsym_cases (k : HuffClass) (i : Fin 4) (s : State) :
    (∃ l j, Ready s k i ∧ FirstMatch s k i (cursorPos s) l j ∧
      decsymBody k i s = .done () (setResult ((symAt s k i j).setWidth 32) (atPos (cursorPos s + l) s))) ∨
    (Ready s k i ∧ NoCode s k i (cursorPos s) ∧ decsymBody k i s = .raised (setFail (lostCode (cursorPos s) s))) ∨
    (¬ Ready s k i ∧ decsymBody k i s = .raised (raise .table s)) := by
  by_cases hr : Ready s k i
  · have h := (tableReady_iff s k i).mpr hr
    rcases decodeSymbol_cases s k i with ⟨l, j, hf, e⟩ | ⟨hn, e⟩
    · exact .inl ⟨l, j, hr, hf, by rw [decsymBody, require_pos h, e]; rfl⟩
    · exact .inr (.inl ⟨hr, hn, by rw [decsymBody, require_pos h, e]; rfl⟩)
  · refine .inr (.inr ⟨hr, ?_⟩)
    rw [← tableReady_iff] at hr
    rw [decsymBody, require_neg (by simpa using hr)]

/-- Where a code is not there the cursor stands behind the bits read, not before where it was. -/
theorem lostCode_eq (s : State) : ∃ f q, f ≠ .none ∧ cursorPos s ≤ q ∧ q ≤ max (cursorPos s) (streamEnd s) ∧
    lostCode (cursorPos s) s = raise f (atPos q s) := by
  have hlt := cursorPos_lt s
  have hle := streamEnd_le s
  unfold lostCode
  split
  · exact ⟨.nocode, cursorPos s + 16, by simp, by omega, by omega, rfl⟩
  · exact ⟨.underrun, max (cursorPos s) (streamEnd s), by simp, by omega, by omega, by simp [atEnd]⟩

/-! ## DECDC, DECAC, DECBLK, DECMCU, DECSCAN -/

theorem decdc_ends (c : Fin 3) (s : State) :
    EndsIn (decdcBody c s)
      (fun t => s.phase = .decode ∧ ∃ diff q, DcItem s (dcTableOf s c) (cursorPos s) diff q ∧
        fits (predAt s c + diff) = true ∧
        t = atPos q (putCoef c 0 (predAt s c + diff) (setPred c (predAt s c + diff) s)))
      (fun u => Decoded [] s u) := by
  rcases blockChecks_cases c (dcReady c) s (decodeDC c) with ⟨hp, _, _, _, e⟩ | ⟨f, h0, e⟩
  · rw [decdcBody, e]
    rcases decodeDC_cases s c with ⟨diff, q, hd, hf, e⟩ | ⟨f, q, h0, h1, h2, e⟩
    · rw [e]; exact .done ⟨hp, diff, q, hd, hf, rfl⟩
    · rw [e]; exact .raised h0 (decoded_atPos [] h1 h2)
  · rw [decdcBody, e]; exact .raised h0 (.refl _ _)

theorem decac_ends (c : Fin 3) (s : State) :
    EndsIn (decacBody c s)
      (fun t => s.phase = .decode ∧ ∃ vs q, AcItems s (acTableOf s c) 1 (cursorPos s) vs 64 q ∧
        t = atPos q (storeCoefs c 1 vs s))
      (fun u => Decoded [] s u) := by
  rcases blockChecks_cases c (acReady c) s (decodeAC c) with ⟨hp, _, _, _, e⟩ | ⟨f, h0, e⟩
  · rw [decacBody, e]
    rcases decodeAC_cases s c with ⟨vs, q, ha, e⟩ | ⟨f, q, h0, h1, h2, e⟩
    · rw [e]; exact .done ⟨hp, vs, q, ha, rfl⟩
    · rw [e]; exact .raised h0 (decoded_atPos [] h1 h2)
  · rw [decacBody, e]; exact .raised h0 (.refl _ _)

theorem decblk_ends (c : Fin 3) (s : State) :
    EndsIn (decblkBody c s) (fun t => s.phase = .decode ∧ BlockDecodes c s t) (fun u => Decoded [c] s u) := by
  rcases blockChecks_cases c (fun s => dcReady c s && acReady c s) s (decodeBlock c) with ⟨hp, _, _, _, e⟩ | ⟨f, h0, e⟩
  · rw [decblkBody, e]
    rcases decodeBlock_cases c s with ⟨t, hb, e⟩ | ⟨f, u, h0, h1, e⟩
    · rw [e]; exact .done ⟨hp, hb⟩
    · rw [e]; exact .raised h0 h1
  · rw [decblkBody, e]; exact .raised h0 (.refl _ _)

/-- What the decoding of units changes: the cursor, not backwards, the predictors, the unit counter, the phase, and
the cells of the blocks of the units decoded. -/
structure Scanned (s t : State) : Prop where
  frame : t = { s with byteIdx := t.byteIdx, bitIdx := t.bitIdx, pred := t.pred, blkIdx := t.blkIdx,
                       phase := t.phase, grid := { s.grid with cells := t.grid.cells } }
  forward : cursorPos s ≤ cursorPos t
  limit : cursorPos t ≤ max (cursorPos s) (streamEnd s)
  grid : s.blkIdx.toNat < s.nUnits.toNat → ∀ u p i : Nat, p < 3 → i < 64 →
    ¬ (s.blkIdx.toNat ≤ u ∧ u < s.nUnits.toNat ∧ ∃ e ∈ components s, p = e.val) →
    t.grid.word u p i = s.grid.word u p i
  wf : Memory.wf s.grid.cells = true → Memory.wf t.grid.cells = true
  below : ∀ b, s.blkIdx.toNat < s.nUnits.toNat → s.nUnits.toNat * 192 ≤ b → Memory.below b s.grid.cells = true →
    Memory.below b t.grid.cells = true
  ends : s.blkIdx.toNat < s.nUnits.toNat → s.phase = .decode →
    (t.phase = .decode ∧ s.blkIdx.toNat ≤ t.blkIdx.toNat ∧ t.blkIdx.toNat < s.nUnits.toNat) ∨
      (t.phase = .coef ∧ t.blkIdx = s.nUnits)

theorem Scanned.refl (s : State) : Scanned s s :=
  ⟨rfl, le_rfl, le_max_left _ _, fun _ _ _ _ _ _ _ => rfl, id, fun _ _ _ => id, fun h hp => .inl ⟨hp, le_rfl, h⟩⟩

/-- The frame of a scan, field by field. -/
theorem Scanned.nUnits (h : Scanned s t) : t.nUnits = s.nUnits := by rw [h.frame]
theorem Scanned.streamEnd (h : Scanned s t) : Machine.streamEnd t = Machine.streamEnd s := by
  rw [h.frame]; rfl
theorem Scanned.components (h : Scanned s t) : Machine.components t = Machine.components s := by
  rw [h.frame]; rfl

theorem UnitDecodes.scanned (h : UnitDecodes s t) : Scanned s t := by
  have hf := h.frame
  obtain ⟨m, hm, e, hg⟩ := h.decoded
  have h1 : t.grid = m.grid := by rw [e, nextUnit_frame]
  have hb : t.blkIdx = s.blkIdx + 1 := by rw [hf]
  have hp : t.phase = if s.blkIdx + 1 = s.nUnits then .coef else s.phase := congrArg State.phase hf
  have hcur : cursorPos t = cursorPos m := by rw [e, nextUnit_frame]; rfl
  refine ⟨?_, by rw [hcur]; exact hm.forward, by rw [hcur]; exact hm.limit, fun hlt u p i hp hi hn => ?_,
    fun hw => ?_, fun b hlt hbd hw => ?_, fun hlt hdec => ?_⟩
  · conv_lhs => rw [hf]
    rw [hb, hp]
  · rw [h1, hg u p i hp hi]
    rintro ⟨rfl, he⟩
    exact hn ⟨le_rfl, hlt, he⟩
  · rw [h1]; exact hm.wf hw
  · rw [h1]; exact hm.below b (by omega) hw
  · by_cases hc : s.blkIdx + 1 = s.nUnits
    · exact .inr ⟨by rw [hp, if_pos hc], by rw [hb, hc]⟩
    · have hl := s.nUnits.isLt
      have : (s.blkIdx + 1).toNat = s.blkIdx.toNat + 1 := by
        rw [BitVec.toNat_add]; show (_ + 1) % _ = _; omega
      refine .inl ⟨by rw [hp, if_neg hc, hdec], by rw [hb]; omega, ?_⟩
      rw [hb, this]
      have hne : s.blkIdx.toNat + 1 ≠ s.nUnits.toNat := fun e => hc (BitVec.eq_of_toNat_eq (by rw [this, e]))
      omega

theorem Scanned.trans (h : Scanned s t) (h' : Scanned t u) (hp : s.phase = .decode) (hp' : t.phase = .decode) :
    Scanned s u := by
  have hn := h.nUnits
  have hcomp := h.components
  have he := h.streamEnd
  have hl := h.limit
  have hl' := h'.limit
  refine ⟨?_, h.forward.trans h'.forward, by omega, fun hlt v p i hpp hi hne => ?_, fun hw => h'.wf (h.wf hw),
    fun b hlt hb hw => ?_, fun hlt hdec => ?_⟩
  · have e1 := h.frame
    have e2 := h'.frame
    rw [e1] at e2
    exact e2
  · rcases h.ends hlt hp with ⟨_, h2, h3⟩ | ⟨h2, _⟩
    · rw [h'.grid (by rw [hn]; exact h3) v p i hpp hi (by rw [hn, hcomp]; rintro ⟨a, b, c⟩; exact hne ⟨by omega, b, c⟩),
        h.grid hlt v p i hpp hi hne]
    · rw [hp'] at h2; exact absurd h2 (by simp)
  · rcases h.ends hlt hp with ⟨_, h2, h3⟩ | ⟨h2, _⟩
    · exact h'.below b (by rw [hn]; exact h3) (by rw [hn]; exact hb) (h.below b hlt hb hw)
    · rw [hp'] at h2; exact absurd h2 (by simp)
  · rcases h.ends hlt hp with ⟨_, h2, h3⟩ | ⟨h2, _⟩
    · rcases h'.ends (by rw [hn]; exact h3) hp' with ⟨a, b, c⟩ | ⟨a, b⟩
      · exact .inl ⟨a, by omega, by rw [← hn]; exact c⟩
      · exact .inr ⟨a, by rw [b, hn]⟩
    · rw [hp'] at h2; exact absurd h2 (by simp)

/-- Up to a fault: nothing where the scan has not begun, else whole units and then a part of one more. -/
def ScanBroken (s u : State) : Prop :=
  u = s ∨ (s.phase = .decode ∧ ∃ m, Scanned s m ∧ m.phase = s.phase ∧ Decoded [0, 1, 2] m u)

theorem decmcu_ends (hv : s.valid = true) :
    EndsIn (decmcuBody s) (fun t => UnitReady s ∧ UnitDecodes s t) (fun u => Decoded [0, 1, 2] s u) := by
  rcases decmcuBody_cases hv with ⟨hr, t, hu, e⟩ | ⟨f, u, h0, hd, e⟩
  · rw [e]; exact .done ⟨hr, hu⟩
  · rw [e]; exact .raised h0 hd

theorem scanFrom_ends (n : Nat) (hv : s.valid = true) (hp : s.phase = .decode) :
    EndsIn (scanFrom n s) (Scanned s) (ScanBroken s) := by
  induction n generalizing s with
  | zero => exact .done (.refl s)
  | succ n ih =>
    rw [scanFrom, if_pos hp]
    rcases decmcu_ends hv with ⟨_, m, e, _, hm⟩ | ⟨f, u, h0, e, hd⟩
    · rw [e, Ran.andThen_done]
      have hs := hm.scanned
      by_cases hpm : m.phase = .decode
      · refine (ih (by rw [hs.frame]; exact hv) hpm).mono (fun t ht => hs.trans ht hp hpm) fun u hb => .inr ⟨hp, ?_⟩
        rcases hb with rfl | ⟨_, m', h1, h2, h3⟩
        · exact ⟨u, hs, by rw [hpm, hp], .refl _ _⟩
        · exact ⟨m', hs.trans h1 hp hpm, by rw [h2, hpm, hp], h3⟩
      · have : scanFrom n m = .done () m := by
          cases n with
          | zero => rfl
          | succ n => rw [scanFrom, if_neg hpm]
        rw [this]; exact .done hs
    · rw [e, Ran.andThen_raised]
      exact .raised h0 (.inr ⟨hp, s, .refl s, rfl, hd⟩)

theorem decscan_ends (hv : s.valid = true) :
    EndsIn (decscanBody s) (fun t => UnitReady s ∧ Scanned s t) (ScanBroken s) := by
  by_cases hp : s.phase = .decode
  · rw [decscanBody, require_pos (by simp [hp])]
    by_cases hr : UnitReady s
    · exact (scanFrom_ends _ hv hp).mono (fun t h => ⟨hr, h⟩) fun u h => h
    · rcases decmcu_ends hv with ⟨_, _, _, h, _⟩ | ⟨f, u, h0, e, hd⟩
      · exact absurd h hr
      · rw [unitsLeft, scanFrom, if_pos hp, e, Ran.andThen_raised]
        exact .raised h0 (.inr ⟨hp, s, .refl s, rfl, hd⟩)
  · rw [decscanBody, require_neg (by simp [hp])]
    exact .raised (by simp) (.inl rfl)

/-! ## DEQUANT, IDCT, COLOR -/

theorem stageChecks_ready {p : Phase} (h : StageReady p s) (go : State → Ran Unit) : stageChecks p s go = go s := by
  obtain ⟨_, h2, h3⟩ := h
  rw [stageChecks, require_pos (by simp [h2]), require_pos ((ncompOk_iff s).mpr h3)]

theorem allQuantSet_iff (h : s.ncomp.toNat = 1 ∨ s.ncomp.toNat = 3) :
    allQuantSet s = true ↔ ∀ c : Fin 3, c.val < s.ncomp.toNat → s.qTables[qTableOf s c].set = true := by
  simp [allQuantSet, mem_components h]

/-- How the stages that may fail end: with every block replaced, or with RANGE. -/
theorem finishStage_spec {f : Nat → Fin 3 → Grid → Option Grid} {ok : Nat → Fin 3 → Grid → Prop}
    {val : Nat → Fin 3 → Grid → Nat → Int} (hop : BlockOp f ok val) (p : Phase) (s : State) :
    ((∀ u, u < s.nUnits.toNat → ∀ c ∈ components s, ok u c s.grid) → ∃ g,
      finishStage p (overUnits s f) s = .done () { s with grid := g, phase := p } ∧
        GridSet (fun u c => u < s.nUnits.toNat ∧ c ∈ components s) val s.grid g) ∧
    ((∃ u, u < s.nUnits.toNat ∧ ∃ c ∈ components s, ¬ ok u c s.grid) →
      finishStage p (overUnits s f) s = .raised (raise .range s)) := by
  obtain ⟨h1, h2⟩ := overUnits_spec hop (components_nodup s) s.nUnits.toNat s.grid
  constructor
  · intro h
    obtain ⟨g, e, hg⟩ := h1 h
    exact ⟨g, by rw [overUnits, e]; rfl, hg⟩
  · intro h; rw [overUnits, h2 h]; rfl

/-- What a stage changes where it completes: the grid, within the units of the scan, and the phase. -/
structure Staged (p q : Phase) (s t : State) : Prop where
  before : s.phase = p
  frame : t = { s with phase := q, grid := { s.grid with cells := t.grid.cells } }
  outside : ∀ u p i : Nat, p < 3 → i < 64 → ¬ u < s.nUnits.toNat → t.grid.word u p i = s.grid.word u p i
  wf : Memory.wf s.grid.cells = true → Memory.wf t.grid.cells = true
  below : ∀ b, s.nUnits.toNat * 192 ≤ b → Memory.below b s.grid.cells = true → Memory.below b t.grid.cells = true

theorem finishStage_ends {f : Nat → Fin 3 → Grid → Option Grid} {ok : Nat → Fin 3 → Grid → Prop}
    {val : Nat → Fin 3 → Grid → Nat → Int} (hop : BlockOp f ok val) {p q : Phase} (hp : s.phase = p) :
    EndsIn (finishStage q (overUnits s f) s) (Staged p q s) (fun u => u = s) := by
  obtain ⟨h1, h2⟩ := finishStage_spec hop q s
  by_cases h : ∀ u, u < s.nUnits.toNat → ∀ c ∈ components s, ok u c s.grid
  · obtain ⟨g, e, hg⟩ := h1 h
    rw [e]
    refine .done ⟨hp, ?_, fun u p i hpp hi hn => hg.outside u p i hpp hi (by rintro ⟨_, ⟨h, _⟩, _⟩; exact hn h), hg.wf,
      fun b hb hw => hg.below b (fun u c hd => by omega) hw⟩
    have := hg.epoch
    cases g with
    | mk e cells => simp only at this; rw [this]
  · rw [h2 (by push Not at h; exact h)]
    exact .raised (by simp) rfl

theorem stageChecks_ends {p : Phase} {go : State → Ran Unit} {P Q : State → Prop} (hq : Q s)
    (h : s.phase = p → (s.ncomp.toNat = 1 ∨ s.ncomp.toNat = 3) → EndsIn (go s) P Q) :
    EndsIn (stageChecks p s go) P Q := by
  unfold stageChecks
  exact .require (by simp) hq fun h1 => .require (by simp) hq fun h2 =>
    h (by simpa using h1) ((ncompOk_iff s).mp h2)

theorem dequant_ends (s : State) : EndsIn (dequantBody s) (Staged .coef .deq s) (fun u => u = s) :=
  stageChecks_ends rfl fun h1 _ => .require (by simp) rfl fun _ => finishStage_ends (dequantBlock_op s) h1

theorem idct_ends (s : State) : EndsIn (idctBody s) (Staged .deq .spatial s) (fun u => u = s) :=
  stageChecks_ends rfl fun h1 _ => finishStage_ends (idctBlock_op s.cfg.idct) h1

theorem color_ends (s : State) : EndsIn (colorBody s) (Staged .spatial .rgb s) (fun u => u = s) := by
  refine stageChecks_ends rfl fun h1 _ => ?_
  have hg := colorGrid_spec (decide (s.ncomp = 3#2)) s.grid s.nUnits.toNat
  have e : colorGrid s = { s.grid with cells := (colorGrid s).cells } := by
    have he := hg.epoch
    show colorGrid s = Grid.mk s.grid.epoch (colorGrid s).cells
    rw [← he]; rfl
  refine .done ⟨h1, ?_, fun u p i hpp hi hn => hg.outside u p i hpp hi fun h => hn h.1, hg.wf,
    fun b hb hw => hg.below b (fun u i hd => by omega) hw⟩
  show { s with grid := colorGrid s, phase := .rgb } = _
  conv_lhs => rw [e]

/-! ## Lone symbols -/

theorem symDccat_ends (cat : Byte) (c : Fin 3) (s : State) :
    EndsIn (symDccat cat c s) (Decoded [c] s) (Decoded [] s) := by
  have hlt := cursorPos_lt s
  have hle := streamEnd_le s
  have hcat := cat.isLt
  rw [symDccat_eq]
  by_cases h : cat.toNat = 0 ∨ cursorPos s + cat.toNat ≤ streamEnd s
  · rw [if_pos h]
    have hp : Decoded [] s (atPos (cursorPos s + cat.toNat) s) := decoded_atPos [] (by omega) (by omega)
    simp only []
    split
    · exact .done ((hp.mono (by simp)).trans ((decoded_setPred _ (by simp)).trans
        (decoded_putCoef _ (by simp) (by omega))))
    · exact .raised (by simp) hp
  · rw [if_neg h]
    exact .raised (by simp) (decoded_atPos [] (by omega) (by omega))

/-- What a lone AC symbol changes where it completes: as decoding, and the zigzag cursor of the context. -/
def AcSymbolRuns (c : Fin 3) (s t : State) : Prop :=
  ∃ m k, Decoded [c] s m ∧ m.pred = s.pred ∧ t = { m with sym := { m.sym with k := k } }

theorem storeK_done (k : Nat) (m : State) :
    storeK (.done k m) = .done () { m with sym := { m.sym with k := k } } := rfl

theorem eob_runs (c : Fin 3) (k : Nat) (s : State) :
    AcSymbolRuns c s { zeroFill c k (64 - k) s with sym := { (zeroFill c k (64 - k) s).sym with k := 64 } } := by
  rw [zeroFill_eq]
  by_cases hk : k ≤ 64
  · exact ⟨_, _, decoded_storeCoefs (by simp) (by simp; omega), by simp, rfl⟩
  · have : 64 - k = 0 := by omega
    rw [this]
    exact ⟨s, _, .refl _ _, rfl, rfl⟩

theorem zeroRun_ends (run : Nat) (c : Fin 3) (k : Nat) (s : State) :
    EndsIn (storeK (zeroRun run c k s)) (AcSymbolRuns c s) (fun u => u = s) := by
  rw [zeroRun_eq]
  split
  · rw [storeK_done]
    exact .done ⟨_, _, decoded_storeCoefs (by simp) (by simp; omega), by simp, rfl⟩
  · exact .raised (by simp) rfl

theorem symAccoef_ends (run size : BitVec 4) (c : Fin 3) (k : Nat) (s : State) :
    EndsIn (storeK (symAccoef run size c k s)) (AcSymbolRuns c s) (Decoded [] s) := by
  have hlt := cursorPos_lt s
  have hle := streamEnd_le s
  have hs := size.isLt
  rw [symAccoef_eq]
  split
  · split
    · rw [storeK_done]
      refine .done ⟨_, _, ?_, by simp, rfl⟩
      exact (decoded_storeCoefs (by simp) (by simp; omega)).trans (decoded_atPos _ (by simp)
        (by simp only [cursorPos_storeCoefs, streamEnd_storeCoefs]; omega))
    · exact .raised (by simp) (decoded_atPos [] (by omega) (by omega))
  · exact .raised (by simp) (.refl _ _)

/-! ## No command stops the machine -/

/-- Every instruction has a next state: no path of any meaning ends in a fault or a refusal of the model. -/
theorem exec_next (i : Instr) (s : State) : ∃ t, exec i s = .next t := by
  cases i <;>
    simp only [exec, execNop, execScaninit, execRdbit, execRdbits, execAlign, execHtbuild, execDecsym, execDecdc,
      execDecac, execDecblk, execDecmcu, execDecscan, execDequant, execIdct, execColor, execReset, execDccat,
      execDcbad, execEob, execZrl, execZrun, execAccoef, execAcbad, loneDc, loneAc, command, plainCommand,
      compCommand] <;> (try split) <;> exact ⟨_, rfl⟩

end Sys2Proof.Machine
end

