-- ==== Sys2Proof/Laws/Exec.lean ====
section
/-! SUPPORT. What `exec` can do, said once for all instructions: nothing while `VALID = 0`; else the state `After`
describes, or a fault raised in a state `Broken` describes.  The frames and the invariants are case distinctions on it. -/

namespace Sys2Proof.Machine

variable {s t u : State} {i : Instr}

/-- Bits have been read or skipped: the cursor has not moved back, and not beyond the end of the stream. -/
def BitsRead (s t : State) : Prop :=
  ∃ q, cursorPos s ≤ q ∧ q ≤ max (cursorPos s) (streamEnd s) ∧ t = atPos q s

/-- Bits have been read, and what was returned stands in `RESULT` and `RFAIL`. -/
def BitsReturned (s t : State) : Prop := ∃ m r f, BitsRead s m ∧ t = { m with result := r, rfail := f }

/-- The state an instruction leaves where it completes. -/
def After (s t : State) : Instr → Prop
  | .nop => t = s
  | .scaninit => t = startScan s ∧ (s.ncomp.toNat = 1 ∨ s.ncomp.toNat = 3) ∧ s.width ≠ 0#16 ∧
      s.height ≠ 0#16 ∧ s.entLen.toNat ≤ s.cfg.entCap.toNat ∧ unitCount s ≤ s.cfg.gridCap
  | .rdbit => BitsReturned s t
  | .rdbits n => n.toNat ≤ 16 ∧ BitsReturned s t
  | .align => BitsRead s t
  | .htbuild k i => t = setHt k i (builtTable s k i) s ∧ (s.ht k i).set = true ∧ OffsetsLegal s k i
  | .decsym k i => Ready s k i ∧ BitsReturned s t
  | .decdc c => ∃ e, compIndex c = some e ∧ s.phase = .decode ∧ ∃ diff q, DcItem s (dcTableOf s e) (cursorPos s) diff q ∧
      fits (predAt s e + diff) = true ∧
      t = atPos q (putCoef e 0 (predAt s e + diff) (setPred e (predAt s e + diff) s))
  | .decac c => ∃ e, compIndex c = some e ∧ s.phase = .decode ∧ ∃ vs q,
      AcItems s (acTableOf s e) 1 (cursorPos s) vs 64 q ∧ t = atPos q (storeCoefs e 1 vs s)
  | .decblk c => ∃ e, compIndex c = some e ∧ s.phase = .decode ∧ BlockDecodes e s t
  | .decmcu => UnitReady s ∧ UnitDecodes s t
  | .decscan => UnitReady s ∧ Scanned s t
  | .dequant => Staged .coef .deq s t
  | .idct => Staged .deq .spatial s t
  | .color => Staged .spatial .rgb s t
  | .reset => t = resetEngine s
  | .dccat _ => Decoded [s.sym.comp] s t
  | .dcbad _ => False
  | .eob => AcSymbolRuns s.sym.comp s t
  | .zrl => AcSymbolRuns s.sym.comp s t
  | .zrun _ => AcSymbolRuns s.sym.comp s t
  | .accoef _ _ => AcSymbolRuns s.sym.comp s t
  | .acbad _ _ => False

/-- The state an instruction has made when it raises a fault. -/
def Broken (s u : State) : Instr → Prop
  | .htbuild k i => u = setHt k i { s.ht k i with built := false } s
  | .decsym _ _ => u = s ∨ ∃ m, BitsRead s m ∧ u = setFail m
  | .decdc _ => Decoded [] s u
  | .decac _ => Decoded [] s u
  | .decblk c => u = s ∨ ∃ e, compIndex c = some e ∧ Decoded [e] s u
  | .decmcu => Decoded [0, 1, 2] s u
  | .decscan => ScanBroken s u
  | .dccat _ => Decoded [] s u
  | .accoef _ _ => Decoded [] s u
  | _ => u = s

/-- The end of a command whose procedure ends as said. -/
theorem command_after {α : Type} {body : State → Ran α} {P Q : State → Prop}
    (h : s.valid = true → EndsIn (body s) P Q) (e : command body s = .next t) :
    (s.valid = false ∧ t = s) ∨ (s.valid = true ∧ P t) ∨
      (s.valid = true ∧ ∃ f u, f ≠ .none ∧ t = raise f u ∧ Q u) := by
  cases hv : s.valid
  · rw [command_invalid hv] at e
    exact .inl ⟨rfl, by injection e with e; exact e.symm⟩
  · rw [command_valid hv] at e
    injection e with e
    rcases (h hv).state with h | ⟨f, u, h0, h1, h2⟩
    · exact .inr (.inl ⟨rfl, e ▸ h⟩)
    · exact .inr (.inr ⟨rfl, f, u, h0, e ▸ h1, h2⟩)

theorem plainCommand_after {f : State → State} {P : State → Prop} (h : s.valid = true → P (f s))
    (e : plainCommand f s = .next t) : (s.valid = false ∧ t = s) ∨ (s.valid = true ∧ P t) := by
  cases hv : s.valid
  · rw [plainCommand_invalid hv] at e
    exact .inl ⟨rfl, by injection e with e; exact e.symm⟩
  · rw [plainCommand_valid hv] at e
    injection e with e
    exact .inr ⟨rfl, e ▸ h hv⟩

theorem bitsRead_self (s : State) : BitsRead s s := ⟨cursorPos s, le_rfl, le_max_left _ _, by simp⟩

theorem bitsRead_readBits (n : Nat) (s : State) : BitsRead s (readBits n s).2 := by
  rw [readBits_eq]; split
  · next h =>
    refine ⟨_, ?_, ?_, rfl⟩ <;> omega
  · exact ⟨_, le_max_left _ _, le_rfl, rfl⟩

theorem bitsRead_readBit (s : State) : BitsRead s (readBit s).2 := by
  rw [readBit_eq]; split
  · next h => refine ⟨_, ?_, ?_, rfl⟩ <;> omega
  · exact bitsRead_self s

theorem bitsRead_align (s : State) : BitsRead s (align s) := by
  obtain ⟨p, e⟩ := align_atPos s
  have h1 := (cursorPos_align s).1
  have h2 := cursorPos_align_le s
  refine ⟨cursorPos (align s), h1, h2, ?_⟩
  have e2 : align s = atPos (cursorPos (align s)) (align s) := (atPos_cursorPos (align s)).symm
  conv_lhs => rw [e2]
  conv_lhs => rw [e, atPos_atPos, ← e]

theorem returned_of_read {r : Option Nat × State} (h : BitsRead s r.2) : BitsReturned s (returnBits r) := by
  rcases r with ⟨_ | v, m⟩
  · exact ⟨m, _, _, h, rfl⟩
  · exact ⟨m, _, _, h, rfl⟩

/-- DECSYM completes with a symbol, or raises where it stands or behind the bits it has read. -/
theorem decsym_ends (k : HuffClass) (i : Fin 4) (s : State) :
    EndsIn (decsymBody k i s) (fun t => Ready s k i ∧ BitsReturned s t)
      (fun u => u = s ∨ ∃ m, BitsRead s m ∧ u = setFail m) := by
  rcases decsym_cases k i s with ⟨l, j, hr, hf, e⟩ | ⟨_, _, e⟩ | ⟨_, e⟩
  · rw [e]
    have := hf.2.1
    exact .done ⟨hr, _, _, _, ⟨cursorPos s + l, by omega, by omega, rfl⟩, rfl⟩
  · obtain ⟨f, q, h0, h1, h2, e2⟩ := lostCode_eq s
    rw [e, e2]
    exact .inr ⟨f, setFail (atPos q s), h0, rfl, .inr ⟨_, ⟨q, h1, h2, rfl⟩, rfl⟩⟩
  · rw [e]; exact .raised (by simp) (.inl rfl)

theorem compCommand_after {α : Type} {c : BitVec 2} {body : Fin 3 → State → Ran α} {P Q : Fin 3 → State → Prop}
    (h : ∀ e, s.valid = true → EndsIn (body e s) (P e) (Q e)) (he : compCommand c body s = .next t) :
    (s.valid = false ∧ t = s) ∨ (s.valid = true ∧ ∃ e, compIndex c = some e ∧ P e t) ∨
      (s.valid = true ∧ ∃ f u, f ≠ .none ∧ t = raise f u ∧ (u = s ∨ ∃ e, compIndex c = some e ∧ Q e u)) := by
  unfold compCommand at he
  cases hc : compIndex c with
  | none =>
    rw [hc] at he
    rcases plainCommand_after (P := fun t => t = raise .illcmd s) (fun _ => rfl) he with h | ⟨hv, h⟩
    · exact .inl h
    · exact .inr (.inr ⟨hv, .illcmd, s, by simp, h, .inl rfl⟩)
  | some e =>
    rw [hc] at he
    rcases command_after (h e) he with h | ⟨hv, h⟩ | ⟨hv, f, u, h0, h1, h2⟩
    · exact .inl h
    · exact .inr (.inl ⟨hv, e, rfl, h⟩)
    · exact .inr (.inr ⟨hv, f, u, h0, h1, .inr ⟨e, rfl, h2⟩⟩)

/-- Whatever an instruction does: nothing while `VALID = 0`, or what `After` says, or the fault `Broken` says. -/
theorem exec_after (hi : i ≠ .reset) (h : exec i s = .next t) :
    (s.valid = false ∧ t = s) ∨ (s.valid = true ∧ After s t i) ∨
      (s.valid = true ∧ ∃ f u, f ≠ .none ∧ t = raise f u ∧ Broken s u i) := by
  have lift : ∀ {A B : Prop}, (A ∨ B) → A ∨ B ∨ (s.valid = true ∧ ∃ f u, f ≠ .none ∧ t = raise f u ∧ Broken s u i) :=
    fun h => h.imp_right .inl
  cases i with
  | nop => exact lift (plainCommand_after (P := fun t => t = s) (fun _ => rfl) h)
  | scaninit => exact command_after (fun _ => scaninit_ends s) h
  | rdbit => exact lift (plainCommand_after (f := fun s => returnBits (readBit s)) (P := BitsReturned s)
      (fun _ => returned_of_read (bitsRead_readBit s)) h)
  | rdbits n =>
    simp only [exec, execRdbits] at h
    split at h
    · next hn => exact lift (plainCommand_after (P := fun t => n.toNat ≤ 16 ∧ BitsReturned s t)
        (fun _ => ⟨hn, returned_of_read (bitsRead_readBits _ s)⟩) h)
    · rcases plainCommand_after (P := fun t => t = raise .illcmd s) (fun _ => rfl) h with h | ⟨hv, h⟩
      · exact .inl h
      · exact .inr (.inr ⟨hv, .illcmd, s, by simp, h, rfl⟩)
  | align => exact lift (plainCommand_after (P := BitsRead s) (fun _ => bitsRead_align s) h)
  | htbuild k i => exact command_after (fun _ => htbuild_ends k i s) h
  | decsym k i => exact command_after (fun _ => decsym_ends k i s) h
  | decdc c =>
    rcases compCommand_after (fun e _ => decdc_ends e s) h with h | h | ⟨hv, f, u, h0, h1, h2⟩
    · exact .inl h
    · exact .inr (.inl h)
    · exact .inr (.inr ⟨hv, f, u, h0, h1, by rcases h2 with rfl | ⟨_, _, h⟩; exact .refl _ _; exact h⟩)
  | decac c =>
    rcases compCommand_after (fun e _ => decac_ends e s) h with h | h | ⟨hv, f, u, h0, h1, h2⟩
    · exact .inl h
    · exact .inr (.inl h)
    · exact .inr (.inr ⟨hv, f, u, h0, h1, by rcases h2 with rfl | ⟨_, _, h⟩; exact .refl _ _; exact h⟩)
  | decblk c => exact compCommand_after (fun e _ => decblk_ends e s) h
  | decmcu => exact command_after (fun hv => decmcu_ends hv) h
  | decscan => exact command_after (fun hv => decscan_ends hv) h
  | dequant => exact command_after (fun _ => dequant_ends s) h
  | idct => exact command_after (fun _ => idct_ends s) h
  | color => exact command_after (fun _ => color_ends s) h
  | reset => exact absurd rfl hi
  | dccat cat => exact command_after (fun _ => symDccat_ends cat s.sym.comp s) h
  | dcbad b =>
    exact command_after (body := symDcbad b s.sym.comp) (P := fun _ => False) (Q := fun u => u = s)
      (fun _ => EndsIn.raised (by simp) rfl) h
  | eob =>
    exact command_after (body := fun s' => storeK (symEob s.sym.comp s.sym.k s')) (Q := fun u => u = s)
      (fun _ => .done (eob_runs s.sym.comp s.sym.k s)) h
  | zrl =>
    exact command_after (body := fun s' => storeK (symZrl s.sym.comp s.sym.k s'))
      (fun _ => zeroRun_ends 16 s.sym.comp s.sym.k s) h
  | zrun run =>
    exact command_after (body := fun s' => storeK (symZrun run s.sym.comp s.sym.k s'))
      (fun _ => zeroRun_ends run.toNat s.sym.comp s.sym.k s) h
  | accoef run size =>
    exact command_after (body := fun s' => storeK (symAccoef run size s.sym.comp s.sym.k s'))
      (fun _ => symAccoef_ends run size s.sym.comp s.sym.k s) h
  | acbad run size =>
    exact command_after (body := fun s' => storeK (symAcbad run size s.sym.comp s.sym.k s')) (P := fun _ => False)
      (Q := fun u => u = s) (fun _ => EndsIn.raised (f := .acsize) (by simp) rfl) h

end Sys2Proof.Machine
end

