-- ==== Sys2Proof/Laws/HostPort.lean ====
section
/-! SUPPORT. The addresses of the host (20_memory R70, R72): each element has one, an address has at most one element, and what
an address without one does. -/

namespace Sys2Proof.Machine

/-- The element at the address of an element is that element. -/
@[simp] theorem elem_address (e : Elem) : e.address.elem = some e := by
  cases e <;> first
    | rfl
    | (simp [Elem.address, Address.elem, quantStore]; done)
    | (rename_i k t _; cases k <;> simp [Elem.address, Address.elem, huffStore, classNumber])
    | (rename_i k t; cases k <;> simp [Elem.address, Address.elem, huffStore, classNumber])

/-- An address with an element is the address of that element. -/
theorem address_of_elem {a : Address} {e : Elem} (h : a.elem = some e) : e.address = a := by
  have hk : ∀ k, k < 2 → classNumber (if k = 0 then .dc else .ac) = k := by decide
  cases a <;> simp only [Address.elem, huffStore, quantStore, Option.map_eq_some_iff] at h
  all_goals first
    | (injection h with h; subst h; rfl)
    | (obtain ⟨x, h1, rfl⟩ := h
       split at h1
       · next hb => injection h1 with h1; subst h1; simp [Elem.address, hk _ hb.1]
       · cases h1)
    | (obtain ⟨x, h1, rfl⟩ := h
       split at h1
       · next hb => injection h1 with h1; subst h1; rfl
       · cases h1)

/-- An address that is no element's has none. -/
theorem elem_eq_none {a : Address} (h : ∀ e : Elem, e.address ≠ a) : a.elem = none := by
  cases he : a.elem with
  | none => rfl
  | some e => exact absurd (address_of_elem he) (h e)

variable (s : State) (v : Word)

@[simp] theorem addressRead_address (e : Elem) : addressRead s e.address = memRead s e := by simp [addressRead]
@[simp] theorem addressWrite_address (e : Elem) : addressWrite s e.address v = memWrite s e v := by simp [addressWrite]
theorem addressRead_none {a : Address} (h : ∀ e : Elem, e.address ≠ a) : addressRead s a = 0 := by
  simp [addressRead, elem_eq_none h]
theorem addressWrite_none {a : Address} (h : ∀ e : Elem, e.address ≠ a) : addressWrite s a v = s := by
  simp [addressWrite, elem_eq_none h]

/-- A host write changes nothing, or is the write of one element. -/
theorem addressWrite_cases (a : Address) : addressWrite s a v = s ∨ ∃ e, addressWrite s a v = memWrite s e v := by
  unfold addressWrite
  split
  · exact .inr ⟨_, rfl⟩
  · exact .inl rfl

theorem elemInRange_iff (e : Elem) : elemInRange s e = true ↔ Present s e := by
  cases e <;> simp [elemInRange, Present]

end Sys2Proof.Machine
end

