-- ==== Sys2Proof/Laws/InverseDct.lean ====
section
/-! SUPPORT. The exact numbers of the inverse transform are what they stand for: their arithmetic, their sign and the
rounding of a sixteenth of one agree with the reals (44_inverse_dct R210, R212). -/

namespace Sys2Proof.Machine

/-! ## The three roots -/

/-- √2 = 2cos(π/4). -/
noncomputable def rootTwo : ℝ := √2

/-- η = 2cos(π/8). -/
noncomputable def rootEta : ℝ := √(2 + √2)

/-- θ = 2cos(π/16). -/
noncomputable def rootTheta : ℝ := √(2 + √(2 + √2))

theorem rootTwo_sq : rootTwo ^ 2 = 2 := Real.sq_sqrt (by norm_num)
theorem rootEta_sq : rootEta ^ 2 = 2 + rootTwo := Real.sq_sqrt (by positivity)
theorem rootTheta_sq : rootTheta ^ 2 = 2 + rootEta := Real.sq_sqrt (by positivity)

theorem rootTwo_pos : 0 < rootTwo := Real.sqrt_pos.mpr (by norm_num)
theorem rootEta_pos : 0 < rootEta := Real.sqrt_pos.mpr (by positivity)
theorem rootTheta_pos : 0 < rootTheta := Real.sqrt_pos.mpr (by positivity)

theorem rootTwo_lt : rootTwo < 2 := by nlinarith [rootTwo_sq, rootTwo_pos]
theorem rootEta_lt : rootEta < 2 := by nlinarith [rootEta_sq, rootEta_pos, rootTwo_lt]
theorem rootTheta_lt : rootTheta < 2 := by nlinarith [rootTheta_sq, rootTheta_pos, rootEta_lt]

/-! ## Values -/

/-- The real number an exact number stands for. -/
noncomputable def Z1.val (x : Z1) : ℝ := x.a + x.b * rootTwo

/-- The real number an exact number stands for. -/
noncomputable def Z2.val (x : Z2) : ℝ := x.a.val + x.b.val * rootEta

/-- The real number an exact number stands for. -/
noncomputable def Z3.val (x : Z3) : ℝ := x.a.val + x.b.val * rootTheta

@[simp] theorem Z1.val_ofInt (n : Int) : (Z1.ofInt n).val = n := by simp [Z1.val, Z1.ofInt]
@[simp] theorem Z1.val_add (x y : Z1) : (x.add y).val = x.val + y.val := by
  simp only [Z1.val, Z1.add]; push_cast; ring
@[simp] theorem Z1.val_neg (x : Z1) : x.neg.val = -x.val := by simp only [Z1.val, Z1.neg]; push_cast; ring
@[simp] theorem Z1.val_mul (x y : Z1) : (x.mul y).val = x.val * y.val := by
  simp only [Z1.val, Z1.mul]; push_cast
  linear_combination (-(x.b : ℝ) * y.b) * rootTwo_sq
@[simp] theorem Z1.val_etaSq : Z1.etaSq.val = rootEta ^ 2 := by simp [Z1.val, Z1.etaSq, rootEta_sq]

@[simp] theorem Z2.val_ofZ1 (x : Z1) : (Z2.ofZ1 x).val = x.val := by simp [Z2.val, Z2.ofZ1]
@[simp] theorem Z2.val_ofInt (n : Int) : (Z2.ofInt n).val = n := by simp [Z2.ofInt]
@[simp] theorem Z2.val_add (x y : Z2) : (x.add y).val = x.val + y.val := by
  simp only [Z2.val, Z2.add, Z1.val_add]; ring
@[simp] theorem Z2.val_neg (x : Z2) : x.neg.val = -x.val := by simp only [Z2.val, Z2.neg, Z1.val_neg]; ring
@[simp] theorem Z2.val_mul (x y : Z2) : (x.mul y).val = x.val * y.val := by
  simp only [Z2.val, Z2.mul, Z1.val_add, Z1.val_mul, Z1.val_etaSq]; ring
@[simp] theorem Z2.val_eta : Z2.eta.val = rootEta := by simp [Z2.val, Z2.eta]
@[simp] theorem Z2.val_thetaSq : Z2.thetaSq.val = rootTheta ^ 2 := by simp [Z2.val, Z2.thetaSq, rootTheta_sq]

@[simp] theorem Z3.val_ofZ2 (x : Z2) : (Z3.ofZ2 x).val = x.val := by simp [Z3.val, Z3.ofZ2]
@[simp] theorem Z3.val_ofInt (n : Int) : (Z3.ofInt n).val = n := by simp [Z3.ofInt]
@[simp] theorem Z3.val_add (x y : Z3) : (x.add y).val = x.val + y.val := by
  simp only [Z3.val, Z3.add, Z2.val_add]; ring
@[simp] theorem Z3.val_neg (x : Z3) : x.neg.val = -x.val := by simp only [Z3.val, Z3.neg, Z2.val_neg]; ring
@[simp] theorem Z3.val_mul (x y : Z3) : (x.mul y).val = x.val * y.val := by
  simp only [Z3.val, Z3.mul, Z2.val_add, Z2.val_mul, Z2.val_thetaSq]; ring
@[simp] theorem Z3.val_scale (n : Int) (x : Z3) : (Z3.scale n x).val = n * x.val := by simp [Z3.scale]

theorem val_sumZ3 (f : Nat → Z3) (n : Nat) : (sumZ3 f n).val = ∑ k ∈ Finset.range n, (f k).val := by
  induction n with
  | zero => simp [sumZ3]
  | succ n ih => simp [sumZ3, Finset.sum_range_succ, ih]

/-! ## Signs -/

/-- The sign of `a + b·r` by the signs of `a` and `b` and of `a² - b²·r²`. -/
theorem nonneg_by_signs {a b r : ℝ} (hr : 0 < r) {na nb n1 n2 : Bool} (ha : na = true ↔ 0 ≤ a)
    (hb : nb = true ↔ 0 ≤ b) (h1 : n1 = true ↔ 0 ≤ a ^ 2 - b ^ 2 * r ^ 2) (h2 : n2 = true ↔ 0 ≤ b ^ 2 * r ^ 2 - a ^ 2) :
    (match na, nb with
      | true, true => true
      | true, false => n1
      | false, true => n2
      | false, false => false) = true ↔ 0 ≤ a + b * r := by
  cases na <;> cases nb <;> simp only [Bool.false_eq_true, false_iff, true_iff, not_le] at ha hb ⊢
  · nlinarith
  · rw [h2]
    have : 0 ≤ b * r := by positivity
    constructor <;> intro h <;> nlinarith [abs_le_of_sq_le_sq' (show a ^ 2 ≤ (b * r) ^ 2 from by nlinarith) this]
  · rw [h1]
    have hbr : b * r < 0 := mul_neg_of_neg_of_pos hb hr
    constructor
    · intro h
      have := abs_le_of_sq_le_sq' (show (b * r) ^ 2 ≤ a ^ 2 by nlinarith) ha
      linarith [this.1]
    · intro h; nlinarith
  · positivity

theorem intNonneg_iff (n : Int) : intNonneg n = true ↔ (0 : ℝ) ≤ n := by simp [intNonneg]

theorem Z1.nonneg_iff (x : Z1) : x.nonneg = true ↔ 0 ≤ x.val := by
  refine nonneg_by_signs rootTwo_pos (intNonneg_iff _) (intNonneg_iff _) ?_ ?_ <;> rw [intNonneg_iff, rootTwo_sq] <;>
    push_cast <;> ring_nf

theorem Z2.nonneg_iff (x : Z2) : x.nonneg = true ↔ 0 ≤ x.val := by
  refine nonneg_by_signs rootEta_pos (Z1.nonneg_iff _) (Z1.nonneg_iff _) ?_ ?_ <;> rw [Z1.nonneg_iff] <;>
    simp only [Z1.val_add, Z1.val_neg, Z1.val_mul, Z1.val_etaSq] <;> ring_nf

theorem Z3.nonneg_iff (x : Z3) : x.nonneg = true ↔ 0 ≤ x.val := by
  refine nonneg_by_signs rootTheta_pos (Z2.nonneg_iff _) (Z2.nonneg_iff _) ?_ ?_ <;> rw [Z2.nonneg_iff] <;>
    simp only [Z2.val_add, Z2.val_neg, Z2.val_mul, Z2.val_thetaSq] <;> ring_nf

/-! ## Rounding -/

theorem Z1.abs_val_le (x : Z1) : |x.val| ≤ x.bound := by
  have h := rootTwo_pos; have h' := rootTwo_lt
  have e : |(x.b : ℝ) * rootTwo| ≤ 2 * |(x.b : ℝ)| := by
    rw [abs_mul, abs_of_pos h]; nlinarith [abs_nonneg (x.b : ℝ)]
  have : ((x.bound : Nat) : ℝ) = |(x.a : ℝ)| + 2 * |(x.b : ℝ)| := by
    simp [Z1.bound, Nat.cast_natAbs]
  rw [this, Z1.val]
  exact (abs_add_le _ _).trans (by linarith)

theorem Z2.abs_val_le (x : Z2) : |x.val| ≤ x.bound := by
  have h := rootEta_pos; have h' := rootEta_lt
  have ha := x.a.abs_val_le; have hb := x.b.abs_val_le
  have e : |x.b.val * rootEta| ≤ 2 * x.b.bound := by
    rw [abs_mul, abs_of_pos h]; nlinarith [abs_nonneg x.b.val]
  have : ((x.bound : Nat) : ℝ) = x.a.bound + 2 * x.b.bound := by simp [Z2.bound]
  rw [this, Z2.val]
  exact (abs_add_le _ _).trans (by linarith)

theorem Z3.abs_val_le (x : Z3) : |x.val| ≤ x.bound := by
  have h := rootTheta_pos; have h' := rootTheta_lt
  have ha := x.a.abs_val_le; have hb := x.b.abs_val_le
  have e : |x.b.val * rootTheta| ≤ 2 * x.b.bound := by
    rw [abs_mul, abs_of_pos h]; nlinarith [abs_nonneg x.b.val]
  have : ((x.bound : Nat) : ℝ) = x.a.bound + 2 * x.b.bound := by simp [Z3.bound]
  rw [this, Z3.val]
  exact (abs_add_le _ _).trans (by linarith)

/-- The search finds the last integer where a falling test holds. -/
theorem searchFrom_spec {test : Int → Bool} {last : Int} (ht : ∀ m, test m = true ↔ m ≤ last) (n : Nat) {m : Int}
    (h1 : m ≤ last) (h2 : last < m + 2 ^ n) : searchFrom test n m = last := by
  induction n generalizing m with
  | zero => simp only [searchFrom]; omega
  | succ n ih =>
    rw [searchFrom]
    split
    · next h => exact ih ((ht _).mp h) (by rw [pow_succ] at h2; omega)
    · next h => exact ih h1 (by rw [ht] at h; omega)

/-- `floor(x / 16)` is what it says. -/
theorem Z3.floor16_eq (x : Z3) : x.floor16 = ⌊x.val / 16⌋ := by
  have hb := abs_le.mp x.abs_val_le
  have hr : (x.bound : ℝ) < 16 * x.reach := by
    have h : x.bound < 16 * x.reach := by unfold Z3.reach; omega
    exact_mod_cast h
  refine searchFrom_spec (fun m => ?_) _ ?_ ?_
  · rw [Z3.nonneg_iff, Int.le_floor, le_div_iff₀ (by norm_num)]
    simp only [Z3.val_add, Z3.val_ofInt]
    push_cast
    constructor <;> intro h <;> linarith
  · rw [Int.le_floor, le_div_iff₀ (by norm_num)]
    push_cast; linarith [hb.1]
  · rw [Int.floor_lt, div_lt_iff₀ (by norm_num)]
    have h2 : 2 * x.reach < 2 ^ ((2 * x.reach).log2 + 1) := Nat.lt_log2_self
    have h3 : (2 * x.reach : ℝ) < 2 ^ ((2 * x.reach).log2 + 1) := by exact_mod_cast h2
    push_cast
    linarith [hb.2]

/-! ## Cosines -/

theorem two_cos_sub (a b : ℝ) : 2 * Real.cos (a + b) = 2 * Real.cos a * (2 * Real.cos b) - 2 * Real.cos (a - b) := by
  rw [Real.cos_add, Real.cos_sub]; ring

theorem val_twoCosTable : ∀ j : Nat, j ≤ 8 → (twoCosTable j).val = 2 * Real.cos (j * Real.pi / 16) := by
  have c1 : 2 * Real.cos (Real.pi / 16) = rootTheta := by
    rw [show Real.pi / 16 = Real.pi / 16 from rfl, Real.cos_pi_div_sixteen]; unfold rootTheta; ring
  have c2 : 2 * Real.cos (Real.pi / 8) = rootEta := by rw [Real.cos_pi_div_eight]; unfold rootEta; ring
  have c4 : 2 * Real.cos (Real.pi / 4) = rootTwo := by rw [Real.cos_pi_div_four]; unfold rootTwo; ring
  have c3 : 2 * Real.cos (3 * Real.pi / 16) = rootEta * rootTheta - rootTheta := by
    rw [show 3 * Real.pi / 16 = Real.pi / 8 + Real.pi / 16 by ring, two_cos_sub,
      show Real.pi / 8 - Real.pi / 16 = Real.pi / 16 by ring, c1, c2]
  have c5 : 2 * Real.cos (5 * Real.pi / 16) = rootTwo * rootTheta - (rootEta * rootTheta - rootTheta) := by
    rw [show 5 * Real.pi / 16 = Real.pi / 4 + Real.pi / 16 by ring, two_cos_sub,
      show Real.pi / 4 - Real.pi / 16 = 3 * Real.pi / 16 by ring, c1, c4, c3]
  have c6 : 2 * Real.cos (6 * Real.pi / 16) = rootTwo * rootEta - rootEta := by
    rw [show 6 * Real.pi / 16 = Real.pi / 4 + Real.pi / 8 by ring, two_cos_sub,
      show Real.pi / 4 - Real.pi / 8 = Real.pi / 8 by ring, c2, c4]
  have c7 : 2 * Real.cos (7 * Real.pi / 16) =
      (rootTwo * rootEta - rootEta) * rootTheta - (rootTwo * rootTheta - (rootEta * rootTheta - rootTheta)) := by
    rw [show 7 * Real.pi / 16 = 6 * Real.pi / 16 + Real.pi / 16 by ring, two_cos_sub,
      show 6 * Real.pi / 16 - Real.pi / 16 = 5 * Real.pi / 16 by ring, c1, c6, c5]
  intro j hj
  have : j = 0 ∨ j = 1 ∨ j = 2 ∨ j = 3 ∨ j = 4 ∨ j = 5 ∨ j = 6 ∨ j = 7 ∨ j = 8 := by omega
  rcases this with rfl | rfl | rfl | rfl | rfl | rfl | rfl | rfl | rfl
  · simp [twoCosTable]
  · rw [show ((1 : Nat) : ℝ) * Real.pi / 16 = Real.pi / 16 by push_cast; ring, c1]; simp [twoCosTable, Z3.val]
  · rw [show ((2 : Nat) : ℝ) * Real.pi / 16 = Real.pi / 8 by push_cast; ring, c2]; simp [twoCosTable]
  · rw [show ((3 : Nat) : ℝ) * Real.pi / 16 = 3 * Real.pi / 16 by push_cast; ring, c3]
    simp [twoCosTable, Z3.val, Z2.val, Z1.val, Z2.ofInt, Z2.ofZ1, Z1.ofInt]; ring
  · rw [show ((4 : Nat) : ℝ) * Real.pi / 16 = Real.pi / 4 by push_cast; ring, c4]; simp [twoCosTable, Z1.val]
  · rw [show ((5 : Nat) : ℝ) * Real.pi / 16 = 5 * Real.pi / 16 by push_cast; ring, c5]
    simp [twoCosTable, Z3.val, Z2.val, Z1.val, Z2.ofInt, Z2.ofZ1, Z1.ofInt]; ring
  · rw [show ((6 : Nat) : ℝ) * Real.pi / 16 = 6 * Real.pi / 16 by push_cast; ring, c6]
    simp [twoCosTable, Z2.val, Z1.val]; ring
  · rw [show ((7 : Nat) : ℝ) * Real.pi / 16 = 7 * Real.pi / 16 by push_cast; ring, c7]
    simp [twoCosTable, Z3.val, Z2.val, Z1.val, Z2.ofInt, Z2.ofZ1, Z1.ofInt]; ring
  · rw [show ((8 : Nat) : ℝ) * Real.pi / 16 = Real.pi / 2 by push_cast; ring, Real.cos_pi_div_two]; simp [twoCosTable]

/-- `2·cos(m·π/16)` by reduction to the table. -/
theorem val_twoCos (m : Nat) : (twoCos m).val = 2 * Real.cos (m * Real.pi / 16) := by
  have hperiod : Real.cos (m * Real.pi / 16) = Real.cos ((m % 32 : Nat) * Real.pi / 16) := by
    conv_lhs => rw [← Nat.div_add_mod m 32]
    rw [show ((32 * (m / 32) + m % 32 : Nat) : ℝ) * Real.pi / 16 =
      (m % 32 : Nat) * Real.pi / 16 + (m / 32 : Nat) * (2 * Real.pi) by push_cast; ring]
    exact Real.cos_add_nat_mul_two_pi _ _
  have hlt := Nat.mod_lt m (show 0 < 32 by norm_num)
  have key : ∀ r : Nat, r ≤ 16 → (if r ≤ 8 then twoCosTable r else (twoCosTable (16 - r)).neg).val =
      2 * Real.cos (r * Real.pi / 16) := by
    intro r hr
    split
    · next h => exact val_twoCosTable r h
    · next h =>
      rw [Z3.val_neg, val_twoCosTable _ (by omega), Nat.cast_sub hr,
        show ((16 : Nat) - r : ℝ) * Real.pi / 16 = Real.pi - r * Real.pi / 16 by push_cast; ring, Real.cos_pi_sub]
      ring
  rw [hperiod, twoCos]
  split
  · next h => exact key _ h
  · next h =>
    rw [key _ (by omega), Nat.cast_sub (by omega),
      show ((32 : Nat) - (m % 32 : Nat) : ℝ) * Real.pi / 16 = 2 * Real.pi - (m % 32 : Nat) * Real.pi / 16 by
        push_cast; ring, Real.cos_two_pi_sub]

theorem val_basis (x u : Nat) :
    (basis x u).val = 2 * refC u * Real.cos ((2 * x + 1) * u * Real.pi / 16) := by
  unfold basis refC
  split
  · next h =>
    subst h
    rw [val_twoCosTable 4 (by norm_num), show ((4 : Nat) : ℝ) * Real.pi / 16 = Real.pi / 4 by push_cast; ring,
      Real.cos_pi_div_four]
    simp only [Nat.cast_zero, mul_zero, zero_mul, zero_div, Real.cos_zero, mul_one]
    have h2 : √2 * √2 = 2 := Real.mul_self_sqrt (by norm_num)
    have h3 : (√2 : ℝ) ≠ 0 := by positivity
    field_simp
    nlinarith
  · rw [val_twoCos]; push_cast; ring

/-- The squares of the basis along a row of the transform add up to 16. -/
theorem basis_squares : ∀ x : Nat, x < 8 → ∑ u ∈ Finset.range 8, (basis x u).val ^ 2 = 16 := by
  have h : ∀ x : Fin 8, sumZ3 (fun u => (basis x u).mul (basis x u)) 8 = Z3.ofInt 16 := by decide
  intro x hx
  have e := congrArg Z3.val (h ⟨x, hx⟩)
  rw [val_sumZ3, Z3.val_ofInt] at e
  simpa [pow_two] using e

/-! ## The transform -/

theorem val_refTimes16 (F : Block) (y x : Nat) : (refTimes16 F y x).val =
    ∑ v ∈ Finset.range 8, ∑ u ∈ Finset.range 8, (F.getD (8 * v + u) 0 : ℝ) * (basis x u).val * (basis y v).val := by
  rw [refTimes16, val_sumZ3]
  refine Finset.sum_congr rfl fun v _ => ?_
  rw [Z3.val_mul, rowPass, val_sumZ3, Finset.sum_mul]
  refine Finset.sum_congr rfl fun u _ => ?_
  rw [Z3.val_scale]; rfl

/-- The exact sum is sixteen times the direct transform. -/
theorem val_refTimes16_eq (F : Block) (y x : Nat) : (refTimes16 F y x).val = 16 * refReal F y x := by
  rw [val_refTimes16, refReal, Finset.mul_sum, Finset.mul_sum]
  refine Finset.sum_congr rfl fun v _ => ?_
  rw [Finset.mul_sum, Finset.mul_sum]
  refine Finset.sum_congr rfl fun u _ => ?_
  rw [val_basis, val_basis]; ring

end Sys2Proof.Machine
end

