-- ==== Sys2Proof/Laws/PerInstr.lean ====
section
/-! SUPPORT. One law per instruction, about its encoding: a level 1 instruction is a command word whose low byte is its
operation code (30_encoding R100, R104), a level 2 instruction a symbol byte of a table of its class (R109, R112). -/

namespace Sys2Proof

/-- The operation code of a level 1 instruction (30_encoding R104). -/
def Instr.opCode : Instr → Option Byte
  | .nop => some 0x00#8
  | .scaninit => some 0x01#8
  | .rdbit => some 0x10#8
  | .rdbits _ => some 0x11#8
  | .align => some 0x12#8
  | .htbuild _ _ => some 0x20#8
  | .decsym _ _ => some 0x21#8
  | .decdc _ => some 0x22#8
  | .decac _ => some 0x23#8
  | .decblk _ => some 0x24#8
  | .decmcu => some 0x25#8
  | .decscan => some 0x26#8
  | .dequant => some 0x30#8
  | .idct => some 0x31#8
  | .color => some 0x32#8
  | .reset => some 0xFF#8
  | .dccat _ => none
  | .dcbad _ => none
  | .eob => none
  | .zrl => none
  | .zrun _ => none
  | .accoef _ _ => none
  | .acbad _ _ => none

/-- The class of the tables a level 2 instruction's byte stands in (30_encoding R114). -/
def Instr.symbolClass : Instr → Option HuffClass
  | .nop => none
  | .scaninit => none
  | .rdbit => none
  | .rdbits _ => none
  | .align => none
  | .htbuild _ _ => none
  | .decsym _ _ => none
  | .decdc _ => none
  | .decac _ => none
  | .decblk _ => none
  | .decmcu => none
  | .decscan => none
  | .dequant => none
  | .idct => none
  | .color => none
  | .reset => none
  | .dccat _ => some .dc
  | .dcbad _ => some .dc
  | .eob => some .ac
  | .zrl => some .ac
  | .zrun _ => some .ac
  | .accoef _ _ => some .ac
  | .acbad _ _ => some .ac

/-- `OP` of an encoded command word, none for a symbol byte. -/
def Encoded.op : Encoded → Option Byte
  | .command w => some (opField w)
  | .symbol _ _ => none

/-- The class of an encoded symbol byte, none for a command word. -/
def Encoded.symbolClass : Encoded → Option HuffClass
  | .command _ => none
  | .symbol k _ => some k

end Sys2Proof

namespace Sys2Proof.Laws.Placement

/-- `OP` of a command word is what it was made of (30_encoding R100). -/
theorem opField_commandWord (arg op : Byte) : opField (commandWord arg op) = op := by
  apply BitVec.eq_of_getLsbD_eq
  intro i hi
  simp only [opField, commandWord, BitVec.getLsbD_setWidth, BitVec.getLsbD_or, BitVec.getLsbD_shiftLeft, hi, decide_true,
    Bool.true_and, show i < 16 by omega, Bool.not_true, Bool.false_and, Bool.and_false, Bool.false_or]

/-- An instruction's encoding is a command word with its operation code, or a symbol byte of its class. -/
def Statement (i : Instr) : Prop := (encode i).op = i.opCode ∧ (encode i).symbolClass = i.symbolClass

theorem nop : Statement .nop := ⟨congrArg some (opField_commandWord _ _), rfl⟩
theorem scaninit : Statement .scaninit := ⟨congrArg some (opField_commandWord _ _), rfl⟩
theorem rdbit : Statement .rdbit := ⟨congrArg some (opField_commandWord _ _), rfl⟩
theorem rdbits (n : BitVec 5) : Statement (.rdbits n) := ⟨congrArg some (opField_commandWord _ _), rfl⟩
theorem align : Statement .align := ⟨congrArg some (opField_commandWord _ _), rfl⟩
theorem htbuild (k : HuffClass) (t : Fin 4) : Statement (.htbuild k t) := ⟨congrArg some (opField_commandWord _ _), rfl⟩
theorem decsym (k : HuffClass) (t : Fin 4) : Statement (.decsym k t) := ⟨congrArg some (opField_commandWord _ _), rfl⟩
theorem decdc (c : BitVec 2) : Statement (.decdc c) := ⟨congrArg some (opField_commandWord _ _), rfl⟩
theorem decac (c : BitVec 2) : Statement (.decac c) := ⟨congrArg some (opField_commandWord _ _), rfl⟩
theorem decblk (c : BitVec 2) : Statement (.decblk c) := ⟨congrArg some (opField_commandWord _ _), rfl⟩
theorem decmcu : Statement .decmcu := ⟨congrArg some (opField_commandWord _ _), rfl⟩
theorem decscan : Statement .decscan := ⟨congrArg some (opField_commandWord _ _), rfl⟩
theorem dequant : Statement .dequant := ⟨congrArg some (opField_commandWord _ _), rfl⟩
theorem idct : Statement .idct := ⟨congrArg some (opField_commandWord _ _), rfl⟩
theorem color : Statement .color := ⟨congrArg some (opField_commandWord _ _), rfl⟩
theorem reset : Statement .reset := ⟨congrArg some (opField_commandWord _ _), rfl⟩
theorem dccat (cat : Byte) : Statement (.dccat cat) := ⟨rfl, rfl⟩
theorem dcbad (b : Byte) : Statement (.dcbad b) := ⟨rfl, rfl⟩
theorem eob : Statement .eob := ⟨rfl, rfl⟩
theorem zrl : Statement .zrl := ⟨rfl, rfl⟩
theorem zrun (run : BitVec 4) : Statement (.zrun run) := ⟨rfl, rfl⟩
theorem accoef (run size : BitVec 4) : Statement (.accoef run size) := ⟨rfl, rfl⟩
theorem acbad (run size : BitVec 4) : Statement (.acbad run size) := ⟨rfl, rfl⟩

end Sys2Proof.Laws.Placement
end

