-- ==== Sys2Proof/Tests/Slice0.lean ====
section
/-! SUPPORT. Tests.  Expected values come from spec/: words and bytes written out from the fields of 30_encoding R100 to
R104, R109, R112; states from the vectors of 95_test_vectors, whose names (B3, D2, A12, …) stand in the comments.
After them, for each statement with hypotheses, a state and operands that meet them. -/

namespace Sys2Proof.Tests

open Sys2Proof Sys2Proof.Machine

/-! ## WellFormed refuses -/

theorem test_rdbits_17_illFormed : (Instr.rdbits 17).wellFormed = false := by decide
theorem test_component3_illFormed : [Instr.decdc 3, .decac 3, .decblk 3].all (fun i => !i.wellFormed) = true := by decide
theorem test_dccat_12_illFormed : (Instr.dccat 12).wellFormed = false := by decide
theorem test_dcbad_11_illFormed : (Instr.dcbad 11).wellFormed = false := by decide
theorem test_zrun_0_15_illFormed : [Instr.zrun 0, .zrun 15].all (fun i => !i.wellFormed) = true := by decide
theorem test_accoef_0_11_illFormed : [Instr.accoef 3 0, .accoef 3 11].all (fun i => !i.wellFormed) = true := by decide
theorem test_acbad_10_illFormed : (Instr.acbad 0 10).wellFormed = false := by decide

/-! ## Decoding: `ARG` in bits 15:8, `OP` in bits 7:0 (R100); class bit 10, table 9:8 (R101); component 9:8 (R102);
count 12:8 (R103) -/

theorem test_decode_plain_commands :
    [0b00000000_00000000#16, 0b00000000_00000001#16, 0b00000000_00010000#16, 0b00000000_00010010#16,
     0b00000000_00100101#16, 0b00000000_00100110#16, 0b00000000_00110000#16, 0b00000000_00110001#16,
     0b00000000_00110010#16, 0b00000000_11111111#16].map (fun w => (decodeWord w).toOption) =
    [some .nop, some .scaninit, some .rdbit, some .align, some .decmcu, some .decscan, some .dequant, some .idct,
     some .color, some .reset] := by decide
theorem test_decode_rdbits : (decodeWord 0b000_10000_00010001#16).toOption = some (.rdbits 16) := by decide
theorem test_decode_htbuild : (decodeWord 0b00000_1_10_00100000#16).toOption = some (.htbuild .ac 2) := by decide
theorem test_decode_decsym : (decodeWord 0b00000_0_11_00100001#16).toOption = some (.decsym .dc 3) := by decide
theorem test_decode_components :
    [0b000000_01_00100010#16, 0b000000_10_00100011#16, 0b000000_00_00100100#16].map (fun w => (decodeWord w).toOption) =
    [some (.decdc 1), some (.decac 2), some (.decblk 0)] := by decide
theorem test_decode_dc_bytes : [0b0000_0111#8, 0b0000_1011#8, 0b0000_1100#8, 0b1000_0000#8].map (decodeSymbolByte .dc) =
    [.dccat 7, .dccat 11, .dcbad 12, .dcbad 128] := by decide
theorem test_decode_ac_bytes :
    [0b0000_0000#8, 0b1111_0000#8, 0b1110_0000#8, 0b0001_1010#8, 0b0010_1011#8, 0b1111_1100#8].map (decodeSymbolByte .ac) =
    [.eob, .zrl, .zrun 14, .accoef 1 10, .acbad 2 11, .acbad 15 12] := by decide
/-- Illegal words of 95_test_vectors 2.8. -/
theorem test_decode_illegal : [0x0002#32, 0x0100#32, 0x01FF#32, 0x1111#32, 0x2011#32, 0x0820#32, 0x0322#32,
    0x00010000#32].map (fun w => (decodeCmd w).toOption) = List.replicate 8 none := by decide
/-- The opcode table's numbering: a command word, and a byte (log 3). -/
theorem test_decodeTableWord : decodeTableWord 16 0x0624 = none ∧ decodeTableWord 16 0x0224 = some (.decblk 2) ∧
    decodeTableWord 8 0x08 = some (.dccat 8) ∧ decodeTableWord 8 0xF1 = some (.accoef 15 1) ∧
    decodeTableWord 8 0xFF = some (.dcbad 255) := by decide

/-! ## States -/

/-- A list of elements as a memory from address 0. -/
def cells {w : Nat} (l : List (BitVec w)) : Memory w := (List.range l.length).zip l

/-- The state after an instruction. -/
def after (i : Instr) (s : State) : State :=
  match exec i s with
  | .next t => t
  | _ => s

/-- A table as the host leaves it, not built. -/
def loaded (offs syms : List Byte) : HuffTable :=
  { offs := cells offs, sym := cells syms, code := [], set := true, built := false }

/-- Table TD of 95_test_vectors 2.3, with its printed codes. -/
def tableTD : HuffTable :=
  { loaded ([0, 1, 2, 3, 5] ++ List.replicate 12 5) [0x00, 0x02, 0x03, 0x01, 0x0C] with
    code := cells [0, 2, 6, 14, 15], built := true }

/-- Table TA of 95_test_vectors 2.4, with its printed codes. -/
def tableTA : HuffTable :=
  { loaded ([0, 1, 2, 3, 4, 5, 6, 8] ++ List.replicate 9 8) [0x00, 0x01, 0x12, 0xF0, 0x30, 0x0B, 0xE1, 0x0A] with
    code := cells [0, 2, 6, 14, 30, 62, 126, 127], built := true }

/-- The fresh state with bytes in `ENT`. -/
def stream (bytes : List Byte) : State :=
  { State.reset with ent := cells bytes, entLen := BitVec.ofNat 32 bytes.length }

/-- The start state of 95_test_vectors 2.3 and 2.4: one grayscale unit, TD and TA built, SCANINIT done. -/
def scan (bytes : List Byte) : State :=
  { stream bytes with
    ncomp := 1, width := 8, height := 8, nUnits := 1, phase := .decode
    dcTables := Vector.replicate 4 tableTD, acTables := Vector.replicate 4 tableTA }

/-- The same start with three components, as P2. -/
def scanThree (bytes : List Byte) : State := { scan bytes with ncomp := 3 }

/-- The same start with two units. -/
def scanTwo (bytes : List Byte) : State := { scan bytes with nUnits := 2 }

/-- The same in a later phase, with all elements of one plane written. -/
def staged (p : Phase) (v : Int) : State :=
  { scan [] with phase := p, blkIdx := 1
                 qTables := Vector.replicate 4 { q := cells (List.replicate 64 2#16), set := true }
                 grid := { epoch := 1, cells := cells (List.replicate 192 (BitVec.ofInt 32 v)) } }

/-- Register 1 and register 2. -/
def flags (s : State) : Nat × Nat := ((regRead s 1).toNat, (regRead s 2).toNat)

/-! ## One step each (95_test_vectors) -/

/-- 2.8: NOP, and a step of the queue. -/
theorem test_nop : flags (after .nop State.reset) = (1, 0) := by decide
/-- 2.8, S3. -/
theorem test_scaninit : let t := after .scaninit { State.reset with ncomp := 1, width := 9, height := 17 }
    flags t = (3, 0) ∧ t.nUnits = 6 := by decide
/-- 2.8, S5. -/
theorem test_scaninit_config : flags (after .scaninit { State.reset with ncomp := 2, width := 8, height := 8 }) = (0, 7) := by
  decide
/-- B11. -/
theorem test_rdbit_empty : let t := after .rdbit State.reset
    t.result = 0xFFFFFFFF#32 ∧ t.rfail = true ∧ flags t = (0x11, 0) := by decide
/-- B3. -/
theorem test_rdbits_16 : let t := after (.rdbits 16) (stream [0xA5, 0x3C])
    t.result = 0xA53C#32 ∧ t.rfail = false ∧ cursorPos t = 16 := by decide
/-- B5. -/
theorem test_rdbits_short : let t := after (.rdbits 8) { stream [0xA5, 0x3C] with byteIdx := 1, bitIdx := 1 }
    t.result = 0xFFFFFFFF#32 ∧ t.rfail = true ∧ cursorPos t = 16 := by decide
/-- B10. -/
theorem test_align : let t := after .align { stream [0xA5, 0x3C] with byteIdx := 1, bitIdx := 7 }
    t.byteIdx = 2 ∧ t.bitIdx = 0 := by decide
/-- The codes of table TA. -/
theorem test_htbuild :
    let s := setHt .ac 1 (loaded ([0, 1, 2, 3, 4, 5, 6, 8] ++ List.replicate 9 8) []) State.reset
    (List.range 8).map (codeAt (after (.htbuild .ac 1) s) .ac 1) = [0, 2, 6, 14, 30, 62, 126, 127] := by decide
/-- H12. -/
theorem test_htbuild_falling :
    let s := setHt .dc 0 (loaded ([0, 1, 1, 0] ++ List.replicate 13 1) [0]) State.reset
    flags (after (.htbuild .dc 0) s) = (0, 6) ∧ ((after (.htbuild .dc 0) s).ht .dc 0).built = false := by decide
/-- The code `1110` of TD is 0x01. -/
theorem test_decsym : let t := after (.decsym .dc 0) (scan [0xE7])
    t.result = 1 ∧ t.rfail = false ∧ cursorPos t = 4 := by decide
/-- H10. -/
theorem test_decsym_notBuilt : let s := setHt .dc 0 (loaded (List.replicate 17 0) []) (stream [0])
    flags (after (.decsym .dc 0) s) = (0, 6) ∧ cursorPos (after (.decsym .dc 0) s) = 0 := by decide
/-- D3. -/
theorem test_decdc : let t := after (.decdc 0) (scan [0xCB])
    predAt t 0 = -5 ∧ t.grid.read 0 0 0 = -5 ∧ cursorPos t = 6 ∧ flags t = (3, 0) := by decide
/-- D11. -/
theorem test_decdc_illegal : let t := after (.decdc 0) (scan [0xF0])
    flags t = (2, 3) ∧ cursorPos t = 4 ∧ t.grid.cells = [] := by decide
/-- A2. -/
theorem test_decac : let t := after (.decac 0) (scan [0xB9, 0x7F])
    t.grid.read 0 0 1 = 1 ∧ t.grid.read 0 0 8 = 0 ∧ t.grid.read 0 0 16 = -2 ∧ cursorPos t = 9 := by decide
/-- A14. -/
theorem test_decac_run : let t := after (.decac 0) (scan [0xEE, 0xFD, 0xEF])
    flags t = (2, 5) ∧ cursorPos t = 20 := by decide
/-- 2.4, DECBLK. -/
theorem test_decblk : let t := after (.decblk 0) (scan [0xD6, 0xBF])
    t.grid.read 0 0 0 = 5 ∧ t.grid.read 0 0 1 = 1 ∧ t.grid.read 0 0 63 = 0 ∧ cursorPos t = 10 ∧ t.blkIdx = 0 := by decide
/-- X3. -/
theorem test_decmcu : let t := after .decmcu (scan [0x3F])
    flags t = (5, 0) ∧ t.blkIdx = 1 ∧ cursorPos t = 2 := by decide
/-- P2: three components, Y before Cb before Cr. -/
theorem test_decmcu_three : let t := after .decmcu (scanThree [0xD5, 0x0A, 0x7F])
    (List.map (fun c => predAt t c) [0, 1, 2] = [5, -3, 2]) ∧ t.grid.read 0 0 0 = 5 ∧ t.grid.read 0 1 0 = -3 ∧
    t.grid.read 0 2 0 = 2 ∧ cursorPos t = 17 ∧ flags t = (5, 0) := by decide +kernel
/-- P5: the stream ends inside Cr. -/
theorem test_decscan_short : let t := after .decscan (scanThree [0xD5, 0x0A])
    flags t = (2, 1) ∧ cursorPos t = 16 ∧ t.blkIdx = 0 ∧ (List.map (fun c => predAt t c) [0, 1, 2] = [5, -3, 2]) := by decide
/-- E4 with RSTI = 1: the predictor is 2 at the end of both units. -/
theorem test_decscan : let t := after .decscan { scan [0xAA, 0xAA] with nUnits := 2, rsti := 1 }
    flags t = (5, 0) ∧ predAt t 0 = 2 ∧ t.grid.read 1 0 0 = 2 ∧ t.grid.read 1 0 1 = 1 := by decide
/-- Twice the coefficient. -/
theorem test_dequant : let t := after .dequant (staged .coef (-7))
    t.grid.read 0 0 63 = -14 ∧ t.grid.read 0 1 0 = -7 ∧ flags t = (7, 0) := by decide +kernel
/-- I2, I3, I6: samples of the three. -/
theorem test_idct :
    let f := fun (l : List Int) => tabulate 64 fun i => l.getD i 0
    idctRefAt (f [40, 3]) 0 = 6 ∧ idctRefAt (f [40, 3]) 63 = 4 ∧
    idctRefAt (f [-20, 0, 0, 0, 0, 0, 0, 0, -6]) 8 = -3 ∧ idctSrcAt (f [-20, 0, 0, 0, 0, 0, 0, 0, -6]) 8 = -2 ∧
    idctSrcAt (f [-1024]) 5 = -127 := by decide
/-- K13. -/
theorem test_color_sample : (redOf 100 30, greenOf 100 (-50) 30, blueOf 100 (-50)) = (255, 223, 139) := by decide
/-- Grayscale -3 to 125, in all planes. -/
theorem test_color : let t := after .color (staged .spatial (-3))
    t.grid.read 0 0 9 = 125 ∧ t.grid.read 0 2 9 = 125 ∧ flags t = (0xB, 0) := by decide +kernel
/-- X7. -/
theorem test_reset : let t := after .reset (raise .range (scan [1]))
    flags t = (1, 0) ∧ t.entLen = 0 ∧ (t.ht .dc 0).set = false := by decide
/-- X6. -/
theorem test_latched : after .scaninit (raise .range (scan [1])) = raise .range (scan [1]) := by decide
/-- T3: category 11. -/
theorem test_dccat : let t := after (.dccat 11) { scan [0x80, 0x0F] with sym := { comp := 2, k := 1 } }
    predAt t 2 = 1024 ∧ t.grid.read 0 2 0 = 1024 ∧ cursorPos t = 11 := by decide
theorem test_dcbad : flags (after (.dcbad 12) (scan [])) = (2, 3) := by decide
theorem test_eob : let t := after .eob { scan [] with sym := { comp := 0, k := 62 } }
    t.sym.k = 64 ∧ t.grid.cells.map (·.1) = [62, 63] := by decide
/-- A14 and A11: at 47 ZRL ends at 63, at 48 it does not. -/
theorem test_zrl : (after .zrl { scan [] with sym := { comp := 0, k := 47 } }).sym.k = 63 ∧
    flags (after .zrl { scan [] with sym := { comp := 0, k := 48 } }) = (2, 5) := by decide
theorem test_zrun : let t := after (.zrun 3) (scan [])
    t.sym.k = 4 ∧ t.grid.cells.map (·.1) = [1, 8, 16] := by decide
/-- A9. -/
theorem test_accoef : let t := after (.accoef 1 10) (scan [0x00, 0x3F])
    t.grid.read 0 0 1 = 0 ∧ t.grid.read 0 0 8 = -1023 ∧ t.sym.k = 3 ∧ cursorPos t = 10 := by decide
theorem test_acbad : flags (after (.acbad 0 11) (scan [])) = (2, 4) := by decide

/-! ## Tools for the witnesses -/

/-- The symbol decoded at position `p` and where its code ends. -/
def decodesAt (s : State) (k : HuffClass) (t : Fin 4) (p : Nat) : Option (Byte × Nat) :=
  match decodeSymbol k t (atPos p s) with
  | .done b s' => some (b, cursorPos s')
  | .raised _ => none

theorem match_at {s : State} {k : HuffClass} {t : Fin 4} {p l : Nat} {b : Byte} (hp : p < 34359738368)
    (h : decodesAt s k t p = some (b, p + l)) : ∃ j, FirstMatch s k t p l j ∧ symAt s k t j = b := by
  unfold decodesAt at h
  rcases decodeSymbol_cases (atPos p s) k t with ⟨l', j, hf, e⟩ | ⟨_, e⟩ <;> rw [e] at h
  · rw [cursorPos_atPos s hp, firstMatch_atPos] at hf
    simp only [Option.some.injEq, Prod.mk.injEq, cursorPos_atPos s hp, atPos_atPos, symAt_atPos,
      cursorPos_atPos s hf.lt.1] at h
    obtain rfl : l' = l := by omega
    exact ⟨j, hf, h.1⟩
  · simp at h

theorem noCode_at {s : State} {k : HuffClass} {t : Fin 4} {p : Nat} (hp : p < 34359738368)
    (h : decodesAt s k t p = none) : NoCode s k t p := by
  unfold decodesAt at h
  rcases decodeSymbol_cases (atPos p s) k t with ⟨l', j, hf, e⟩ | ⟨hn, e⟩ <;> rw [e] at h
  · simp at h
  · rwa [cursorPos_atPos s hp, noCode_atPos] at hn

theorem dcItem_at {s : State} {t : Fin 4} {p l : Nat} {b : Byte} (hp : p < 34359738368)
    (h : decodesAt s .dc t p = some (b, p + l)) (hb : b.toNat ≤ 11) (he : p + l + b.toNat ≤ streamEnd s) :
    DcItem s t p (extend (streamField s (p + l) b.toNat) b.toNat) (p + l + b.toNat) := by
  obtain ⟨j, hf, rfl⟩ := match_at hp h
  exact ⟨l, j, hf, hb, rfl, he, rfl⟩

/-- Whether a procedure completes. -/
def completes {α : Type} : Ran α → Bool
  | .done _ _ => true
  | .raised _ => false

theorem block_at {c : Fin 3} {s : State} (h : completes (decodeBlock c s) = true) : ∃ t, BlockDecodes c s t := by
  rcases decodeBlock_cases c s with ⟨t, hb, _⟩ | ⟨f, u, _, _, e⟩
  · exact ⟨t, hb⟩
  · rw [e] at h; cases h

theorem acItems_at {c : Fin 3} {s : State} (h : completes (decodeAC c s) = true) :
    ∃ vs p, AcItems s (acTableOf s c) 1 (cursorPos s) vs 64 p := by
  rcases decodeAC_cases s c with ⟨vs, p, hb, _⟩ | ⟨f, u, _, _, _, e⟩
  · exact ⟨vs, p, hb⟩
  · rw [e] at h; cases h

/-- Three ZRLs, to zigzag position 49 (A10). -/
theorem threeZrl_at {s : State} {t : Fin 4} (h0 : decodesAt s .ac t 0 = some (0xF0, 0 + 4))
    (h1 : decodesAt s .ac t 4 = some (0xF0, 4 + 4)) (h2 : decodesAt s .ac t 8 = some (0xF0, 8 + 4)) :
    ∃ vs, AcItems s t 1 0 vs 49 12 := by
  obtain ⟨j0, f0, e0⟩ := match_at (by norm_num) h0
  obtain ⟨j1, f1, e1⟩ := match_at (by norm_num) h1
  obtain ⟨j2, f2, e2⟩ := match_at (by norm_num) h2
  exact ⟨_, .zrl 1 0 4 j0 _ 49 12 f0 (by rw [e0]; rfl) (by norm_num)
    (.zrl 17 4 4 j1 _ 49 12 f1 (by rw [e1]; rfl) (by norm_num)
      (.zrl 33 8 4 j2 _ 49 12 f2 (by rw [e2]; rfl) (by norm_num) (.nil 49 12)))⟩

theorem blockReady_scan (bytes : List Byte) : BlockReady 0 (scan bytes) :=
  ⟨rfl, rfl, .inl rfl, (by decide : (0 : Nat) < 1)⟩

theorem tables_scan (bytes : List Byte) (k : HuffClass) (t : Fin 4) : Ready (scan bytes) k t := by
  have h : ∀ k t, ((scan []).ht k t).set = true ∧ ((scan []).ht k t).built = true := by
    intro k; cases k <;> decide
  exact ⟨(h k t).1, (h k t).2⟩

/-- A property of a symbol, told of what it equals. -/
theorem of_symbol {P : Byte → Prop} {x b : Byte} (e : x = b) (h : P b) : P x := e ▸ h

theorem unitReady_scan (bytes : List Byte) : UnitReady (scan bytes) :=
  ⟨rfl, rfl, .inl rfl, fun _ _ => ⟨tables_scan _ _ _, tables_scan _ _ _⟩⟩

theorem decmcu_after {s : State} (hr : UnitReady s) : after .decmcu s = (decodeUnit s).state := by
  have h : exec .decmcu s = .next (decmcuBody s).state := command_valid hr.1
  rw [after, h, decmcuBody_ready hr]

theorem unit_at {s : State} (hr : UnitReady s) (h : completes (decodeUnit s) = true) : UnitDecodes s (after .decmcu s) := by
  rw [decmcu_after hr]
  obtain ⟨t, hu | hb⟩ := unit_good_or_breaks hr.2.2.1
  · rwa [decodeUnit_of_decodes hu]
  · rw [decodeUnit_of_breaks hb] at h; cases h

theorem unitBreaks_at {s : State} (hr : UnitReady s) (h : completes (decodeUnit s) = false) :
    UnitBreaks s (after .decmcu s) := by
  rw [decmcu_after hr]
  obtain ⟨t, hu | hb⟩ := unit_good_or_breaks hr.2.2.1
  · rw [decodeUnit_of_decodes hu] at h; cases h
  · rwa [decodeUnit_of_breaks hb]

theorem blockBreaks_at {c : Fin 3} {s : State} (h : completes (decodeBlock c s) = false) : ∃ u, BlockBreaks c s u := by
  obtain ⟨t, hu | hb⟩ := block_good_or_breaks c s
  · rw [decodeBlock_of_decodes hu] at h; cases h
  · exact ⟨t, hb⟩

theorem unitReady_three (bytes : List Byte) : UnitReady (scanThree bytes) :=
  ⟨rfl, rfl, .inr rfl, fun c _ => ⟨tables_scan bytes .dc (dcTableOf (scan bytes) c),
    tables_scan bytes .ac (acTableOf (scan bytes) c)⟩⟩

/-- Table TD loaded and built by HTBUILD. -/
def builtScan (bytes : List Byte) : State :=
  setHt .dc 0 (builtTable (scan bytes) .dc 0) (scan bytes)

theorem legal_scan (bytes : List Byte) : OffsetsLegal (scan bytes) .dc 0 :=
  ((tableWellFormed_iff _ _ _).mp (show tableWellFormed (scan bytes) .dc 0 = true by
    have h : ∀ l, offsAt (scan bytes) .dc 0 l = offsAt (scan []) .dc 0 l := fun _ => rfl
    have : tableWellFormed (scan []) .dc 0 = true := by decide
    exact this)).2

/-! ## States and operands that meet the hypotheses of each statement -/

theorem witness_DecodeEncode : (Instr.rdbits 16).wellFormed = true ∧ (Instr.accoef 15 10).wellFormed = true := by decide
theorem witness_EncodeDecode : decode (.command 0x1011#16) = .ok (.rdbits 16) ∧
    decode (.symbol .dc 0x0C#8) = .ok (.dcbad 12) := ⟨rfl, rfl⟩
theorem witness_ExtendRange : (1 ≤ 11 ∧ 11 ≤ 11 ∧ 1023 < 2 ^ (11 - 1)) ∧ (2 ^ (11 - 1) ≤ 1024 ∧ 2047 < 2 ^ 11) ∧
    ((2 : Int) ^ (11 - 1) ≤ |(-1024)| ∧ |(2047 : Int)| ≤ 2 ^ 11 - 1) := by decide
theorem witness_ZigzagWalk : 62 < 63 ∧ 63 < 64 := by decide
theorem witness_StepRunsDecoded_command : (State.reset.withFetchWord 16 0x0224).pending =
    .op (.regWrite 0 0x0224#32) :: [] ∧ decodeCmd 0x0224#32 = .ok (.decblk 2) ∧
    decodeTableWord 16 0x0224 = some (.decblk 2) := ⟨rfl, rfl, rfl⟩
theorem witness_StepRunsDecoded_host : let s := fun p => { State.reset with pending := [.op p] }
    (s (.regWrite 0 0x00010000)).pending = .op (.regWrite 0 0x00010000) :: [] ∧
    (s (.regWrite 11 5)).pending = .op (.regWrite (10 + 1) 5) :: [] ∧
    (s (.memWrite (.offs 1 3 16) 162)).pending = .op (.memWrite (.offs 1 3 16) 162) :: [] := ⟨rfl, rfl, rfl⟩
theorem witness_StepRunsDecoded_symbol : (State.reset.withFetchWord 8 0xF0).pending = .symbol .ac 0xF0#8 :: [] ∧
    State.reset.pending = [] := ⟨rfl, rfl⟩
theorem witness_Gate : (raise .range State.reset).valid = false ∧ (0x01FF#32 : Word) ≠ 0x000000FF#32 ∧
    State.reset.valid = true ∧ decodeCmd 0x01FF#32 = .error .strayArg ∧ decodeCmd 0x0000#32 = .ok .nop ∧
    Instr.nop ≠ .reset := by refine ⟨rfl, ?_, rfl, rfl, rfl, ?_⟩ <;> decide
theorem witness_LatchOneWay : (∃ t, exec (.dcbad 12) State.reset = .next t ∧ t.valid = false) ∧
    (∃ t, exec .reset (raise .range State.reset) = .next t ∧ t.valid = true) ∧
    ∃ t, exec .rdbit State.reset = .next t ∧ t.valid = true := ⟨⟨_, rfl, rfl⟩, ⟨_, rfl, rfl⟩, ⟨_, rfl, rfl⟩⟩
theorem witness_NopAndReset : { State.reset with pending := [.hardReset] }.pending = .hardReset :: [] := rfl
theorem witness_ResetCommands : 1 ≤ (1 : BitVec 5).toNat ∧ (16 : BitVec 5).toNat ≤ 16 := by decide
theorem witness_ScaninitResult : let s := { State.reset with ncomp := 3, width := 65535, height := 65535 }
    s.valid = true ∧ (s.ncomp.toNat = 1 ∨ s.ncomp.toNat = 3) ∧ s.width ≠ 0 ∧ s.height ≠ 0 ∧
    s.entLen.toNat ≤ s.cfg.entCap.toNat ∧ (65535 + 7) / 8 * ((65535 + 7) / 8) ≤ s.cfg.gridCap := by decide
theorem witness_ScaninitResult_config : let s := { State.reset with ncomp := 3, width := 0, height := 8 }
    s.valid = true ∧ ¬ (s.width ≠ 0) := by decide
/-- S9. -/
theorem witness_ScaninitResult_resource :
    let s := { State.reset with cfg := { Config.default with gridCap := 5 }, ncomp := 1, width := 24, height := 16 }
    s.valid = true ∧ (s.ncomp.toNat = 1 ∨ s.ncomp.toNat = 3) ∧ s.width ≠ 0 ∧ s.height ≠ 0 ∧
    s.entLen.toNat ≤ s.cfg.entCap.toNat ∧ s.cfg.gridCap < (16 + 7) / 8 * ((24 + 7) / 8) := by decide
theorem witness_BitReads : (stream [0xA5, 0x3C]).valid = true ∧ (16 : BitVec 5).toNat ≤ 16 := by decide
theorem witness_BitsOneByOne : (stream [0xA5, 0x3C]).valid = true ∧ (16 : BitVec 5).toNat ≤ 16 ∧
    cursorPos (stream [0xA5, 0x3C]) + (16 : BitVec 5).toNat ≤ streamEnd (stream [0xA5, 0x3C]) := by decide
theorem witness_AlignResult : (stream [0xA5]).valid = true := rfl
theorem witness_BitReaderReadsStreamOnly : let s := stream [0xA5]; let x := { stream [0xA5, 0x3C] with entLen := 1 }
    s.valid = true ∧ x.valid = true ∧ (8 : BitVec 5).toNat ≤ 16 ∧ streamEnd s = streamEnd x ∧
    (∀ i, 8 * i < streamEnd s → entAt s i = entAt x i) ∧ cursorPos s = cursorPos x := by
  refine ⟨rfl, rfl, by decide, rfl, fun i hi => ?_, rfl⟩
  have h : streamEnd (stream [0xA5]) = 8 := by decide
  obtain rfl : i = 0 := by omega
  rfl
theorem witness_HtbuildResult : (scan []).valid = true ∧ ((scan []).ht .dc 0).set = true ∧ OffsetsLegal (scan []) .dc 0 ∧
    HasLength (scan []) .dc 0 4 4 ∧ offsAt (scan []) .dc 0 16 ≤ 5 :=
  ⟨rfl, rfl, legal_scan [], by unfold HasLength; decide, by decide⟩
/-- H13: an offset of 163. -/
theorem witness_HtbuildResult_table : let s := setHt .dc 0 (loaded (List.replicate 16 0 ++ [163]) []) State.reset
    s.valid = true ∧ ¬ ((s.ht .dc 0).set = true ∧ OffsetsLegal s .dc 0) := by
  refine ⟨rfl, fun h => ?_⟩
  have : offsAt (setHt .dc 0 (loaded (List.replicate 16 0 ++ [163]) []) State.reset) .dc 0 16 = 163 := by decide
  have := h.2.2.2
  omega
theorem witness_CodesPrefixFree : (scan []).valid = true ∧ ((scan []).ht .dc 0).set = true ∧
    OffsetsLegal (scan []) .dc 0 ∧ kraftSum (offsAt (scan []) .dc 0) 16 ≤ 2 ^ 16 ∧
    exec (.htbuild .dc 0) (scan []) = .next (builtScan []) ∧ HasLength (builtScan []) .dc 0 1 0 ∧
    HasLength (builtScan []) .dc 0 4 4 ∧ (0 : Nat) ≠ 4 ∧ 1 ≤ 4 := by
  refine ⟨rfl, rfl, legal_scan [], by decide, ?_, by unfold HasLength; decide, by unfold HasLength; decide, by decide,
    by decide⟩
  have h : exec (.htbuild .dc 0) (scan []) = .next (htbuildBody .dc 0 (scan [])).state := command_valid rfl
  rw [h, htbuild_done _ _ _ (by decide)]; rfl
theorem witness_DecsymResult : (scan [0xE7]).valid = true ∧ Ready (scan [0xE7]) .dc 0 ∧
    ∃ j, FirstMatch (scan [0xE7]) .dc 0 (cursorPos (scan [0xE7])) 4 j :=
  ⟨rfl, tables_scan _ _ _, (match_at (s := scan [0xE7]) (k := .dc) (t := 0) (p := 0) (l := 4) (b := 0x01) (by norm_num)
    (by decide)).imp fun _ h => h.1⟩
/-- H8 and H7: the buffer ends inside the code, and 16 bits that are no code. -/
theorem witness_DecsymResult_noCode :
    let t := { tableTD with offs := cells ([0, 1, 2, 3, 4] ++ List.replicate 12 4) }
    let s := fun b => { scan b with dcTables := Vector.replicate 4 t }
    (Ready (s [0xFF]) .dc 0 ∧ NoCode (s [0xFF]) .dc 0 (cursorPos (s [0xFF]))) ∧
    (Ready (s [0xFF, 0xFF]) .dc 0 ∧ NoCode (s [0xFF, 0xFF]) .dc 0 (cursorPos (s [0xFF, 0xFF]))) :=
  ⟨⟨⟨rfl, rfl⟩, noCode_at (by decide) (by decide)⟩, ⟨⟨rfl, rfl⟩, noCode_at (by decide) (by decide)⟩⟩
theorem witness_DecsymResult_table : State.reset.valid = true ∧ ¬ Ready State.reset .dc 0 := ⟨rfl, fun h => by cases h.1⟩
theorem witness_SymbolsRecovered : (builtScan [0xE0]).valid = true ∧ Ready (builtScan [0xE0]) .dc 0 ∧
    OffsetsLegal (builtScan [0xE0]) .dc 0 ∧ CodesBuilt (builtScan [0xE0]) .dc 0 ∧
    kraftSum (offsAt (builtScan [0xE0]) .dc 0) 16 ≤ 2 ^ 16 ∧
    Emitted (builtScan [0xE0]) .dc 0 (cursorPos (builtScan [0xE0])) [3, 0] := by
  refine ⟨rfl, ⟨rfl, rfl⟩, (offsetsLegal_congr (offsAt_built _ _ _ _ _)).mpr (legal_scan _),
    codesBuilt_built _ _ _ (legal_scan _), by decide, ?_⟩
  refine ⟨4, ?_, by decide, 1, ?_, by decide, trivial⟩ <;> unfold CodeIs HasLength <;> decide
theorem witness_DecodeChecks_sequence : State.reset.valid = true ∧ State.reset.phase ≠ .decode := by decide
theorem witness_DecodeChecks_config : let s := { scan [] with ncomp := 2 }
    s.valid = true ∧ s.phase = .decode ∧ ¬ (s.ncomp.toNat = 1 ∨ s.ncomp.toNat = 3) ∧ s.ncomp.toNat ≤ (2 : Fin 3).val := by
  decide
theorem witness_DecodeChecks_table : let s := { scan [] with dcTables := Vector.replicate 4 HuffTable.reset
                                                             acTables := Vector.replicate 4 HuffTable.reset }
    s.valid = true ∧ s.phase = .decode ∧ (s.ncomp.toNat = 1 ∨ s.ncomp.toNat = 3) ∧ (0 : Fin 3).val < s.ncomp.toNat ∧
    ¬ Ready s .dc (dcTableOf s 0) ∧ ¬ Ready s .ac (acTableOf s 0) := by
  refine ⟨rfl, rfl, .inl rfl, (by decide : (0 : Nat) < 1), fun h => ?_, fun h => ?_⟩ <;> exact Bool.noConfusion h.1
/-- D2. -/
theorem witness_DecdcResult : let s := scan [0xD7]
    BlockReady 0 s ∧ Ready s .dc (dcTableOf s 0) ∧ ∃ diff p', DcItem s (dcTableOf s 0) (cursorPos s) diff p' ∧
      fits (predAt s 0 + diff) = true :=
  ⟨blockReady_scan _, tables_scan _ _ _, _, _, dcItem_at (l := 3) (b := 0x03) (by decide) (by decide) (by decide)
    (by decide), by decide⟩
/-- D12. -/
theorem witness_DecdcResult_noCode : let s := scan []
    BlockReady 0 s ∧ Ready s .dc (dcTableOf s 0) ∧ NoCode s .dc (dcTableOf s 0) (cursorPos s) :=
  ⟨blockReady_scan _, tables_scan _ _ _, noCode_at (by decide) (by decide)⟩
/-- D11: symbol 12. -/
theorem witness_DecdcResult_illegal : let s := scan [0xF0]
    BlockReady 0 s ∧ Ready s .dc (dcTableOf s 0) ∧ ∃ l j, FirstMatch s .dc (dcTableOf s 0) (cursorPos s) l j ∧
      12 ≤ (symAt s .dc (dcTableOf s 0) j).toNat := by
  obtain ⟨j, h, e⟩ := match_at (s := scan [0xF0]) (k := .dc) (t := 0) (p := 0) (l := 4) (b := 0x0C) (by norm_num) (by decide)
  exact ⟨blockReady_scan _, tables_scan _ _ _, 4, j, h, of_symbol (P := fun b => 12 ≤ b.toNat) e (by decide)⟩
/-- Table TD with category 5 under 1110, and four bits after that code. -/
def scanCategory5 : State :=
  { scan [0xEF] with dcTables := Vector.replicate 4 { tableTD with sym := cells [0, 2, 3, 5, 1] } }
theorem witness_DecdcResult_underrun : let x := scanCategory5
    BlockReady 0 x ∧ Ready x .dc (dcTableOf x 0) ∧
      ∃ l j, FirstMatch x .dc (dcTableOf x 0) (cursorPos x) l j ∧ (symAt x .dc (dcTableOf x 0) j).toNat ≤ 11 ∧
        streamEnd x < cursorPos x + l + (symAt x .dc (dcTableOf x 0) j).toNat := by
  obtain ⟨j, h, e⟩ := match_at (s := scanCategory5) (k := .dc) (t := 0) (p := 0) (l := 4) (b := 5) (by norm_num) (by decide)
  exact ⟨⟨rfl, rfl, .inl rfl, (by decide : (0 : Nat) < 1)⟩, ⟨rfl, rfl⟩, 4, j, h,
    of_symbol (P := fun b => b.toNat ≤ 11) e (by decide), of_symbol (P := fun b => 8 < 0 + 4 + b.toNat) e (by decide)⟩
/-- As T8: the largest predictor and a positive difference. -/
theorem witness_DecdcResult_range : let s := { scan [0xD7] with pred := Vector.replicate 3 0x7FFFFFFF#32 }
    BlockReady 0 s ∧ Ready s .dc (dcTableOf s 0) ∧ ∃ diff p', DcItem s (dcTableOf s 0) (cursorPos s) diff p' ∧
      fits (predAt s 0 + diff) = false :=
  ⟨⟨rfl, rfl, .inl rfl, (by decide : (0 : Nat) < 1)⟩, ⟨rfl, rfl⟩, _, _, dcItem_at (l := 3) (b := 0x03) (by decide) (by decide) (by decide)
    (by decide), by decide⟩
/-- A12: the last coefficient at position 63. -/
theorem witness_DecacResult : let s := scan [0xEE, 0xEF, 0xDF]
    BlockReady 0 s ∧ Ready s .ac (acTableOf s 0) ∧ ∃ vs p', AcItems s (acTableOf s 0) 1 (cursorPos s) vs 64 p' :=
  ⟨blockReady_scan _, tables_scan _ _ _, acItems_at (c := 0) (by decide)⟩
/-- A10's three ZRLs, then the end of the buffer. -/
theorem witness_DecacStreamFaults_noCode : let s := { scan [0xEE, 0xEF] with entLen := 2 }
    BlockReady 0 s ∧ Ready s .ac (acTableOf s 0) ∧ (∃ vs, AcItems s (acTableOf s 0) 1 (cursorPos s) vs 49 12) ∧
      49 < 64 ∧ NoCode s .ac (acTableOf s 0) 12 :=
  ⟨⟨rfl, rfl, .inl rfl, (by decide : (0 : Nat) < 1)⟩, ⟨rfl, rfl⟩, threeZrl_at (by decide) (by decide) (by decide), by decide,
    noCode_at (by decide) (by decide)⟩
/-- A15: size 11, the first one above. -/
theorem witness_DecacStreamFaults_size : let s := scan [0xFB]
    BlockReady 0 s ∧ Ready s .ac (acTableOf s 0) ∧ AcItems s (acTableOf s 0) 1 (cursorPos s) [] 1 0 ∧
      ∃ l j, FirstMatch s .ac (acTableOf s 0) 0 l j ∧ 11 ≤ (symAt s .ac (acTableOf s 0) j).toNat % 16 := by
  obtain ⟨j, h, e⟩ := match_at (s := scan [0xFB]) (k := .ac) (t := 0) (p := 0) (l := 6) (b := 0x0B) (by norm_num) (by decide)
  exact ⟨blockReady_scan _, tables_scan _ _ _, .nil _ _, 6, j, h, of_symbol (P := fun b => 11 ≤ b.toNat % 16) e (by decide)⟩
/-- Position 49 and a run of 15: 64, the first position too far. -/
theorem witness_DecacStreamFaults_run :
    let s := { scan [0xEE, 0xEF, 0xDF] with
      acTables := Vector.replicate 4 { tableTA with sym := cells [0x00, 0x01, 0x12, 0xF0, 0x30, 0x0B, 0xF1, 0x0A] } }
    BlockReady 0 s ∧ Ready s .ac (acTableOf s 0) ∧ (∃ vs, AcItems s (acTableOf s 0) 1 (cursorPos s) vs 49 12) ∧
      ∃ l j, FirstMatch s .ac (acTableOf s 0) 12 l j ∧ (symAt s .ac (acTableOf s 0) j).toNat % 16 ≤ 10 ∧
        49 + (symAt s .ac (acTableOf s 0) j).toNat / 16 = 64 := by
  intro s
  obtain ⟨j, h, e⟩ := match_at (s := s) (k := .ac) (t := 0) (p := 12) (l := 7) (b := 0xF1) (by norm_num) (by decide)
  exact ⟨⟨rfl, rfl, .inl rfl, (by decide : (0 : Nat) < 1)⟩, ⟨rfl, rfl⟩, threeZrl_at (by decide) (by decide) (by decide), 7, j, h,
    of_symbol (P := fun b => b.toNat % 16 ≤ 10) e (by decide), of_symbol (P := fun b => 49 + b.toNat / 16 = 64) e (by decide)⟩
/-- A17: 9 of 10 value bits. -/
theorem witness_DecacStreamFaults_underrun : let s := scan [0xFF, 0x0F]
    BlockReady 0 s ∧ Ready s .ac (acTableOf s 0) ∧ AcItems s (acTableOf s 0) 1 (cursorPos s) [] 1 0 ∧
      ∃ l j, FirstMatch s .ac (acTableOf s 0) 0 l j ∧ (symAt s .ac (acTableOf s 0) j).toNat = 0x0A ∧
        streamEnd s < 0 + l + (symAt s .ac (acTableOf s 0) j).toNat % 16 := by
  obtain ⟨j, h, e⟩ := match_at (s := scan [0xFF, 0x0F]) (k := .ac) (t := 0) (p := 0) (l := 7) (b := 0x0A) (by norm_num)
    (by decide)
  exact ⟨blockReady_scan _, tables_scan _ _ _, .nil _ _, 7, j, h, of_symbol (P := fun b => b.toNat = 0x0A) e (by decide),
    of_symbol (P := fun b => 16 < 0 + 7 + b.toNat % 16) e (by decide)⟩
theorem witness_CoefficientStores : 1 + (List.replicate 63 (-1023)).length ≤ 64 ∧
    (∀ v ∈ List.replicate 63 (-1023), fits v = true) := by
  refine ⟨by simp, fun v hv => ?_⟩
  rw [List.eq_of_mem_replicate hv]; decide
theorem witness_DecblkResult : let s := scan [0xD6, 0xBF]
    BlockReady 0 s ∧ Ready s .dc (dcTableOf s 0) ∧ Ready s .ac (acTableOf s 0) ∧ ∃ t, BlockDecodes 0 s t :=
  ⟨blockReady_scan _, tables_scan _ _ _, tables_scan _ _ _, block_at (by decide)⟩
theorem witness_BlockSound : let s := scan [0xD6, 0xBF]; let x := scan [0x7F]
    s.valid = true ∧ (∃ t, t.valid = true ∧ exec (.decblk (compArg 0)) s = .next t) ∧
    (∃ t, t.valid = true ∧ exec (.decac (compArg 0)) x = .next t) ∧
    ∃ t, t.valid = true ∧ exec (.decdc (compArg 0)) s = .next t := by
  refine ⟨rfl, ⟨after (.decblk 0) (scan [0xD6, 0xBF]), by decide, rfl⟩, ⟨after (.decac 0) (scan [0x7F]), by decide, rfl⟩,
    ⟨after (.decdc 0) (scan [0xD6, 0xBF]), by decide, rfl⟩⟩
theorem witness_RestartRule : let s := { scan [1, 2] with rsti := 1, bitIdx := 7 }
    s.rsti ≠ 0 ∧ s.blkIdx.toNat % s.rsti.toNat = 0 ∧ s.byteIdx.toNat < min s.entLen.toNat s.cfg.entCap.toNat ∧
    s.bitIdx ≠ 0#3 := by decide
theorem witness_RestartRule_none : let s := { scan [] with rsti := 2, blkIdx := 3, nUnits := 5 }
    ¬ (s.rsti ≠ 0 ∧ s.blkIdx.toNat % s.rsti.toNat = 0) := by decide
theorem witness_DecblkResult_breaks : let s := scan [0xFF]
    BlockReady 0 s ∧ Ready s .dc (dcTableOf s 0) ∧ Ready s .ac (acTableOf s 0) ∧ ∃ u, BlockBreaks 0 s u :=
  ⟨blockReady_scan _, tables_scan _ _ _, tables_scan _ _ _, blockBreaks_at (by decide)⟩
/-- P2's unit of three components. -/
theorem witness_DecmcuResult : let s := scanThree [0xD5, 0x0A, 0x7F]
    UnitReady s ∧ UnitDecodes s (after .decmcu s) ∧ (after .decmcu s).valid = true :=
  ⟨unitReady_three _, unit_at (unitReady_three _) (by decide), by decide⟩
/-- P5: it breaks in the third component. -/
theorem witness_DecmcuResult_breaks : let s := scanThree [0xD5, 0x0A]
    UnitReady s ∧ UnitBreaks s (after .decmcu s) ∧ (after .decmcu s).valid = false :=
  ⟨unitReady_three _, unitBreaks_at (unitReady_three _) (by decide), by decide⟩
theorem witness_DecmcuResult_raised : (scan []).valid = true ∧ exec .decmcu (scan []) = .next (after .decmcu (scan [])) ∧
    (after .decmcu (scan [])).valid = false := ⟨rfl, rfl, by decide⟩
theorem witness_DecscanResult : let s := scanThree [0xD5, 0x0A, 0x7F]
    UnitReady s ∧ s.blkIdx.toNat < s.nUnits.toNat ∧ ScanDecodes s (after .decmcu s) :=
  ⟨unitReady_three _, by decide, .last _ _ (unit_at (unitReady_three _) (by decide)) (by decide)⟩
theorem unitReady_two (bytes : List Byte) : UnitReady (scanTwo bytes) :=
  ⟨rfl, rfl, .inl rfl, fun c _ => ⟨tables_scan bytes .dc (dcTableOf (scan bytes) c),
    tables_scan bytes .ac (acTableOf (scan bytes) c)⟩⟩
/-- A good unit `0 0`, then a DC symbol 12. -/
theorem witness_DecscanResult_breaks : let s := scanTwo [0x3F]
    UnitReady s ∧ s.blkIdx.toNat < s.nUnits.toNat ∧ ScanBreaks s (after .decmcu (after .decmcu s)) := by
  have hu := unit_at (unitReady_two [0x3F]) (by decide)
  have hp : (after .decmcu (scanTwo [0x3F])).phase = .decode := by decide
  exact ⟨unitReady_two _, by decide, .later _ _ _ hu hp
    (.here _ _ (unitBreaks_at (hu.ready (unitReady_two _) hp) (by decide)))⟩
theorem witness_DecscanIsDecmcu : (scan [0x3F]).phase = .decode ∧
    (scan [0x3F]).blkIdx.toNat < (scan [0x3F]).nUnits.toNat := by decide
theorem witness_StageChecks : State.reset.valid = true ∧ State.reset.phase ≠ .coef ∧
    { staged .deq 0 with ncomp := 0 }.phase = .deq ∧ ¬ ((0 : BitVec 2).toNat = 1 ∨ (0 : BitVec 2).toNat = 3) := by decide
/-- Q5. -/
theorem witness_StageChecks_table : let s := { staged .coef 0 with qTables := Vector.replicate 4 QuantTable.reset }
    StageReady .coef s ∧ (0 : Fin 3).val < s.ncomp.toNat ∧ s.qTables[qTableOf s 0].set = false :=
  ⟨⟨rfl, rfl, .inl rfl⟩, by decide, by decide⟩

theorem inScan_staged {p : Phase} {v : Int} {u : Nat} {c : Fin 3} {i : Nat} (h : InScan (staged p v) u c i) :
    u = 0 ∧ c = 0 ∧ i < 64 := by
  obtain ⟨h1, h2, h3⟩ := h
  have h1' : u < 1 := h1
  have h2' : c.val < 1 := h2
  exact ⟨by omega, Fin.ext (by show c.val = 0; omega), h3⟩

/-- Every product at the largest value that fits: -1073741824 * 2. -/
theorem witness_DequantResult : let s := staged .coef (-1073741824)
    StageReady .coef s ∧ (∀ c : Fin 3, c.val < s.ncomp.toNat → s.qTables[qTableOf s c].set = true) ∧
    ∀ u (c : Fin 3) i, InScan s u c i → fits (s.grid.read u c i * ((quantAt s (qTableOf s c) i).toNat : Int)) = true := by
  refine ⟨⟨rfl, rfl, .inl rfl⟩, by decide, fun u c i h => ?_⟩
  obtain ⟨rfl, rfl, hi⟩ := inScan_staged h
  have : ∀ i : Fin 64, fits ((staged .coef (-1073741824)).grid.read 0 0 i *
    ((quantAt (staged .coef (-1073741824)) 0 i).toNat : Int)) = true := by decide +kernel
  exact this ⟨i, hi⟩
/-- One more does not fit. -/
theorem witness_DequantResult_range : let s := staged .coef 1073741824
    StageReady .coef s ∧ (∀ c : Fin 3, c.val < s.ncomp.toNat → s.qTables[qTableOf s c].set = true) ∧
    ∃ u, ∃ c : Fin 3, ∃ i, InScan s u c i ∧ fits (s.grid.read u c i * ((quantAt s (qTableOf s c) i).toNat : Int)) = false :=
  ⟨⟨rfl, rfl, .inl rfl⟩, by decide, 0, 0, 0, ⟨by decide, by decide, by decide⟩, by decide +kernel⟩
/-- Any block of zeros. -/
theorem witness_IdctResult : let s := staged .deq 0
    StageReady .deq s ∧ ∀ u (c : Fin 3) i, InScan s u c i → fits (idctAt s.cfg.idct (gridBlock s.grid u c) i) = true := by
  refine ⟨⟨rfl, rfl, .inl rfl⟩, fun u c i h => ?_⟩
  obtain ⟨rfl, rfl, hi⟩ := inScan_staged h
  have hz : ∀ j : Fin 64, (gridBlock (staged .deq 0).grid 0 0).getD j 0 = 0 := by decide +kernel
  have hv : (refTimes16 (gridBlock (staged .deq 0).grid 0 0) (i / 8) (i % 8)).val = 0 := by
    rw [val_refTimes16]
    refine Finset.sum_eq_zero fun v hv => Finset.sum_eq_zero fun u hu => ?_
    have := Finset.mem_range.mp hv
    have := Finset.mem_range.mp hu
    rw [hz ⟨8 * v + u, by omega⟩]; simp
  have : idctRefAt (gridBlock (staged .deq 0).grid 0 0) i = 0 := by
    rw [idctRefAt, Z3.floor16_eq, refPlusHalf, Z3.val_add, hv, Z3.val_ofInt]; norm_num
  show fits (idctRefAt _ i) = true
  rw [this]; decide
/-- A DC of 2^31 - 1 beside others as large: the first sample is about 2^34. -/
theorem witness_IdctResult_range : let s := staged .deq 2147483647
    StageReady .deq s ∧ ∃ u, ∃ c : Fin 3, ∃ i, InScan s u c i ∧ fits (idctAt s.cfg.idct (gridBlock s.grid u c) i) = false :=
  ⟨⟨rfl, rfl, .inl rfl⟩, 0, 0, 0, ⟨by decide, by decide, by decide⟩, by decide +kernel⟩
theorem witness_IdctIsDirectTransform : 7 < 8 := by decide
theorem witness_IdctConforms : let F : Block := tabulate 64 fun i => if i = 0 then -268435456 else 0
    (∀ j, j < 64 → -2 ^ 28 ≤ F.getD j 0 ∧ F.getD j 0 ≤ 2 ^ 28) ∧ (∀ j, 1 ≤ j → j < 64 → F.getD j 0 = 0) ∧
    ∀ j, j < 64 → (tabulate 64 fun _ => (0 : Int)).getD j 0 = 0 := by
  refine ⟨fun j hj => ?_, fun j h hj => ?_, fun j hj => getD_tabulate _ hj _⟩
  · rw [getD_tabulate _ hj]; split <;> norm_num
  · rw [getD_tabulate _ hj, if_neg (by omega)]
theorem witness_IdctInRange : let F : Block := tabulate 64 fun _ => 268435455
    ∀ j, j < 64 → -2 ^ 28 < F.getD j 0 ∧ F.getD j 0 < 2 ^ 28 := by
  intro F j hj
  rw [getD_tabulate _ hj]; norm_num
/-- R79: pixel (9, 17) of an image 16 wide, and the last pixel of the smallest image with two rows of units. -/
theorem test_pixel : pixelAddress { State.reset with width := 16 } 9 17 2 = .grid 5 2 9 := by decide
theorem witness_ColorResult_pixel : let s := { staged .spatial 5 with height := 16, nUnits := 2, blkIdx := 2 }
    StageReady .spatial s ∧ s.nUnits.toNat = (s.height.toNat + 7) / 8 * ((s.width.toNat + 7) / 8) ∧ 7 < s.width.toNat ∧
    15 < s.height.toNat := ⟨⟨rfl, rfl, .inl rfl⟩, by decide⟩
theorem witness_ColorResult : StageReady .spatial (staged .spatial 5) ∧ 0 < (staged .spatial 5).nUnits.toNat ∧
    StageReady .spatial { staged .spatial 5 with ncomp := 3 } := ⟨⟨rfl, rfl, .inl rfl⟩, by decide, ⟨rfl, rfl, .inr rfl⟩⟩
theorem witness_DccatResult : let s := stream [0xFF, 0xE0]
    s.valid = true ∧ (11 : Byte).toNat ≤ 11 ∧ cursorPos s + (11 : Byte).toNat ≤ streamEnd s ∧
    fits (predAt s s.sym.comp + extend (streamField s (cursorPos s) 11) 11) = true := by decide
theorem witness_DccatResult_range : let s := { stream [0xFF, 0xE0] with pred := Vector.replicate 3 0x7FFFFFFF#32 }
    s.valid = true ∧ cursorPos s + (11 : Byte).toNat ≤ streamEnd s ∧
    fits (predAt s s.sym.comp + extend (streamField s (cursorPos s) 11) 11) = false := by decide
theorem witness_DccatResult_underrun : let s := stream [0xFF]
    s.valid = true ∧ ¬ (cursorPos s + (11 : Byte).toNat ≤ streamEnd s ∨ (11 : Byte).toNat = 0) := by decide
theorem witness_BadSymbols : State.reset.valid = true := rfl
theorem witness_RunSymbols : let s := fun k => { scan [] with sym := { comp := 0, k := k } }
    ((s 47).valid = true ∧ 1 ≤ 47 ∧ 47 ≤ 63 ∧ 47 + 16 < 64) ∧ 64 ≤ 48 + 16 ∧ 49 + (14 : BitVec 4).toNat < 64 ∧
    64 ≤ 50 + (14 : BitVec 4).toNat := by decide
theorem witness_AccoefResult : let s := { scan [0xFF, 0xFF] with sym := { comp := 0, k := 48 } }
    s.valid = true ∧ s.sym.k = 48 ∧ 1 ≤ (10 : BitVec 4).toNat ∧ (10 : BitVec 4).toNat ≤ 10 ∧
    48 + (15 : BitVec 4).toNat < 64 ∧ cursorPos s + (10 : BitVec 4).toNat ≤ streamEnd s := by decide
theorem witness_AccoefResult_faults : let s := { scan [0xFF] with sym := { comp := 0, k := 49 } }
    s.valid = true ∧ streamEnd s < cursorPos s + (10 : BitVec 4).toNat ∧ 49 + (14 : BitVec 4).toNat < 64 ∧
    64 ≤ 49 + (15 : BitVec 4).toNat := by decide
theorem witness_HostStateKept : Instr.decblk 0 ≠ .reset ∧
    ∃ t, exec (.decblk 0) (scan [0xD6, 0xBF]) = .next t := ⟨by decide, _, rfl⟩
theorem witness_HuffmanTablesKept : Instr.decsym .dc 0 ≠ .reset ∧ (∀ k q, Instr.decsym .dc 0 ≠ .htbuild k q) ∧
    (∃ t, exec (.decsym .dc 0) (scan [0xE7]) = .next t) ∧ (∃ t, exec (.htbuild .dc 0) (scan []) = .next t) ∧
    ¬ (HuffClass.ac = .dc ∧ (0 : Fin 4) = 0) := ⟨by decide, by simp, ⟨_, rfl⟩, ⟨_, rfl⟩, by decide⟩
theorem witness_PredictorsKept : (∃ t, exec .rdbit (scan [1]) = .next t) ∧
    Instr.rdbit ∉ [Instr.decmcu, .decscan, .scaninit, .reset] ∧
    (∀ c cat, Instr.rdbit ≠ .decdc c ∧ Instr.rdbit ≠ .decblk c ∧ Instr.rdbit ≠ .dccat cat) ∧
    (∃ t, exec (.decdc (compArg 0)) (scan [0xD7]) = .next t) ∧ (1 : Fin 3) ≠ 0 :=
  ⟨⟨_, rfl⟩, by decide, by simp, ⟨_, rfl⟩, by decide⟩
theorem witness_CursorForward : (∃ t, exec .decmcu (scan [0x3F]) = .next t) ∧ Instr.decmcu ≠ .scaninit ∧
    Instr.decmcu ≠ .reset ∧ (∃ t, exec .scaninit (scan [0x3F]) = .next t) ∧
    ∃ t, exec .zrl (scan [0x3F]) = .next t := ⟨⟨_, rfl⟩, by decide, by decide, ⟨_, rfl⟩, ⟨_, rfl⟩⟩
theorem witness_CursorInvariant : CursorOk (scan [0x3F]) ∧ ∃ t, exec .decmcu (scan [0x3F]) = .next t :=
  ⟨⟨by decide, by decide⟩, _, rfl⟩
theorem witness_CountersKept : (∃ t, exec .rdbit (scan [0x3F]) = .next t) ∧ (∃ t, exec .decmcu (scan [0x3F]) = .next t) ∧
    Instr.rdbit ∉ [Instr.decmcu, .decscan, .scaninit, .reset, .dequant, .idct, .color] := ⟨⟨_, rfl⟩, ⟨_, rfl⟩, by decide⟩
theorem witness_ResultKept : (∃ t, exec .decmcu (scan [0x3F]) = .next t) ∧ Instr.decmcu ≠ .reset ∧ Instr.decmcu ≠ .rdbit ∧
    (∀ n k q, Instr.decmcu ≠ .rdbits n ∧ Instr.decmcu ≠ .decsym k q) ∧ Instr.decmcu ∉ [Instr.eob, .zrl] ∧
    ∀ r z, Instr.decmcu ≠ .zrun r ∧ Instr.decmcu ≠ .accoef r z :=
  ⟨⟨_, rfl⟩, by decide, by decide, by simp, by decide, by simp⟩
theorem witness_GridKept : exec (.decdc (compArg 0)) (scan [0xD7]) = .next (after (.decdc 0) (scan [0xD7])) ∧
    (after (.decdc 0) (scan [0xD7])).valid = true ∧ ¬ ((0 : Nat) = (scan [0xD7]).blkIdx.toNat ∧ 0 = (0 : Fin 3).val ∧ 1 = 0) ∧
    exec (.decac (compArg 0)) (scan [0x7F]) = .next (after (.decac 0) (scan [0x7F])) ∧
    (after (.decac 0) (scan [0x7F])).valid = true := ⟨rfl, by decide, by decide, rfl, by decide⟩
theorem witness_GridKept_units : exec .decmcu (scan [0x3F]) = .next (after .decmcu (scan [0x3F])) ∧
    (after .decmcu (scan [0x3F])).valid = true ∧ exec .decscan (scan [0x3F]) = .next (after .decscan (scan [0x3F])) ∧
    (after .decscan (scan [0x3F])).valid = true ∧ (scan [0x3F]).blkIdx.toNat < (scan [0x3F]).nUnits.toNat ∧
    exec (.decblk (compArg 0)) (scan [0x3F]) = .next (after (.decblk 0) (scan [0x3F])) ∧
    (after (.decblk 0) (scan [0x3F])).valid = true :=
  ⟨rfl, by decide, rfl, by decide, by decide, rfl, by decide⟩
theorem witness_SamplingUnread : Instr.decscan ≠ .reset := by decide
theorem witness_ReadsHaveNoEffect : { State.reset with pending := [.op (.regRead 18)] }.pending = .op (.regRead 18) :: [] ∧
    { State.reset with pending := [.op (.memRead (.ent 0))] }.pending = .op (.memRead (.ent 0)) :: [] ∧
    ¬ Present State.reset (.grid 0 0 0) ∧ Present State.reset (.ent 4294967294) :=
  ⟨rfl, rfl, fun h => absurd h.1 (by decide), (elemInRange_iff _ _).mp (by decide)⟩
/-- A class and ids that no store has (R72). -/
theorem witness_ReadsHaveNoEffect_noStore : ∀ a ∈ [Address.offs 2 0 0, .sym 0 4 0, .htSet 2 4, .q 4 0, .qtSet 4],
    ∀ e : Elem, e.address ≠ a := by
  intro a ha e he
  have h : a.elem = some e := by rw [← he, elem_address]
  have hn : ∀ a ∈ [Address.offs 2 0 0, .sym 0 4 0, .htSet 2 4, .q 4 0, .qtSet 4], a.elem = none := by decide
  rw [hn a ha] at h
  cases h
/-- The fields of `COMP1`: ACT 2, DCT 1, QT 3. -/
theorem test_compReg : let t := regWrite State.reset 9 0x1127#32
    qTableOf t 1 = 3 ∧ dcTableOf t 1 = 1 ∧ acTableOf t 1 = 2 ∧ regRead t 9 = 0x1127#32 := by decide
theorem witness_RegisterWrites : 1 ≤ 1 ∧ (10 : Nat) ≠ 11 ∧ 12 ≤ 12 ∧ 10 = 8 + (2 : Fin 3).val := by decide
theorem witness_MemoryWrites : ¬ Present State.reset (.sym .ac 3 162) ∧
    Present State.reset (.sym .ac 3 161) ∧ Present State.reset (.htBuilt .ac 2) ∧
    Elem.htBuilt .ac 2 ≠ .sym .ac 3 161 ∧
    (∀ k q, Elem.htBuilt .ac 2 = .htBuilt k q → ¬ ((∃ j, Elem.sym .ac 3 161 = .offs k q j ∨ Elem.sym .ac 3 161 = .sym k q j) ∨
      Elem.sym .ac 3 161 = .htSet k q)) := by
  refine ⟨(by decide : ¬ 162 < 162), (by decide : 161 < 162), trivial, by decide, ?_⟩
  rintro k q ⟨⟩ (⟨j, h | h⟩ | h)
  · cases h
  · injection h with _ h; revert h; decide
  · cases h

/-- A grayscale header about to start a scan. -/
def starting : State := { State.reset with ncomp := 1, width := 8, height := 8, pending := [.op (.regWrite 0 1)] }

theorem witness_MemoriesInvariant : MemoriesOk starting ∧ ∃ t, step starting = .next t ∧ t.phase = .decode := by
  refine ⟨⟨rfl, rfl, fun k t => ?_, ?_⟩, _, rfl, by decide⟩
  · cases k <;> revert t <;> decide
  · decide
theorem witness_MachineInvariant : MachineInv starting ∧ ∃ t, step starting = .next t ∧ t.nUnits = 1 := by
  refine ⟨⟨?_, ⟨fun _ => rfl, fun _ => rfl⟩, ⟨by decide, by decide, rfl, rfl⟩,
    fun k t h => ?_, fun k t => ?_, by decide, by decide, by decide⟩, _, rfl, by decide⟩
  · intro k b h
    rcases List.mem_singleton.mp h with ⟨⟩
  · exfalso
    revert h
    cases k <;> revert t <;> decide
  · cases k <;> revert t <;> decide

end Sys2Proof.Tests
end

section
/-! SUPPORT. The footprint of every instruction: the parts of the state it may write, said once.  The frames of the
state family (10_state) read it off. -/

namespace Sys2Proof.Machine

variable {s t u : State} {i : Instr} {c : Fin 3} {cs : List (Fin 3)}

/-! ## Parts of the state -/

/-- The parts of the state that some instruction but RESET writes.  `rewind` is the right to move the cursor back. -/
inductive Part where
  | result
  | cursor
  | rewind
  | pred
  | tables
  | blkIdx
  | nUnits
  | phase
  | sym

/-- The parts an instruction may write, besides the grid and the fault latch (RESET is not covered). -/
@[simp] def writes : Instr → List Part
  | .nop | .dcbad _ | .acbad _ _ | .reset => []
  | .scaninit => [.cursor, .rewind, .pred, .blkIdx, .nUnits, .phase]
  | .rdbit | .rdbits _ | .decsym _ _ => [.result, .cursor]
  | .align | .decac _ => [.cursor]
  | .htbuild _ _ => [.tables]
  | .decdc _ | .decblk _ | .dccat _ => [.cursor, .pred]
  | .decmcu | .decscan => [.cursor, .pred, .blkIdx, .phase]
  | .dequant | .idct | .color => [.phase]
  | .eob | .zrl | .zrun _ => [.sym]
  | .accoef _ _ => [.cursor, .sym]

/-- From `s` to `t` nothing changes but the grid and the parts listed; of the Huffman tables never what the host
has loaded. -/
structure Within (ps : List Part) (s t : State) : Prop where
  frame : t = { s with phase := t.phase, rfail := t.rfail, result := t.result, byteIdx := t.byteIdx, bitIdx := t.bitIdx,
                       blkIdx := t.blkIdx, nUnits := t.nUnits, pred := t.pred, dcTables := t.dcTables,
                       acTables := t.acTables, grid := t.grid, sym := t.sym }
  loaded : ∀ k q, (t.ht k q).set = (s.ht k q).set ∧ (t.ht k q).offs = (s.ht k q).offs ∧ (t.ht k q).sym = (s.ht k q).sym
  forward : .rewind ∉ ps → cursorPos s ≤ cursorPos t ∧ cursorPos t ≤ max (cursorPos s) (streamEnd s)
  result : .result ∉ ps → t.result = s.result ∧ t.rfail = s.rfail
  cursor : .cursor ∉ ps → t.byteIdx = s.byteIdx ∧ t.bitIdx = s.bitIdx
  pred : .pred ∉ ps → t.pred = s.pred
  tables : .tables ∉ ps → ∀ k q, t.ht k q = s.ht k q
  blkIdx : .blkIdx ∉ ps → t.blkIdx = s.blkIdx
  nUnits : .nUnits ∉ ps → t.nUnits = s.nUnits
  phase : .phase ∉ ps → t.phase = s.phase
  sym : .sym ∉ ps → t.sym = s.sym

variable {ps qs : List Part}

theorem Within.refl (ps : List Part) (s : State) : Within ps s s where
  frame := rfl
  loaded := fun _ _ => ⟨rfl, rfl, rfl⟩
  forward := fun _ => ⟨le_rfl, le_max_left _ _⟩
  result := fun _ => ⟨rfl, rfl⟩
  cursor := fun _ => ⟨rfl, rfl⟩
  pred := fun _ => rfl
  tables := fun _ _ _ => rfl
  blkIdx := fun _ => rfl
  nUnits := fun _ => rfl
  phase := fun _ => rfl
  sym := fun _ => rfl

theorem Within.mono (h : Within ps s t) (hs : ps ⊆ qs) : Within qs s t where
  frame := h.frame
  loaded := h.loaded
  forward := fun hn => h.forward fun hm => hn (hs hm)
  result := fun hn => h.result fun hm => hn (hs hm)
  cursor := fun hn => h.cursor fun hm => hn (hs hm)
  pred := fun hn => h.pred fun hm => hn (hs hm)
  tables := fun hn => h.tables fun hm => hn (hs hm)
  blkIdx := fun hn => h.blkIdx fun hm => hn (hs hm)
  nUnits := fun hn => h.nUnits fun hm => hn (hs hm)
  phase := fun hn => h.phase fun hm => hn (hs hm)
  sym := fun hn => h.sym fun hm => hn (hs hm)

theorem Within.streamEnd (h : Within ps s t) : Machine.streamEnd t = Machine.streamEnd s := by rw [h.frame]; rfl

theorem Within.trans (h : Within ps s t) (h' : Within ps t u) : Within ps s u where
  frame := by
    have e1 := h.frame
    have e2 := h'.frame
    rw [e1] at e2
    exact e2
  loaded := fun k q => by
    obtain ⟨h1, h2, h3⟩ := h.loaded k q
    obtain ⟨h1', h2', h3'⟩ := h'.loaded k q
    exact ⟨h1'.trans h1, h2'.trans h2, h3'.trans h3⟩
  forward := fun hn => by
    have h1 := h.forward hn
    have h2 := h'.forward hn
    have h3 := h.streamEnd
    omega
  result := fun hn => ⟨(h'.result hn).1.trans (h.result hn).1, (h'.result hn).2.trans (h.result hn).2⟩
  cursor := fun hn => ⟨(h'.cursor hn).1.trans (h.cursor hn).1, (h'.cursor hn).2.trans (h.cursor hn).2⟩
  pred := fun hn => (h'.pred hn).trans (h.pred hn)
  tables := fun hn k q => (h'.tables hn k q).trans (h.tables hn k q)
  blkIdx := fun hn => (h'.blkIdx hn).trans (h.blkIdx hn)
  nUnits := fun hn => (h'.nUnits hn).trans (h.nUnits hn)
  phase := fun hn => (h'.phase hn).trans (h.phase hn)
  sym := fun hn => (h'.sym hn).trans (h.sym hn)

theorem ht_congr (hd : t.dcTables = s.dcTables) (ha : t.acTables = s.acTables) (k : HuffClass) (q : Fin 4) :
    t.ht k q = s.ht k q := by
  cases k with
  | dc => simp only [State.ht, hd]
  | ac => simp only [State.ht, ha]

theorem Within.withGrid (h : Within ps s t) (g : Grid) : Within ps s { t with grid := g } :=
  { h with frame := by conv_lhs => rw [h.frame] }

/-! ## What the shared updates write -/

theorem Decoded.within (h : Decoded cs s t) (hp : .pred ∈ ps ∨ t.pred = s.pred)
    (hc : .cursor ∈ ps ∨ t.byteIdx = s.byteIdx ∧ t.bitIdx = s.bitIdx) : Within ps s t where
  frame := by rw [h.frame]
  loaded := fun k q => by rw [ht_congr (s := s) (by rw [h.frame]) (by rw [h.frame])]; exact ⟨rfl, rfl, rfl⟩
  forward := fun _ => ⟨h.forward, h.limit⟩
  result := fun _ => by rw [h.frame]; exact ⟨rfl, rfl⟩
  cursor := hc.resolve_left
  pred := hp.resolve_left
  tables := fun _ => ht_congr (by rw [h.frame]) (by rw [h.frame])
  blkIdx := fun _ => h.blkIdx
  nUnits := fun _ => by rw [h.frame]
  phase := fun _ => by rw [h.frame]
  sym := fun _ => by rw [h.frame]

theorem Decoded.pred_of_nil (h : Decoded [] s t) : t.pred = s.pred :=
  Vector.ext fun n hn => h.pred ⟨n, hn⟩ (by simp)

theorem Decoded.within_nil (h : Decoded [] s t) (hc : .cursor ∈ ps) : Within ps s t :=
  h.within (.inr h.pred_of_nil) (.inl hc)

theorem within_sym (k : Nat) (hs : .sym ∈ ps) : Within ps s { s with sym := { s.sym with k := k } } :=
  { Within.refl ps s with frame := rfl, sym := fun hn => absurd hs hn }

theorem AcSymbolRuns.within (h : AcSymbolRuns c s t)
    (hc : .cursor ∈ ps ∨ t.byteIdx = s.byteIdx ∧ t.bitIdx = s.bitIdx) (hs : .sym ∈ ps) : Within ps s t := by
  obtain ⟨m, k, hm, hp, rfl⟩ := h
  exact (hm.within (.inr hp) hc).trans (within_sym k hs)

theorem BitsRead.within (h : BitsRead s t) (hc : .cursor ∈ ps) : Within ps s t := by
  obtain ⟨q, h1, h2, rfl⟩ := h
  exact (decoded_atPos [] h1 h2).within_nil hc

theorem within_result (r : Word) (f : Bool) (hr : .result ∈ ps) : Within ps s { s with result := r, rfail := f } :=
  { Within.refl ps s with frame := rfl, result := fun hn => absurd hr hn }

theorem BitsReturned.within (h : BitsReturned s t) (hr : .result ∈ ps) (hc : .cursor ∈ ps) : Within ps s t := by
  obtain ⟨m, r, f, hm, rfl⟩ := h
  exact (hm.within hc).trans (within_result r f hr)

/-- Replacing a Huffman table by one with the host's parts the same. -/
theorem within_setHt (k : HuffClass) (q : Fin 4) {x : HuffTable} (h : x.set = (s.ht k q).set)
    (ho : x.offs = (s.ht k q).offs) (hs : x.sym = (s.ht k q).sym) (hp : .tables ∈ ps) :
    Within ps s (setHt k q x s) where
  frame := by cases k <;> rfl
  loaded := fun k' q' => by
    rw [setHt_ht_iff]
    split
    · next e => obtain ⟨rfl, rfl⟩ := e; exact ⟨h, ho, hs⟩
    · exact ⟨rfl, rfl, rfl⟩
  forward := fun _ => by simp
  result := fun _ => by simp
  cursor := fun _ => by simp
  pred := fun _ => by simp
  tables := fun hn => absurd hp hn
  blkIdx := fun _ => by simp
  nUnits := fun _ => by simp
  phase := fun _ => by simp
  sym := fun _ => by simp

theorem within_startScan (s : State) : Within (writes .scaninit) s (startScan s) :=
  { Within.refl _ s with
    frame := rfl
    forward := fun hn => absurd (by simp) hn
    cursor := fun hn => absurd (by simp) hn
    pred := fun hn => absurd (by simp) hn
    blkIdx := fun hn => absurd (by simp) hn
    nUnits := fun hn => absurd (by simp) hn
    phase := fun hn => absurd (by simp) hn }

theorem Scanned.within (h : Scanned s t) : Within [.cursor, .pred, .blkIdx, .phase] s t where
  frame := by rw [h.frame]
  loaded := fun k q => by rw [ht_congr (s := s) (by rw [h.frame]) (by rw [h.frame])]; exact ⟨rfl, rfl, rfl⟩
  forward := fun _ => ⟨h.forward, h.limit⟩
  result := fun _ => by rw [h.frame]; exact ⟨rfl, rfl⟩
  cursor := fun hn => absurd (by simp) hn
  pred := fun hn => absurd (by simp) hn
  tables := fun _ => ht_congr (by rw [h.frame]) (by rw [h.frame])
  blkIdx := fun hn => absurd (by simp) hn
  nUnits := fun _ => h.nUnits
  phase := fun hn => absurd (by simp) hn
  sym := fun _ => by rw [h.frame]

theorem Staged.within {p q : Phase} (h : Staged p q s t) : Within [.phase] s t where
  frame := by rw [h.frame]
  loaded := fun k q => by rw [ht_congr (s := s) (by rw [h.frame]) (by rw [h.frame])]; exact ⟨rfl, rfl, rfl⟩
  forward := fun _ => by rw [h.frame]; exact ⟨le_rfl, le_max_left _ _⟩
  result := fun _ => by rw [h.frame]; exact ⟨rfl, rfl⟩
  cursor := fun _ => by rw [h.frame]; exact ⟨rfl, rfl⟩
  pred := fun _ => by rw [h.frame]
  tables := fun _ => ht_congr (by rw [h.frame]) (by rw [h.frame])
  blkIdx := fun _ => by rw [h.frame]
  nUnits := fun _ => by rw [h.frame]
  phase := fun hn => absurd (by simp) hn
  sym := fun _ => by rw [h.frame]

/-! ## What an instruction writes -/

/-- The symbols that store only zeros read no bits (42_entropy_symbols R182 to R184). -/
theorem zeroRun_cursor (run : Nat) (c : Fin 3) (k : Nat) (s : State) :
    (storeK (zeroRun run c k s)).state.byteIdx = s.byteIdx ∧ (storeK (zeroRun run c k s)).state.bitIdx = s.bitIdx := by
  rw [zeroRun_eq]
  split
  · simp [storeK_done]
  · simp [storeK]

theorem eob_cursor (c : Fin 3) (k : Nat) (s : State) :
    (storeK (symEob c k s)).state.byteIdx = s.byteIdx ∧ (storeK (symEob c k s)).state.bitIdx = s.bitIdx := by
  rw [symEob, storeK_done, zeroFill_eq]
  simp

/-- A command keeps the cursor where its procedure does. -/
theorem command_cursor {α : Type} {body : State → Ran α} (e : command body s = .next t)
    (h : (body s).state.byteIdx = s.byteIdx ∧ (body s).state.bitIdx = s.bitIdx) :
    t.byteIdx = s.byteIdx ∧ t.bitIdx = s.bitIdx := by
  cases hv : s.valid
  · rw [command_invalid hv] at e; cases e; exact ⟨rfl, rfl⟩
  · rw [command_valid hv] at e; cases e; exact h

/-- A complete DC item changes what decoding its component may. -/
theorem dcItem_decoded {tab : Fin 4} {diff v : Int} {q : Nat} (h : DcItem s tab (cursorPos s) diff q) (c : Fin 3) :
    Decoded [c] s (atPos q (putCoef c 0 v (setPred c v s))) := by
  obtain ⟨h1, h2, h3⟩ := h.bounds
  exact (decoded_setPred v (by simp)).trans ((decoded_putCoef v (by simp) (by simp)).trans
    (decoded_atPos [c] h1 (h3.trans (le_max_right _ _))))

/-- A complete run of AC items changes what decoding its component may. -/
theorem acItems_decoded {tab : Fin 4} {vs : List Int} {q : Nat} (h : AcItems s tab 1 (cursorPos s) vs 64 q)
    (c : Fin 3) : Decoded [c] s (atPos q (storeCoefs c 1 vs s)) := by
  obtain ⟨h1, h2, h3, h4⟩ := h.bounds (by simp)
  refine (decoded_storeCoefs (by simp) h1.le).trans (decoded_atPos [c] ?_ ?_)
  · rwa [cursorPos_storeCoefs]
  · rwa [cursorPos_storeCoefs, streamEnd_storeCoefs]

/-- An instruction that completes writes only its own parts. -/
theorem after_within (hi : i ≠ .reset) (h : exec i s = .next t) (ha : After s t i) : Within (writes i) s t := by
  cases i with
  | nop => rw [show t = s from ha]; exact .refl _ _
  | scaninit => rw [show t = startScan s from ha.1]; exact within_startScan s
  | rdbit => exact BitsReturned.within ha (by simp) (by simp)
  | rdbits n => exact ha.2.within (by simp) (by simp)
  | align => exact BitsRead.within ha (by simp)
  | htbuild k q => rw [show t = _ from ha.1]; exact within_setHt k q rfl rfl rfl (by simp)
  | decsym k q => exact ha.2.within (by simp) (by simp)
  | decdc c =>
    obtain ⟨e, -, -, diff, q, hd, -, rfl⟩ := ha
    exact (dcItem_decoded hd e).within (.inl (by simp)) (.inl (by simp))
  | decac c =>
    obtain ⟨e, -, -, vs, q, hd, rfl⟩ := ha
    exact (acItems_decoded hd e).within (.inr (by simp)) (.inl (by simp))
  | decblk c =>
    obtain ⟨e, -, -, hd⟩ := ha
    exact hd.decoded.within (.inl (by simp)) (.inl (by simp))
  | decmcu => exact ha.2.scanned.within
  | decscan => exact ha.2.within
  | dequant => exact Staged.within ha
  | idct => exact Staged.within ha
  | color => exact Staged.within ha
  | reset => exact absurd rfl hi
  | dccat cat => exact Decoded.within ha (.inl (by simp)) (.inl (by simp))
  | dcbad b => exact ha.elim
  | eob =>
    have hc := command_cursor (body := fun s' => storeK (symEob s.sym.comp s.sym.k s')) h (eob_cursor _ _ s)
    exact AcSymbolRuns.within ha (.inr hc) (by simp)
  | zrl =>
    have hc := command_cursor (body := fun s' => storeK (symZrl s.sym.comp s.sym.k s')) h (zeroRun_cursor 16 _ _ s)
    exact AcSymbolRuns.within ha (.inr hc) (by simp)
  | zrun run =>
    have hc := command_cursor (body := fun s' => storeK (symZrun run s.sym.comp s.sym.k s')) h
      (zeroRun_cursor run.toNat _ _ s)
    exact AcSymbolRuns.within ha (.inr hc) (by simp)
  | accoef run size => exact AcSymbolRuns.within ha (.inl (by simp)) (by simp)
  | acbad run size => exact ha.elim

/-- An instruction that raises a fault has before it written only its own parts, and neither the phase nor the number
of times the grid was invalidated. -/
theorem broken_within (hb : Broken s u i) :
    Within (writes i) s u ∧ u.phase = s.phase ∧ u.grid.epoch = s.grid.epoch := by
  have same : ∀ {j : Instr}, u = s → Within (writes j) s u ∧ u.phase = s.phase ∧ u.grid.epoch = s.grid.epoch := by
    rintro j rfl; exact ⟨.refl _ _, rfl, rfl⟩
  have decoded : ∀ {ds}, Decoded ds s u → u.phase = s.phase ∧ u.grid.epoch = s.grid.epoch := by
    intro ds h; rw [h.frame]; exact ⟨rfl, rfl⟩
  cases i with
  | nop | scaninit | rdbit | rdbits | align | dequant | idct | color | reset | dcbad | eob | zrl | zrun | acbad =>
    exact same hb
  | htbuild k q =>
    rw [show u = _ from hb]
    exact ⟨within_setHt k q rfl rfl rfl (by simp), by simp, by simp⟩
  | decsym k q =>
    rcases hb with rfl | ⟨m, hm, rfl⟩
    · exact same rfl
    · refine ⟨(hm.within (by simp)).trans (within_result _ _ (by simp)), ?_⟩
      obtain ⟨p, -, -, rfl⟩ := hm
      exact ⟨rfl, rfl⟩
  | decdc c => exact ⟨Decoded.within_nil hb (by simp), decoded hb⟩
  | decac c => exact ⟨Decoded.within_nil hb (by simp), decoded hb⟩
  | decblk c =>
    rcases hb with rfl | ⟨e, -, hd⟩
    · exact same rfl
    · exact ⟨hd.within (.inl (by simp)) (.inl (by simp)), decoded hd⟩
  | decmcu => exact ⟨Decoded.within hb (.inl (by simp)) (.inl (by simp)), decoded hb⟩
  | decscan =>
    rcases hb with rfl | ⟨-, m, hm, hp, hd⟩
    · exact same rfl
    · have hw := hd.within (ps := writes .decscan) (.inl (by simp)) (.inl (by simp))
      exact ⟨hm.within.trans hw, by rw [hd.frame]; exact hp, by rw [hd.frame, hm.frame]⟩
  | dccat cat => exact ⟨Decoded.within_nil hb (by simp), decoded hb⟩
  | accoef run size => exact ⟨Decoded.within_nil hb (by simp), decoded hb⟩

/-- How an instruction ends that writes the parts `ps`: complete, or with a fault raised behind a part of its work. -/
inductive Ends (ps : List Part) (s t : State) : Prop
  | completes (h : Within ps s t)
  | raises (hv : s.valid = true) (f : FaultCode) (u : State) (hf : f ≠ .none) (h : Within ps s u)
      (hp : u.phase = s.phase) (hg : u.grid.epoch = s.grid.epoch) (ht : t = raise f u)

theorem exec_ends (hi : i ≠ .reset) (h : exec i s = .next t) : Ends (writes i) s t := by
  rcases exec_after hi h with ⟨-, rfl⟩ | ⟨-, ha⟩ | ⟨hv, f, u, hf, ht, hb⟩
  · exact .completes (.refl _ _)
  · exact .completes (after_within hi h ha)
  · obtain ⟨hw, hp, hg⟩ := broken_within hb
    exact .raises hv f u hf hw hp hg ht

/-- The footprint of an instruction, whether it completes or raises: but for the latch and the grid it writes its own
parts only. -/
theorem exec_within (hi : i ≠ .reset) (h : exec i s = .next t) :
    Within (writes i) s { t with valid := s.valid, fault := s.fault } := by
  rcases exec_ends hi h with hw | ⟨-, f, u, -, hw, -, -, rfl⟩
  · have hv : t.valid = s.valid := by rw [hw.frame]
    have hf : t.fault = s.fault := by rw [hw.frame]
    rwa [← hv, ← hf]
  · have e : { raise f u with valid := s.valid, fault := s.fault } = { u with grid := u.grid.forget } := by
      rw [hw.frame]; rfl
    rw [e]
    exact hw.withGrid _

/-- What no instruction but RESET writes. -/
theorem exec_frame (hi : i ≠ .reset) (h : exec i s = .next t) :
    t = { s with valid := t.valid, fault := t.fault, phase := t.phase, rfail := t.rfail, result := t.result,
                 byteIdx := t.byteIdx, bitIdx := t.bitIdx, blkIdx := t.blkIdx, nUnits := t.nUnits, pred := t.pred,
                 dcTables := t.dcTables, acTables := t.acTables, grid := t.grid, sym := t.sym } := by
  rcases exec_ends hi h with hw | ⟨-, f, u, -, hw, -, -, rfl⟩
  · rw [hw.frame]
  · rw [hw.frame]; rfl

end Sys2Proof.Machine
end

section
/-! The frames of the state family: what each instruction leaves unchanged, read off its footprint. -/

namespace Sys2Proof.Machine

variable {s t u : State} {i : Instr}

theorem exec_reset (h : exec .reset s = .next t) : t = resetEngine s := by
  cases h; rfl

/-! ## The latch -/

/-- Settles O11: a fault is the only way down of the latch, and RESET the only way up. -/
theorem latchOneWay : Obligations.LatchOneWay := by
  intro i s t h
  by_cases hi : i = .reset
  · subst hi
    rw [exec_reset h]
    exact ⟨fun _ hv => (by cases hv), fun _ _ => rfl, fun hi => absurd rfl hi⟩
  rcases exec_ends hi h with hw | ⟨hs, f, u, hf, hw, hp, hg, rfl⟩
  · have hv : t.valid = s.valid := by rw [hw.frame]
    have hc : t.fault = s.fault := by rw [hw.frame]
    exact ⟨fun h1 h0 => by simp [hv, h1] at h0, fun h0 h1 => by simp [hv, h0] at h1, fun _ _ => hc⟩
  · exact ⟨fun _ _ => ⟨hf, by simp [Grid.forget, hg], hp⟩, fun _ h1 => by simp at h1,
      fun _ hv => by simp [hs] at hv⟩

/-! ## What the host loads -/

/-- Settles O46: the footprint of an instruction holds nothing the host loads. -/
theorem hostStateKept : Obligations.HostStateKept := by
  intro i s t hi h
  have hf := exec_frame hi h
  have hent : t.ent = s.ent := by rw [hf]
  have hqt : t.qTables = s.qTables := by rw [hf]
  have hep : t.memEpoch = s.memEpoch := by rw [hf]
  refine ⟨by rw [hf], by rw [hf], by rw [hf], by rw [hf], by rw [hf], by rw [hf], hqt, hent, by rw [hf], hep,
    by rw [hf], by rw [hf], fun a => by simp only [entAt, hent, hep], fun q a => by simp only [quantAt, hqt, hep],
    fun k q => ?_⟩
  obtain ⟨h1, h2, h3⟩ : (t.ht k q).set = (s.ht k q).set ∧ (t.ht k q).offs = (s.ht k q).offs ∧
    (t.ht k q).sym = (s.ht k q).sym := (exec_within hi h).loaded k q
  exact ⟨h1, fun j => ⟨by simp only [offsByte, h2, hep], congrFun (symAt_congr h3 hep) j⟩⟩

/-- Settles O47: no other footprint holds the tables, and HTBUILD replaces one store. -/
theorem huffmanTablesKept : Obligations.HuffmanTablesKept := by
  constructor
  · intro i s t hi hk h
    refine (exec_within hi h).tables ?_
    cases i with
    | htbuild k q => exact absurd rfl (hk k q)
    | _ => simp
  · intro k q s t h k' q' hne
    rcases exec_after (by simp) h with ⟨-, rfl⟩ | ⟨-, ha⟩ | ⟨-, f, u, -, rfl, hb⟩
    · rfl
    · rw [show t = _ from ha.1, setHt_ht_other _ _ _ _ _ _ hne]
    · rw [show u = _ from hb, raise_ht, setHt_ht_other _ _ _ _ _ _ hne]

/-! ## Predictors, counters, results -/

/-- What DECDC and DECBLK do to the predictors of the other components: nothing. -/
theorem exec_pred_of_comp {c : BitVec 2} {d e : Fin 3} (hi : i = .decdc c ∨ i = .decblk c) (hc : compIndex c = some d)
    (hne : e ≠ d) (h : exec i s = .next t) : predAt t e = predAt s e := by
  have key : ∀ {c' u}, compIndex c = some c' → Decoded [c'] s u → predAt u e = predAt s e := by
    intro c' u hc' hd
    rw [hc] at hc'
    cases hc'
    simp only [predAt, hd.pred e (by simpa using hne)]
  rcases hi with rfl | rfl
  · rcases exec_after (by simp) h with ⟨-, rfl⟩ | ⟨-, c', hc', -, diff, q, hd, -, rfl⟩ | ⟨-, f, u, -, rfl, hb⟩
    · rfl
    · exact key hc' (dcItem_decoded hd c')
    · exact key (u := u) hc (Decoded.mono hb (by simp))
  · rcases exec_after (by simp) h with ⟨-, rfl⟩ | ⟨-, c', hc', -, hd⟩ | ⟨-, f, u, -, rfl, rfl | ⟨c', hc', hd⟩⟩
    · rfl
    · exact key hc' hd.decoded
    · rfl
    · exact key (u := u) hc' hd

/-- Settles O48: no other footprint holds the predictors, and decoding a component writes only its own. -/
theorem predictorsKept : Obligations.PredictorsKept := by
  intro i s t h
  refine ⟨fun hn hc => ?_, fun c e hi hne => exec_pred_of_comp hi (compIndex_compArg c) hne h, ?_⟩
  · have hi : i ≠ .reset := by rintro rfl; simp at hn
    refine (exec_within hi h).pred ?_
    cases i with
    | decdc c => exact absurd rfl (hc c 0).1
    | decblk c => exact absurd rfl (hc c 0).2.1
    | dccat cat => exact absurd rfl (hc 0 cat).2.2
    | decmcu | decscan | scaninit | reset => simp at hn
    | _ => simp
  · rintro cat e rfl hne
    have key : ∀ {u}, Decoded [s.sym.comp] s u → predAt u e = predAt s e := fun hd => by
      simp only [predAt, hd.pred e (by simpa using hne)]
    rcases exec_after (by simp) h with ⟨-, rfl⟩ | ⟨-, ha⟩ | ⟨-, f, u, -, rfl, hb⟩
    · rfl
    · exact key ha
    · exact key (u := u) (Decoded.mono hb (by simp))

/-- DECMCU advances the unit counter where it completes, and leaves it where it raises. -/
theorem exec_decmcu_blkIdx (h : exec .decmcu s = .next t) : t.blkIdx = s.blkIdx ∨ t.blkIdx = s.blkIdx + 1 := by
  rcases exec_after (by simp) h with ⟨-, rfl⟩ | ⟨-, -, ha⟩ | ⟨-, f, u, -, rfl, hb⟩
  · exact .inl rfl
  · exact .inr (by rw [ha.frame])
  · exact .inl (Decoded.blkIdx (t := u) hb)

/-- Settles O51, from the footprints. -/
theorem countersKept : Obligations.CountersKept := by
  intro i s t h
  refine ⟨fun hn => ?_, fun hn => ?_, fun hn => ?_, fun hi => exec_decmcu_blkIdx (hi ▸ h)⟩
  · refine (exec_within (by rintro rfl; simp at hn) h).blkIdx ?_
    cases i <;> simp at hn ⊢
  · refine (exec_within (by rintro rfl; simp at hn) h).nUnits ?_
    cases i <;> simp at hn ⊢
  · refine (exec_within (by rintro rfl; simp at hn) h).phase ?_
    cases i <;> simp at hn ⊢

/-- Settles O52, from the footprints. -/
theorem resultKept : Obligations.ResultKept := by
  intro i s t h hi
  refine ⟨fun h1 h2 => (exec_within hi h).result ?_, fun h1 h2 => (exec_within hi h).sym ?_⟩
  · cases i with
    | rdbit => exact absurd rfl h1
    | rdbits n => exact absurd rfl (h2 n .dc 0).1
    | decsym k q => exact absurd rfl (h2 0 k q).2
    | _ => simp
  · cases i with
    | eob | zrl => simp at h1
    | zrun r => exact absurd rfl (h2 r 0).1
    | accoef r z => exact absurd rfl (h2 r z).2
    | _ => simp

/-! ## The cursor -/

/-- No instruction but SCANINIT and RESET moves the cursor back, and none moves it beyond the end of the stream. -/
theorem exec_forward (h1 : i ≠ .scaninit) (h2 : i ≠ .reset) (h : exec i s = .next t) :
    cursorPos s ≤ cursorPos t ∧ cursorPos t ≤ max (cursorPos s) (streamEnd s) := by
  refine (exec_within h2 h).forward ?_
  cases i with
  | scaninit => exact absurd rfl h1
  | _ => simp

/-- SCANINIT and RESET leave the cursor or set it to the start. -/
theorem exec_rewind (hi : i = .scaninit ∨ i = .reset) (h : exec i s = .next t) :
    cursorPos t = cursorPos s ∨ cursorPos t = 0 := by
  rcases hi with rfl | rfl
  · rcases exec_after (by simp) h with ⟨-, rfl⟩ | ⟨-, rfl, -⟩ | ⟨-, f, u, -, rfl, rfl⟩
    · exact .inl rfl
    · exact .inr rfl
    · exact .inl rfl
  · rw [exec_reset h]; exact .inr rfl

/-- Settles O49: forward but for SCANINIT and RESET, and still where the footprint does not hold the cursor. -/
theorem cursorForward : Obligations.CursorForward := by
  intro i s t h
  refine ⟨fun h1 h2 => (exec_forward h1 h2 h).1, fun hi => exec_rewind hi h, fun hi => ?_⟩
  have hn : i ≠ .reset ∧ Part.cursor ∉ writes i := by
    rcases hi with hi | ⟨k, q, rfl⟩ | ⟨r, rfl⟩ | ⟨b, rfl⟩ | ⟨r, z, rfl⟩
    · simp only [List.mem_cons, List.not_mem_nil, or_false] at hi
      rcases hi with rfl | rfl | rfl | rfl | rfl | rfl <;> simp
    all_goals simp
  exact (exec_within hn.1 h).cursor hn.2

/-- The cursor invariant in terms of the linear position: not beyond the last byte written. -/
theorem cursorOk_iff (s : State) : CursorOk s ↔ cursorPos s ≤ 8 * s.entLen.toNat := by
  have hb := s.bitIdx.isLt
  rw [CursorOk, cursorPos, BitVec.toNat_eq (x := s.byteIdx), BitVec.toNat_eq (x := s.bitIdx)]
  simp only [BitVec.toNat_ofNat, Nat.zero_mod]
  omega

theorem streamEnd_le_entLen (s : State) : streamEnd s ≤ 8 * s.entLen.toNat :=
  Nat.mul_le_mul_left 8 (Nat.min_le_left _ _)

/-- Settles O50: the cursor goes to the start, or forward and not beyond the end. -/
theorem cursorInvariant : Obligations.CursorInvariant := by
  intro i s t hs h
  rw [cursorOk_iff] at hs ⊢
  by_cases hr : i = .reset
  · subst hr
    rw [exec_reset h]
    exact Nat.zero_le _
  have hl : t.entLen = s.entLen := by rw [exec_frame hr h]
  have he := streamEnd_le_entLen s
  rw [hl]
  by_cases hi : i = .scaninit
  · rcases exec_rewind (.inl hi) h with e | e <;> omega
  · have := (exec_forward hi hr h).2
    omega

end Sys2Proof.Machine
end

section
/-! The invariant of the machine (10_state R27 to R29, R39 to R41, R46, 20_memory R72): it holds at reset, and each of
its four parts is kept by every step of the host. -/

namespace Sys2Proof.Machine

variable {s t u : State} {i : Instr}

/-! ## The parts of the invariant -/

/-- What the invariant says of one Huffman table. -/
def TableOk (s : State) (k : HuffClass) (q : Fin 4) : Prop :=
  ((s.ht k q).built = true → (s.ht k q).set = true ∧ OffsetsLegal s k q ∧ CodesBuilt s k q) ∧
    Memory.below 17 (s.ht k q).offs = true ∧ Memory.below 162 (s.ht k q).sym = true ∧
    Memory.below 162 (s.ht k q).code = true

theorem rangesOk_iff (s : State) : RangesOk s ↔ (∀ k q, TableOk s k q) ∧
    (∀ q : Fin 4, Memory.below 64 s.qTables[q].q = true) ∧ Memory.below s.cfg.entCap.toNat s.ent = true ∧
    Memory.below (s.nUnits.toNat * 192) s.grid.cells = true := by
  simp only [RangesOk, TableOk, forall_and, and_assoc]

theorem TableOk.congr {k : HuffClass} {q : Fin 4} (h : TableOk s k q) (ht : t.ht k q = s.ht k q)
    (he : t.memEpoch = s.memEpoch) : TableOk t k q := by
  have ho : offsAt t k q = offsAt s k q := offsAt_congr rfl (by rw [ht]) he
  have hc : codeAt t k q = codeAt s k q := codeAt_congr (by rw [ht]) he
  rwa [TableOk, ht, offsetsLegal_congr ho, codesBuilt_congr ho hc]

/-- A replaced store needs looking at alone. -/
theorem tableOk_setHt {k : HuffClass} {q : Fin 4} {x : HuffTable} (h : ∀ k q, TableOk s k q)
    (hx : TableOk (setHt k q x s) k q) (k' : HuffClass) (q' : Fin 4) : TableOk (setHt k q x s) k' q' := by
  by_cases e : k' = k ∧ q' = q
  · obtain ⟨rfl, rfl⟩ := e; exact hx
  · exact (h k' q').congr (setHt_ht_other _ _ _ _ _ _ e) (by simp)

theorem tableOk_unbuilt {k : HuffClass} {q : Fin 4} {x : HuffTable} (hb : x.built = false)
    (ho : Memory.below 17 x.offs = true) (hs : Memory.below 162 x.sym = true) (hc : Memory.below 162 x.code = true) :
    TableOk (setHt k q x s) k q := by
  simp [TableOk, hb, ho, hs, hc]

/-- The table HTBUILD leaves: legal offsets, the codes they give, and no code beyond entry 161. -/
theorem tableOk_builtTable {k : HuffClass} {q : Fin 4} (h : TableOk s k q) (hs : (s.ht k q).set = true)
    (hl : OffsetsLegal s k q) : TableOk (setHt k q (builtTable s k q) s) k q := by
  obtain ⟨-, ho, hsym, hc⟩ := h
  have hm := hl.2.1
  refine ⟨fun _ => ⟨by simpa [builtTable] using hs, (offsetsLegal_congr (offsAt_built s k q k q)).mpr hl,
    codesBuilt_built s k q hl⟩, ?_, ?_, ?_⟩ <;> rw [setHt_ht_same]
  · exact ho
  · exact hsym
  · exact below_assignLengths le_rfl (fun l h1 h2 => hm l h1 (by omega))
      (fun l h2 => (offs_mono hm (by omega : l ≤ 16) le_rfl).trans hl.2.2) hc

theorem SequenceOk.congr (h : SequenceOk s) (hc : t.cfg = s.cfg) (hn : t.nUnits = s.nUnits)
    (hb : t.blkIdx = s.blkIdx) (hp : t.phase = s.phase) : SequenceOk t := by
  rwa [SequenceOk, hc, hn, hb, hp]

/-! ## Reset -/

theorem resetEngine_ht (s : State) (k : HuffClass) (q : Fin 4) : (resetEngine s).ht k q = HuffTable.reset := by
  cases k <;> simp [State.ht, resetEngine, State.reset]

theorem resetEngine_qTables (s : State) (q : Fin 4) : (resetEngine s).qTables[q] = QuantTable.reset := by
  simp [resetEngine, State.reset]

/-- A reset keeps the queue and gives everything else of the invariant. -/
theorem machineInv_resetEngine (h : FromHost s) : MachineInv (resetEngine s) := by
  refine ⟨h, ⟨fun _ => rfl, fun _ => rfl⟩, ⟨Nat.zero_le _, by simp [resetEngine, State.reset], rfl, rfl⟩,
    (rangesOk_iff _).mpr ⟨fun k q => ?_, fun q => ?_, rfl, rfl⟩⟩
  · rw [TableOk, resetEngine_ht]
    exact ⟨fun hb => (by cases hb), rfl, rfl, rfl⟩
  · rw [resetEngine_qTables]; rfl

/-- Settles O58: the reset state holds nothing but empty memories and cleared flags. -/
theorem resetInvariant : Obligations.ResetInvariant := by
  have ht : ∀ k q, State.reset.ht k q = HuffTable.reset := resetEngine_ht State.reset
  have hq : ∀ q : Fin 4, State.reset.qTables[q] = QuantTable.reset := resetEngine_qTables State.reset
  refine ⟨⟨rfl, rfl, fun k q => by rw [ht]; exact ⟨rfl, rfl, rfl⟩, fun q => by rw [hq]; rfl⟩, ?_⟩
  refine ⟨fun k b hm => (by cases hm), ⟨fun _ => rfl, fun _ => rfl⟩, ⟨Nat.zero_le _, by decide, rfl, rfl⟩,
    (rangesOk_iff _).mpr ⟨fun k q => ?_, fun q => by rw [hq]; rfl, rfl, rfl⟩⟩
  rw [TableOk, ht]
  exact ⟨fun hb => (by cases hb), rfl, rfl, rfl⟩

/-! ## Commands -/

/-- A word of `CMD` names no entropy symbol (30_encoding R104). -/
theorem formNone_class {arg : Byte} {j : Instr} (hj : j.symbolClass = none) (h : formNone arg j = .ok i) :
    i.symbolClass = none := by
  rw [formNone] at h
  split at h <;> cases h
  exact hj

theorem formT_class {arg : Byte} {f : HuffClass → Fin 4 → Instr} (hf : ∀ k q, (f k q).symbolClass = none)
    (h : formT arg f = .ok i) : i.symbolClass = none := by
  rw [formT] at h
  split at h <;> cases h
  exact hf _ _

theorem formC_class {arg : Byte} {f : BitVec 2 → Instr} (hf : ∀ c, (f c).symbolClass = none)
    (h : formC arg f = .ok i) : i.symbolClass = none := by
  rw [formC] at h
  split at h
  · split at h <;> cases h
    exact hf _
  · cases h

theorem formN_class {arg : Byte} {f : BitVec 5 → Instr} (hf : ∀ n, (f n).symbolClass = none)
    (h : formN arg f = .ok i) : i.symbolClass = none := by
  rw [formN] at h
  split at h
  · split at h <;> cases h
    exact hf _
  · cases h

theorem decodeOp_class {op arg : Byte} (h : decodeOp op arg = .ok i) : i.symbolClass = none := by
  rw [decodeOp] at h
  split at h
  case h_4 => exact formN_class (fun _ => rfl) h
  case h_6 | h_7 => exact formT_class (fun _ _ => rfl) h
  case h_8 | h_9 | h_10 => exact formC_class (fun _ => rfl) h
  case h_17 => cases h
  all_goals exact formNone_class rfl h

theorem decodeCmd_class {w : Word} (h : decodeCmd w = .ok i) : i.symbolClass = none := by
  rw [decodeCmd] at h
  split at h
  · exact decodeOp_class h
  · cases h

/-! ## The counters and the phase -/

/-- A scan starts with at least one unit and at most 8192 * 8192 (10_state R39, 46_control R241). -/
theorem unitCount_bounds (hw : s.width ≠ 0#16) (hh : s.height ≠ 0#16) :
    1 ≤ unitCount s ∧ unitCount s ≤ 67108864 := by
  have ceil : ∀ {x : BitVec 16}, x ≠ 0#16 → 1 ≤ ceil8 x.toNat ∧ ceil8 x.toNat ≤ 8192 := by
    intro x hx
    have h0 : x.toNat ≠ 0 := fun e => hx (BitVec.eq_of_toNat_eq e)
    have := x.isLt
    rw [ceil8]
    omega
  obtain ⟨h1, h2⟩ := ceil hh
  obtain ⟨h3, h4⟩ := ceil hw
  exact ⟨Nat.mul_le_mul h1 h3, Nat.mul_le_mul h2 h4⟩

theorem sequenceOk_startScan (hw : s.width ≠ 0#16) (hh : s.height ≠ 0#16) (hc : unitCount s ≤ s.cfg.gridCap) :
    SequenceOk (startScan s) := by
  obtain ⟨h1, h2⟩ := unitCount_bounds hw hh
  have e : (startScan s).nUnits.toNat = unitCount s := by
    simp only [startScan, BitVec.toNat_ofNat]
    omega
  refine ⟨by rw [e]; exact hc, by rw [e]; exact h2, ?_⟩
  show (0#32).toNat < (startScan s).nUnits.toNat
  rw [e]
  exact h1

theorem SequenceOk.blkIdx_lt (h : SequenceOk s) (hp : s.phase = .decode) : s.blkIdx.toNat < s.nUnits.toNat := by
  have := h.2.2
  rwa [hp] at this

theorem Scanned.sequenceOk (h : Scanned s t) (hs : SequenceOk s) (hp : s.phase = .decode) : SequenceOk t := by
  have hn := h.nUnits
  have hc : t.cfg = s.cfg := by rw [h.frame]
  refine ⟨by rw [hn, hc]; exact hs.1, by rw [hn]; exact hs.2.1, ?_⟩
  rcases h.ends (hs.blkIdx_lt hp) hp with ⟨e, -, hb⟩ | ⟨e, hb⟩
  · simpa only [e, hn] using hb
  · simpa only [e, hn] using hb

theorem Within.sequenceOk {ps : List Part} (h : Within ps s t) (hs : SequenceOk s) (hn : .nUnits ∉ ps)
    (hb : .blkIdx ∉ ps) (hp : .phase ∉ ps) : SequenceOk t :=
  hs.congr (by rw [h.frame]) (h.nUnits hn) (h.blkIdx hb) (h.phase hp)

/-- Behind the decoding of a scan every unit is counted. -/
theorem SequenceOk.blkIdx_eq (h : SequenceOk s) (h0 : s.phase ≠ .idle) (h1 : s.phase ≠ .decode) :
    s.blkIdx = s.nUnits := by
  obtain ⟨-, -, h⟩ := h
  split at h
  · next e => exact absurd e h0
  · next e => exact absurd e h1
  · exact h

theorem Staged.sequenceOk {p q : Phase} (h : Staged p q s t) (hs : SequenceOk s) (hp : p ≠ .idle ∧ p ≠ .decode)
    (hq : q ≠ .idle ∧ q ≠ .decode) : SequenceOk t := by
  have hb := hs.blkIdx_eq (by rw [h.before]; exact hp.1) (by rw [h.before]; exact hp.2)
  rw [h.frame]
  refine ⟨hs.1, hs.2.1, ?_⟩
  cases q <;> simp at hq <;> exact hb

theorem after_sequenceOk (hr : i ≠ .reset) (h : exec i s = .next t) (ha : After s t i)
    (hs : SequenceOk s) : SequenceOk t := by
  have hw := after_within hr h ha
  cases i with
  | scaninit =>
    obtain ⟨rfl, -, hw, hh, -, hc⟩ := ha
    exact sequenceOk_startScan hw hh hc
  | decmcu => exact ha.2.scanned.sequenceOk hs ha.1.2.1
  | decscan => exact ha.2.sequenceOk hs ha.1.2.1
  | dequant => exact Staged.sequenceOk ha hs (by simp) (by simp)
  | idct => exact Staged.sequenceOk ha hs (by simp) (by simp)
  | color => exact Staged.sequenceOk ha hs (by simp) (by simp)
  | reset => exact absurd rfl hr
  | _ => exact hw.sequenceOk hs (by simp) (by simp) (by simp)

theorem broken_sequenceOk (hb : Broken s u i) (hs : SequenceOk s) : SequenceOk u := by
  obtain ⟨hw, -, -⟩ := broken_within hb
  cases i with
  | scaninit | dequant | idct | color => rwa [show u = s from hb]
  | decmcu =>
    exact (Decoded.within (ps := [.cursor, .pred]) hb (by simp) (by simp)).sequenceOk hs
      (by simp) (by simp) (by simp)
  | decscan =>
    rcases hb with rfl | ⟨hp, m, hm, -, hd⟩
    · exact hs
    · exact (hd.within (ps := [.cursor, .pred]) (by simp) (by simp)).sequenceOk (hm.sequenceOk hs hp)
        (by simp) (by simp) (by simp)
  | _ => exact hw.sequenceOk hs (by simp) (by simp) (by simp)

theorem exec_sequenceOk (hr : i ≠ .reset) (h : exec i s = .next t) (hs : SequenceOk s) : SequenceOk t := by
  rcases exec_after hr h with ⟨-, rfl⟩ | ⟨-, ha⟩ | ⟨-, f, u, -, rfl, hb⟩
  · exact hs
  · exact after_sequenceOk hr h ha hs
  · exact broken_sequenceOk (u := u) hb hs

/-! ## The latch -/

theorem exec_latchOk (hr : i ≠ .reset) (h : exec i s = .next t) (hs : LatchOk s) : LatchOk t := by
  rcases exec_ends hr h with hw | ⟨-, f, u, hf, -, -, -, rfl⟩
  · have hv : t.valid = s.valid := by rw [hw.frame]
    have hc : t.fault = s.fault := by rw [hw.frame]
    rwa [LatchOk, hv, hc]
  · simp [LatchOk, hf]

/-! ## The stores -/

theorem exec_tableOk (hr : i ≠ .reset) (h : exec i s = .next t) (hs : ∀ k q, TableOk s k q) (k : HuffClass)
    (q : Fin 4) : TableOk t k q := by
  have kept : (∀ k q, i ≠ .htbuild k q) → TableOk t k q := fun hk =>
    (hs k q).congr (huffmanTablesKept.1 i s t hr hk h k q) (by rw [exec_frame hr h])
  cases i with
  | htbuild k' q' =>
    obtain ⟨-, ho, hsym, hc⟩ := hs k' q'
    rcases exec_after hr h with ⟨-, rfl⟩ | ⟨-, rfl, hset, hl⟩ | ⟨-, f, u, -, rfl, hu⟩
    · exact hs k q
    · exact tableOk_setHt hs (tableOk_builtTable (hs k' q') hset hl) k q
    · rw [show u = _ from hu]
      have hx : TableOk (setHt k' q' { s.ht k' q' with built := false } s) k' q' := tableOk_unbuilt rfl ho hsym hc
      exact (tableOk_setHt hs hx k q).congr (by simp) (by simp)
  | _ => exact kept (by simp)

/-- Decoding stores within the unit `BLKIDX`, which in phase DECODE lies in the grid. -/
theorem Decoded.below_scan {cs : List (Fin 3)} (h : Decoded cs s t) (hs : SequenceOk s) (hp : s.phase = .decode)
    (hg : Memory.below (s.nUnits.toNat * 192) s.grid.cells = true) :
    Memory.below (t.nUnits.toNat * 192) t.grid.cells = true := by
  have hlt := hs.blkIdx_lt hp
  have hn : t.nUnits = s.nUnits := by rw [h.frame]
  rw [hn]
  exact h.below _ (by omega) hg

theorem BitsReturned.grid (h : BitsReturned s t) : t.grid = s.grid ∧ t.nUnits = s.nUnits := by
  obtain ⟨m, r, f, ⟨q, -, -, rfl⟩, rfl⟩ := h
  exact ⟨rfl, rfl⟩

theorem Scanned.below_scan (h : Scanned s t) (hs : SequenceOk s) (hp : s.phase = .decode)
    (hg : Memory.below (s.nUnits.toNat * 192) s.grid.cells = true) :
    Memory.below (t.nUnits.toNat * 192) t.grid.cells = true := by
  rw [h.nUnits]
  exact h.below _ (hs.blkIdx_lt hp) le_rfl hg

theorem Staged.below_scan {p q : Phase} (h : Staged p q s t)
    (hg : Memory.below (s.nUnits.toNat * 192) s.grid.cells = true) :
    Memory.below (t.nUnits.toNat * 192) t.grid.cells = true := by
  have hn : t.nUnits = s.nUnits := by rw [h.frame]
  rw [hn]
  exact h.below _ le_rfl hg

/-- No command stores beyond the last unit of the scan. -/
theorem exec_below_scan (hi : i.symbolClass = none) (hr : i ≠ .reset) (h : exec i s = .next t) (hs : SequenceOk s)
    (hg : Memory.below (s.nUnits.toNat * 192) s.grid.cells = true) :
    Memory.below (t.nUnits.toNat * 192) t.grid.cells = true := by
  rcases exec_after hr h with ⟨-, rfl⟩ | ⟨-, ha⟩ | ⟨-, f, u, -, rfl, -⟩
  · exact hg
  · cases i with
    | nop => rwa [show t = s from ha]
    | scaninit => rw [show t = _ from ha.1]; rfl
    | rdbit => obtain ⟨e, e'⟩ := BitsReturned.grid ha; rwa [e, e']
    | rdbits n => obtain ⟨e, e'⟩ := ha.2.grid; rwa [e, e']
    | align => obtain ⟨q, -, -, rfl⟩ := ha; exact hg
    | htbuild k q => rw [show t = _ from ha.1, setHt_grid, setHt_nUnits]; exact hg
    | decsym k q => obtain ⟨e, e'⟩ := ha.2.grid; rwa [e, e']
    | decdc c =>
      obtain ⟨e, -, hp, diff, q, hd, -, rfl⟩ := ha
      exact (dcItem_decoded hd e).below_scan hs hp hg
    | decac c =>
      obtain ⟨e, -, hp, vs, q, hd, rfl⟩ := ha
      exact (acItems_decoded hd e).below_scan hs hp hg
    | decblk c =>
      obtain ⟨e, -, hp, hd⟩ := ha
      exact hd.decoded.below_scan hs hp hg
    | decmcu => exact ha.2.scanned.below_scan hs ha.1.2.1 hg
    | decscan => exact ha.2.below_scan hs ha.1.2.1 hg
    | dequant => exact Staged.below_scan ha hg
    | idct => exact Staged.below_scan ha hg
    | color => exact Staged.below_scan ha hg
    | reset => exact absurd rfl hr
    | dccat | dcbad | eob | zrl | zrun | accoef | acbad => cases hi
  · rfl

theorem exec_rangesOk (hi : i.symbolClass = none) (hr : i ≠ .reset) (h : exec i s = .next t) (hs : SequenceOk s)
    (hm : RangesOk s) : RangesOk t := by
  obtain ⟨h1, h2, h3, h4⟩ := (rangesOk_iff s).mp hm
  have hf := exec_frame hr h
  refine (rangesOk_iff t).mpr ⟨exec_tableOk hr h h1, ?_, ?_, exec_below_scan hi hr h hs h4⟩
  · rw [hf]; exact h2
  · rw [hf]; exact h3

/-- Every command keeps the invariant. -/
theorem exec_machineInv (hi : i.symbolClass = none) (h : exec i s = .next t) (hm : MachineInv s) : MachineInv t := by
  obtain ⟨hq, hl, hs, hr⟩ := hm
  by_cases hi' : i = .reset
  · subst hi'
    rw [exec_reset h]
    exact machineInv_resetEngine hq
  · have hp : t.pending = s.pending := by rw [exec_frame hi' h]
    exact ⟨by rwa [FromHost, hp], exec_latchOk hi' h hl, exec_sequenceOk hi' h hs, exec_rangesOk hi hi' h hs hr⟩

/-! ## Operations of the host -/

/-- Raising a fault keeps the invariant: the code and the latch agree, and the grid is empty. -/
theorem machineInv_raise {f : FaultCode} (hf : f ≠ .none) (hm : MachineInv s) : MachineInv (raise f s) := by
  obtain ⟨hq, -, hs, hr⟩ := hm
  obtain ⟨h1, h2, h3, -⟩ := (rangesOk_iff s).mp hr
  exact ⟨hq, by simp [LatchOk, hf], hs,
    (rangesOk_iff _).mpr ⟨fun k q => (h1 k q).congr (by simp) (by simp), h2, h3, rfl⟩⟩

theorem issue_machineInv {w : Word} (h : issue w s = .next t) (hm : MachineInv s) : MachineInv t := by
  rw [issue] at h
  split at h
  · next i e => exact exec_machineInv (decodeCmd_class e) h hm
  · rcases plainCommand_after (P := fun t => t = raise .illcmd s) (fun _ => rfl) h with ⟨-, rfl⟩ | ⟨-, rfl⟩
    · exact hm
    · exact machineInv_raise (by simp) hm

/-- A register write changes header registers only (10_state R32). -/
theorem regWrite_frame (s : State) (n : Nat) (v : Word) :
    regWrite s n v = { s with ncomp := (regWrite s n v).ncomp, width := (regWrite s n v).width,
                              height := (regWrite s n v).height, rsti := (regWrite s n v).rsti,
                              comps := (regWrite s n v).comps, entLen := (regWrite s n v).entLen } := by
  unfold regWrite
  split <;> rfl

theorem regWrite_machineInv (n : Nat) (v : Word) (hm : MachineInv s) : MachineInv (regWrite s n v) := by
  rw [regWrite_frame]
  exact hm

/-- A memory write changes stores only (20_memory R70). -/
theorem elemStore_frame (s : State) (e : Elem) (v : Word) :
    elemStore s e v = { s with dcTables := (elemStore s e v).dcTables, acTables := (elemStore s e v).acTables,
                               qTables := (elemStore s e v).qTables, ent := (elemStore s e v).ent,
                               grid := (elemStore s e v).grid } := by
  cases e with
  | offs k q j | sym k q j | htSet k q => cases k <;> rfl
  | _ => rfl

/-- A write within the valid range stays within the stores, and leaves a table it touches not built. -/
theorem elemStore_rangesOk {e : Elem} (v : Word) (he : Present s e) (hm : RangesOk s) :
    RangesOk (elemStore s e v) := by
  obtain ⟨h1, h2, h3, h4⟩ := (rangesOk_iff s).mp hm
  have kept : ∀ {t : State}, t.dcTables = s.dcTables → t.acTables = s.acTables → t.memEpoch = s.memEpoch →
      ∀ k q, TableOk t k q := fun hd ha he k q => (h1 k q).congr (ht_congr hd ha k q) he
  have setHt_ok : ∀ k q x, TableOk (setHt k q x s) k q → RangesOk (setHt k q x s) := fun k q x hx =>
    (rangesOk_iff _).mpr ⟨tableOk_setHt h1 hx, by simpa using h2, by simpa using h3, by simpa using h4⟩
  have setQt_ok : ∀ q x, Memory.below 64 x.q = true → RangesOk (setQt q x s) := fun q x hx => by
    refine (rangesOk_iff _).mpr ⟨kept rfl rfl rfl, fun q' => ?_, h3, h4⟩
    by_cases e : q' = q
    · subst e; simpa using hx
    · have : (q : Nat) ≠ q' := fun h => e (Fin.ext h.symm)
      simpa [Vector.getElem_set_ne, this] using h2 q'
  cases e with
  | ent j => exact (rangesOk_iff _).mpr ⟨kept rfl rfl rfl, h2, Memory.below_write _ he h3, h4⟩
  | offs k q j =>
    obtain ⟨-, ho, hs, hc⟩ := h1 k q
    exact setHt_ok k q _ (tableOk_unbuilt rfl (Memory.below_write _ he ho) hs hc)
  | sym k q j =>
    obtain ⟨-, ho, hs, hc⟩ := h1 k q
    exact setHt_ok k q _ (tableOk_unbuilt rfl ho (Memory.below_write _ he hs) hc)
  | code k q j => exact hm
  | htSet k q =>
    obtain ⟨-, ho, hs, hc⟩ := h1 k q
    exact setHt_ok k q _ (tableOk_unbuilt rfl ho hs hc)
  | htBuilt k q => exact hm
  | q q j => exact setQt_ok q _ (Memory.below_write _ he (h2 q))
  | qtSet q => exact setQt_ok q _ (h2 q)
  | grid u p j =>
    obtain ⟨hu, hp, hj⟩ := he
    have hk : gridKey u p j < s.nUnits.toNat * 192 := by rw [gridKey]; omega
    exact (rangesOk_iff _).mpr ⟨kept rfl rfl rfl, h2, h3, Memory.below_write _ hk h4⟩

theorem addressWrite_machineInv (a : Address) (v : Word) (hm : MachineInv s) : MachineInv (addressWrite s a v) := by
  obtain ⟨hq, hl, hs, hr⟩ := hm
  rcases addressWrite_cases s v a with e | ⟨e, h⟩
  · rw [e]; exact ⟨hq, hl, hs, hr⟩
  · rw [h, memWrite]
    split
    · next he =>
      have hr' := elemStore_rangesOk v ((elemInRange_iff s e).mp he) hr
      refine ⟨?_, ?_, ?_, hr'⟩
      · rw [elemStore_frame]; exact hq
      · rw [elemStore_frame]; exact hl
      · rw [elemStore_frame]; exact hs
    · exact ⟨hq, hl, hs, hr⟩

theorem hostStep_machineInv {o : HostOp} (h : hostStep o s = .next t) (hm : MachineInv s) : MachineInv t := by
  cases o with
  | regRead n => cases h; exact hm
  | regWrite n v =>
    cases n with
    | zero => exact issue_machineInv h hm
    | succ n => cases h; exact regWrite_machineInv _ _ hm
  | memRead a => cases h; exact hm
  | memWrite a v => cases h; exact addressWrite_machineInv _ _ hm

/-- Settles O60: the entry a step takes off the queue is an operation of the host or the reset signal, and each of these
keeps the four parts of the invariant. -/
theorem machineInvariant : Obligations.MachineInvariant := by
  intro s t hm h
  rw [step] at h
  split at h
  · cases h; exact hm
  · next p rest hp =>
    obtain ⟨hq, hl, hs, hr⟩ := hm
    have hq' : FromHost { s with pending := rest } := fun k b hmem => hq k b (by rw [hp]; exact .tail _ hmem)
    cases p with
    | op o => exact hostStep_machineInv h ⟨hq', hl, hs, hr⟩
    | hardReset => cases h; exact machineInv_resetEngine hq'
    | symbol k b => exact absurd (by rw [hp]; exact .head _) (hq k b)

end Sys2Proof.Machine
end

section
/-! The frames of the grid (10_state R44, 20_memory R81): which elements a command that raises no fault may change. -/

namespace Sys2Proof.Machine

variable {s t : State} {i : Instr}

/-- A command that ends with `VALID = 1` has completed. -/
theorem after_of_valid (hr : i ≠ .reset) (h : exec i s = .next t) (hv : t.valid = true) : After s t i := by
  rcases exec_after hr h with ⟨h0, rfl⟩ | ⟨-, ha⟩ | ⟨-, f, u, -, rfl, -⟩
  · rw [hv] at h0; cases h0
  · exact ha
  · cases hv

/-- The commands that store nothing in the grid. -/
theorem after_grid (ha : After s t i) (hi : i ∈ [Instr.nop, .rdbit, .align] ∨ (∃ n, i = .rdbits n) ∨
    ∃ k q, i = .htbuild k q ∨ i = .decsym k q) : t.grid = s.grid := by
  rcases hi with hi | ⟨n, rfl⟩ | ⟨k, q, rfl | rfl⟩
  · simp only [List.mem_cons, List.not_mem_nil, or_false] at hi
    rcases hi with rfl | rfl | rfl
    · rw [show t = s from ha]
    · exact (BitsReturned.grid ha).1
    · obtain ⟨q, -, -, rfl⟩ := ha; rfl
  · exact ha.2.grid.1
  · rw [show t = _ from ha.1, setHt_grid]
  · exact ha.2.grid.1

theorem zz_zero : zz 0 = 0 := rfl

/-- DECDC stores at place 0 only (41_huffman_engine R156). -/
theorem decdc_grid {c : Fin 3} (ha : After s t (.decdc (compArg c))) {u p x : Nat} (hp : p < 3) (hx : x < 64)
    (hn : ¬ (u = s.blkIdx.toNat ∧ p = c.val ∧ x = 0)) : t.grid.word u p x = s.grid.word u p x := by
  obtain ⟨e, hc, -, diff, q, -, -, rfl⟩ := ha
  rw [compIndex_compArg] at hc
  cases hc
  rw [atPos_grid, putCoef_grid, zz_zero]
  exact Grid.word_put_other _ _ fun hk => hn ((gridKey_inj hp c.isLt hx (by simp)).mp hk)

/-- DECAC stores at the 63 other places only (41_huffman_engine R158). -/
theorem decac_grid {c : Fin 3} (ha : After s t (.decac (compArg c))) {u p x : Nat} (hp : p < 3) (hx : x < 64)
    (hn : ¬ (u = s.blkIdx.toNat ∧ p = c.val ∧ x ≠ 0)) : t.grid.word u p x = s.grid.word u p x := by
  obtain ⟨e, hc, -, vs, q, hi, rfl⟩ := ha
  rw [compIndex_compArg] at hc
  cases hc
  have hl := (hi.bounds (by simp)).1
  rw [atPos_grid]
  refine (word_storeCoefs s c hl.le).2 u p x hp hx ?_
  rintro ⟨n, hlt, hu, he, rfl⟩
  refine hn ⟨hu, he, fun h0 => ?_⟩
  have := zz_inj (m := 1 + n) (m' := 0) (by omega) (by simp) h0
  omega

theorem decblk_grid {c : Fin 3} (ha : After s t (.decblk (compArg c))) {u p x : Nat} (hp : p < 3) (hx : x < 64)
    (hn : ¬ (u = s.blkIdx.toNat ∧ p = c.val)) : t.grid.word u p x = s.grid.word u p x := by
  obtain ⟨e, hc, -, hd⟩ := ha
  rw [compIndex_compArg] at hc
  cases hc
  exact hd.decoded.grid u p x hp hx (by simpa using hn)

theorem component_lt (hr : UnitReady s) {p : Nat} (h : ∃ e ∈ components s, p = e.val) : p < s.ncomp.toNat := by
  obtain ⟨e, he, rfl⟩ := h
  exact (mem_components hr.2.2.1 e).mp he

theorem decmcu_grid (ha : After s t .decmcu) {u p x : Nat} (hp : p < 3) (hx : x < 64)
    (hn : ¬ (u = s.blkIdx.toNat ∧ p < s.ncomp.toNat)) : t.grid.word u p x = s.grid.word u p x := by
  obtain ⟨hr, hd⟩ := ha
  obtain ⟨m, -, rfl, hg⟩ := hd.decoded
  rw [nextUnit_frame]
  exact hg u p x hp hx fun ⟨hu, hc⟩ => hn ⟨hu, component_lt hr hc⟩

theorem decscan_grid (ha : After s t .decscan) (hb : s.blkIdx.toNat < s.nUnits.toNat) {u p x : Nat} (hp : p < 3)
    (hx : x < 64) (hn : ¬ (s.blkIdx.toNat ≤ u ∧ u < s.nUnits.toNat ∧ p < s.ncomp.toNat)) :
    t.grid.word u p x = s.grid.word u p x :=
  ha.2.grid hb u p x hp hx fun ⟨h1, h2, hc⟩ => hn ⟨h1, h2, component_lt ha.1 hc⟩

/-- Settles O53, command by command. -/
theorem gridKept : Obligations.GridKept := by
  intro i s t h hv _ hr u p x hp hx
  have ha := after_of_valid hr h hv
  refine ⟨after_grid ha, ?_, ?_, ?_, ?_, ?_⟩
  · rintro c rfl; exact decdc_grid ha hp hx
  · rintro c rfl; exact decac_grid ha hp hx
  · rintro c rfl; exact decblk_grid ha hp hx
  · rintro rfl; exact decmcu_grid ha hp hx
  · rintro rfl hb; exact decscan_grid ha hb hp hx

end Sys2Proof.Machine
end

section
/-! The sampling factors are never read (10_state R37): every procedure commutes with a change of them. -/

namespace Sys2Proof.Machine

variable {α β : Type}

/-! ## What reads the same -/

section
variable (hs vs : Vector (BitVec 4) 3) (s : State)

@[simp] theorem dcTableOf_setSampling (c : Fin 3) : dcTableOf (setSampling hs vs s) c = dcTableOf s c := by
  simp [dcTableOf, setSampling]

@[simp] theorem acTableOf_setSampling (c : Fin 3) : acTableOf (setSampling hs vs s) c = acTableOf s c := by
  simp [acTableOf, setSampling]

@[simp] theorem qTableOf_setSampling (c : Fin 3) : qTableOf (setSampling hs vs s) c = qTableOf s c := by
  simp [qTableOf, setSampling]

@[simp] theorem components_setSampling : components (setSampling hs vs s) = components s := rfl

@[simp] theorem tableReady_setSampling (k : HuffClass) (q : Fin 4) :
    tableReady (setSampling hs vs s) k q = tableReady s k q := by cases k <;> rfl

theorem dcReady_setSampling (c : Fin 3) : dcReady c (setSampling hs vs s) = dcReady c s := by simp [dcReady]

theorem acReady_setSampling (c : Fin 3) : acReady c (setSampling hs vs s) = acReady c s := by simp [acReady]

theorem allReady_setSampling : allReady (setSampling hs vs s) = allReady s := by
  simp [allReady, dcReady_setSampling, acReady_setSampling]

theorem allQuantSet_setSampling : allQuantSet (setSampling hs vs s) = allQuantSet s := by
  simp only [allQuantSet, qTableOf_setSampling]
  rfl

theorem matchAt_setSampling (k : HuffClass) (q : Fin 4) (l acc : Nat) :
    matchAt (setSampling hs vs s) k q l acc = matchAt s k q l acc := by
  have hf : ∀ n j, findCode (setSampling hs vs s) k q acc n j = findCode s k q acc n j := by
    intro n
    induction n with
    | zero => intro j; rfl
    | succ n ih => intro j; simp only [findCode, ih]; cases k <;> rfl
  rw [matchAt, hf]
  cases k <;> rfl

theorem dequantBlock_setSampling : dequantBlock (setSampling hs vs s) = dequantBlock s := by
  funext u c g
  have he : dequantElem (setSampling hs vs s) u c = dequantElem s u c := by
    funext i g
    simp only [dequantElem, qTableOf_setSampling]
    rfl
  simp only [dequantBlock, he]

theorem readBit_setSampling :
    readBit (setSampling hs vs s) = ((readBit s).1, setSampling hs vs (readBit s).2) := by
  simp only [readBit_eq]
  change (if cursorPos s < streamEnd s then
    (some (streamBit s (cursorPos s)), setSampling hs vs (atPos (cursorPos s + 1) s))
    else (none, setSampling hs vs s)) = _
  split <;> rfl

theorem readBitsFrom_setSampling (n v : Nat) : readBitsFrom n v (setSampling hs vs s) =
    ((readBitsFrom n v s).1, setSampling hs vs (readBitsFrom n v s).2) := by
  induction n generalizing v s with
  | zero => rfl
  | succ n ih =>
    rw [readBitsFrom, readBitsFrom, readBit_setSampling]
    rcases readBit s with ⟨_ | b, m⟩
    · rfl
    · exact ih m (2 * v + b)

theorem align_setSampling : align (setSampling hs vs s) = setSampling hs vs (align s) := by
  unfold align
  change (if endIdx s ≤ s.byteIdx.toNat then setSampling hs vs s else if s.bitIdx = 0#3 then setSampling hs vs s
    else setSampling hs vs (setCursor (s.byteIdx + 1) 0 s)) = _
  split
  · rfl
  · split <;> rfl

theorem restartCheck_setSampling : restartCheck (setSampling hs vs s) = setSampling hs vs (restartCheck s) := by
  unfold restartCheck
  change (if restartDue s then align (setSampling hs vs (clearPred s)) else setSampling hs vs s) = _
  split
  · exact align_setSampling hs vs _
  · rfl

theorem nextUnit_setSampling : nextUnit (setSampling hs vs s) = setSampling hs vs (nextUnit s) := by
  rw [nextUnit_eq, nextUnit_eq]; rfl

theorem zeroFill_setSampling (c : Fin 3) (m n : Nat) :
    zeroFill c m n (setSampling hs vs s) = setSampling hs vs (zeroFill c m n s) := by
  induction n generalizing m s with
  | zero => rfl
  | succ n ih => exact ih (putCoef c m 0 s) (m + 1)

theorem returnBits_setSampling (r : Option Nat × State) :
    returnBits (r.1, setSampling hs vs r.2) = setSampling hs vs (returnBits r) := by
  rcases r with ⟨_ | v, m⟩ <;> rfl

theorem builtTable_setSampling (k : HuffClass) (q : Fin 4) :
    setHt k q (builtTable (setSampling hs vs s) k q) (setSampling hs vs s) =
      setSampling hs vs (setHt k q (builtTable s k q) s) := by
  cases k <;> rfl

theorem setBuilt_setSampling (k : HuffClass) (q : Fin 4) (b : Bool) :
    setBuilt k q b (setSampling hs vs s) = setSampling hs vs (setBuilt k q b s) := by
  cases k <;> rfl

end

/-! ## Procedures -/

/-- A change of the state a procedure ends in. -/
def Ran.mapState (f : State → State) : Ran α → Ran α
  | .done a s => .done a (f s)
  | .raised s => .raised (f s)

theorem Ran.state_mapState (f : State → State) (r : Ran α) : (r.mapState f).state = f r.state := by
  cases r <;> rfl

/-- A procedure that does the same whatever the sampling factors are. -/
def Unsampled (f : State → Ran α) : Prop :=
  ∀ hs vs s, f (setSampling hs vs s) = (f s).mapState (setSampling hs vs)

theorem Unsampled.andThen {f : State → Ran α} {g : α → State → Ran β} (hf : Unsampled f) (hg : ∀ a, Unsampled (g a)) :
    Unsampled fun s => (f s).andThen g := by
  intro hs vs s
  simp only [hf hs vs s]
  cases f s with
  | done a m => exact hg a hs vs m
  | raised m => rfl

theorem Unsampled.require {cond : State → Bool} {f : FaultCode} {go : State → Ran α}
    (hc : ∀ hs vs s, cond (setSampling hs vs s) = cond s) (hg : Unsampled go) :
    Unsampled fun s => require (cond s) f s go := by
  intro hs vs s
  simp only [hc hs vs s]
  cases h : cond s
  · rw [require_neg rfl, require_neg rfl]; rfl
  · rw [require_pos rfl, require_pos rfl]; exact hg hs vs s

theorem unsampled_done (a : α) : Unsampled fun s => .done a s := fun _ _ _ => rfl

theorem unsampled_raise (f : FaultCode) : Unsampled fun s => (.raised (raise f s) : Ran α) := fun _ _ _ => rfl

theorem Unsampled.forComps {f : Fin 3 → State → Ran Unit} (hf : ∀ c, Unsampled (f c)) (cs : List (Fin 3)) :
    Unsampled (forComps f cs) := by
  induction cs with
  | nil => exact unsampled_done ()
  | cons c cs ih => exact (hf c).andThen fun _ => ih

/-! ## Commands -/

theorem command_setSampling {body : State → Ran α} (hb : Unsampled body) (hs vs : Vector (BitVec 4) 3) (s : State) :
    command body (setSampling hs vs s) = mapNext (setSampling hs vs) (command body s) := by
  cases hv : s.valid
  · rw [command_invalid hv, command_invalid (s := setSampling hs vs s) hv]; rfl
  · rw [command_valid hv, command_valid (s := setSampling hs vs s) hv, hb hs vs s, Ran.state_mapState]; rfl

theorem plainCommand_setSampling {f : State → State} {hs vs : Vector (BitVec 4) 3} {s : State}
    (hf : f (setSampling hs vs s) = setSampling hs vs (f s)) :
    plainCommand f (setSampling hs vs s) = mapNext (setSampling hs vs) (plainCommand f s) := by
  cases hv : s.valid
  · rw [plainCommand_invalid hv, plainCommand_invalid (s := setSampling hs vs s) hv]; rfl
  · rw [plainCommand_valid hv, plainCommand_valid (s := setSampling hs vs s) hv, hf]; rfl

theorem compCommand_setSampling {body : Fin 3 → State → Ran α} (hb : ∀ c, Unsampled (body c)) (c : BitVec 2)
    (hs vs : Vector (BitVec 4) 3) (s : State) :
    compCommand c body (setSampling hs vs s) = mapNext (setSampling hs vs) (compCommand c body s) := by
  unfold compCommand
  cases compIndex c with
  | none => exact plainCommand_setSampling rfl
  | some e => exact command_setSampling (hb e) hs vs s

/-! ## The stream and the symbols -/

theorem unsampled_valueField (n : Nat) : Unsampled (valueField n) := by
  intro hs vs s
  rw [valueField, valueField, readBits, readBitsFrom_setSampling, ← readBits]
  rcases readBits n s with ⟨_ | v, m⟩ <;> rfl

theorem unsampled_decodeSymbol (k : HuffClass) (q : Fin 4) : Unsampled (decodeSymbol k q) := by
  have hf : ∀ n l acc, Unsampled (decodeSymbolFrom k q n l acc) := by
    intro n
    induction n with
    | zero => intro l acc; exact unsampled_raise .nocode
    | succ n ih =>
      intro l acc hs vs s
      rw [decodeSymbolFrom, decodeSymbolFrom, readBit_setSampling]
      rcases readBit s with ⟨_ | b, m⟩
      · rfl
      · simp only [matchAt_setSampling]
        cases matchAt m k q l (2 * acc + b) with
        | none => exact ih (l + 1) (2 * acc + b) hs vs m
        | some j => cases k <;> rfl
  exact hf 16 1 0

theorem unsampled_addPred (c : Fin 3) (diff : Int) : Unsampled (addPred c diff) :=
  Unsampled.require (cond := fun s => fits (predAt s c + diff)) (fun _ _ _ => rfl) fun _ _ _ => rfl

theorem unsampled_symDccat (cat : Byte) (c : Fin 3) : Unsampled (symDccat cat c) :=
  (unsampled_valueField cat.toNat).andThen fun v => unsampled_addPred c (extend v cat.toNat)

theorem unsampled_symEob (c : Fin 3) (k : Nat) : Unsampled (symEob c k) := fun hs vs s => by
  rw [symEob, zeroFill_setSampling]; rfl

theorem unsampled_zeroRun (run : Nat) (c : Fin 3) (k : Nat) : Unsampled (zeroRun run c k) :=
  Unsampled.require (cond := fun _ => decide (k + run < 64)) (fun _ _ _ => rfl) fun hs vs s => by
    rw [zeroFill_setSampling]; rfl

theorem unsampled_symAccoef (run size : BitVec 4) (c : Fin 3) (k : Nat) : Unsampled (symAccoef run size c k) :=
  (unsampled_zeroRun run.toNat c k).andThen fun _ =>
    (unsampled_valueField size.toNat).andThen fun _ _ _ _ => rfl

theorem unsampled_runDcSym (i : DcSym) (c : Fin 3) : Unsampled (runDcSym i c) := by
  cases i with
  | dccat cat => exact unsampled_symDccat cat c
  | dcbad b => exact unsampled_raise .dccat

theorem unsampled_runAcSym (i : AcSym) (c : Fin 3) (k : Nat) : Unsampled (runAcSym i c k) := by
  cases i with
  | eob => exact unsampled_symEob c k
  | zrl => exact unsampled_zeroRun 16 c k
  | zrun run => exact unsampled_zeroRun run.toNat c k
  | accoef run size => exact unsampled_symAccoef run size c k
  | acbad run size => exact unsampled_raise .acsize

theorem Unsampled.storeK {f : State → Ran Nat} (hf : Unsampled f) : Unsampled fun s => storeK (f s) :=
  hf.andThen fun _ _ _ _ => rfl

/-! ## Blocks, units, stages -/

theorem unsampled_decodeDC (c : Fin 3) : Unsampled (decodeDC c) := fun hs vs s => by
  rw [decodeDC, dcTableOf_setSampling]
  exact (unsampled_decodeSymbol .dc (dcTableOf s c)).andThen (fun b => unsampled_runDcSym (decodeDc b) c) hs vs s

theorem unsampled_decodeAC (c : Fin 3) : Unsampled (decodeAC c) := by
  have hf : ∀ n k, Unsampled (decodeACFrom c n k) := by
    intro n
    induction n with
    | zero => intro k; exact unsampled_done ()
    | succ n ih =>
      intro k hs vs s
      rw [decodeACFrom, decodeACFrom, acTableOf_setSampling]
      by_cases hk : k < 64
      · rw [if_pos hk, if_pos hk]
        exact (unsampled_decodeSymbol .ac (acTableOf s c)).andThen
          (fun b => (unsampled_runAcSym (decodeAc b) c k).andThen ih) hs vs s
      · rw [if_neg hk, if_neg hk]; rfl
  exact hf 63 1

theorem unsampled_decodeBlock (c : Fin 3) : Unsampled (decodeBlock c) :=
  (unsampled_decodeDC c).andThen fun _ => unsampled_decodeAC c

theorem unsampled_blockChecks (c : Fin 3) {tables : State → Bool} {go : State → Ran Unit}
    (ht : ∀ hs vs s, tables (setSampling hs vs s) = tables s) (hg : Unsampled go) :
    Unsampled fun s => blockChecks c tables s go :=
  Unsampled.require (cond := fun s => decide (s.phase = .decode)) (fun _ _ _ => rfl) <|
    Unsampled.require (cond := fun s => ncompOk s && decide (c.val < s.ncomp.toNat)) (fun _ _ _ => rfl) <|
      Unsampled.require ht hg

theorem unsampled_decdc (c : Fin 3) : Unsampled (decdcBody c) :=
  unsampled_blockChecks c (fun hs vs s => dcReady_setSampling hs vs s c) (unsampled_decodeDC c)

theorem unsampled_decac (c : Fin 3) : Unsampled (decacBody c) :=
  unsampled_blockChecks c (fun hs vs s => acReady_setSampling hs vs s c) (unsampled_decodeAC c)

theorem unsampled_decblk (c : Fin 3) : Unsampled (decblkBody c) :=
  unsampled_blockChecks c (fun hs vs s => by rw [dcReady_setSampling, acReady_setSampling]) (unsampled_decodeBlock c)

theorem unsampled_decodeUnit : Unsampled decodeUnit := fun hs vs s => by
  rw [decodeUnit, components_setSampling, restartCheck_setSampling]
  exact (Unsampled.forComps unsampled_decodeBlock (components s)).andThen
    (g := fun _ s' => .done () (nextUnit s'))
    (fun _ hs vs m => congrArg (Ran.done ()) (nextUnit_setSampling hs vs m)) hs vs (restartCheck s)

theorem unsampled_decmcu : Unsampled decmcuBody :=
  Unsampled.require (cond := fun s => decide (s.phase = .decode)) (fun _ _ _ => rfl) <|
    Unsampled.require (fun _ _ _ => rfl) <| Unsampled.require allReady_setSampling unsampled_decodeUnit

theorem unsampled_scanFrom (n : Nat) : Unsampled (scanFrom n) := by
  induction n with
  | zero => exact unsampled_done ()
  | succ n ih =>
    intro hs vs s
    by_cases hp : s.phase = .decode
    · rw [scanFrom, scanFrom, if_pos hp, if_pos (show (setSampling hs vs s).phase = .decode from hp)]
      exact unsampled_decmcu.andThen (fun _ => ih) hs vs s
    · rw [scanFrom, scanFrom, if_neg hp, if_neg (show ¬ (setSampling hs vs s).phase = .decode from hp)]
      rfl

theorem unsampled_decscan : Unsampled decscanBody :=
  Unsampled.require (cond := fun s => decide (s.phase = .decode)) (fun _ _ _ => rfl)
    fun hs vs s => unsampled_scanFrom (unitsLeft s) hs vs s

theorem unsampled_stageChecks (p : Phase) {go : State → Ran Unit} (hg : Unsampled go) :
    Unsampled fun s => stageChecks p s go :=
  Unsampled.require (cond := fun s => decide (s.phase = p)) (fun _ _ _ => rfl) <|
    Unsampled.require (fun _ _ _ => rfl) hg

theorem unsampled_finishStage (p : Phase) {r : State → Option Grid}
    (hr : ∀ hs vs s, r (setSampling hs vs s) = r s) : Unsampled fun s => finishStage p (r s) s := by
  intro hs vs s
  simp only [hr]
  cases r s <;> rfl

theorem unsampled_dequant : Unsampled dequantBody :=
  unsampled_stageChecks .coef <| Unsampled.require allQuantSet_setSampling <|
    unsampled_finishStage .deq (r := fun s => overUnits s (dequantBlock s)) fun hs vs s => by
      rw [dequantBlock_setSampling]; rfl

theorem unsampled_idct : Unsampled idctBody :=
  unsampled_stageChecks .deq <| unsampled_finishStage .spatial (r := fun s => overUnits s (idctBlock s.cfg.idct))
    fun _ _ _ => rfl

theorem unsampled_color : Unsampled colorBody :=
  unsampled_stageChecks .spatial <| unsampled_finishStage .rgb (r := fun s => some (colorGrid s)) fun _ _ _ => rfl

theorem unsampled_scaninit : Unsampled scaninitBody :=
  Unsampled.require (cond := ncompOk) (fun _ _ _ => rfl) <|
    Unsampled.require (cond := fun s => decide (s.width ≠ 0#16 ∧ s.height ≠ 0#16)) (fun _ _ _ => rfl) <|
      Unsampled.require (cond := fun s => decide (s.entLen.toNat ≤ s.cfg.entCap.toNat)) (fun _ _ _ => rfl) <|
        Unsampled.require (cond := fun s => decide (unitCount s ≤ s.cfg.gridCap)) (fun _ _ _ => rfl) fun _ _ _ => rfl

theorem unsampled_htbuild (k : HuffClass) (q : Fin 4) : Unsampled (htbuildBody k q) := fun hs vs s => by
  have hw : tableWellFormed (setSampling hs vs s) k q = tableWellFormed s k q := by cases k <;> rfl
  cases h : tableWellFormed s k q
  · rw [htbuild_raised s k q h, htbuild_raised _ k q (hw.trans h), setBuilt_setSampling]; rfl
  · rw [htbuild_done s k q h, htbuild_done _ k q (hw.trans h), builtTable_setSampling]; rfl

theorem unsampled_decsym (k : HuffClass) (q : Fin 4) : Unsampled (decsymBody k q) :=
  Unsampled.require (fun hs vs s => tableReady_setSampling hs vs s k q) fun hs vs s => by
    rw [unsampled_decodeSymbol k q hs vs s]
    cases decodeSymbol k q s <;> rfl

/-- Settles O54: the procedure of every command commutes with a change of the sampling factors. -/
theorem samplingUnread : Obligations.SamplingUnread := by
  intro i s hs vs hi
  cases i with
  | nop => exact plainCommand_setSampling rfl
  | scaninit => exact command_setSampling unsampled_scaninit hs vs s
  | rdbit =>
    refine plainCommand_setSampling (f := fun s => returnBits (readBit s)) ?_
    rw [readBit_setSampling, returnBits_setSampling]
  | rdbits n =>
    simp only [exec, execRdbits]
    split
    · refine plainCommand_setSampling (f := fun s => returnBits (readBits n.toNat s)) ?_
      rw [readBits, readBitsFrom_setSampling, returnBits_setSampling, readBits]
    · exact plainCommand_setSampling rfl
  | align => exact plainCommand_setSampling (align_setSampling hs vs s)
  | htbuild k q => exact command_setSampling (unsampled_htbuild k q) hs vs s
  | decsym k q => exact command_setSampling (unsampled_decsym k q) hs vs s
  | decdc c => exact compCommand_setSampling unsampled_decdc c hs vs s
  | decac c => exact compCommand_setSampling unsampled_decac c hs vs s
  | decblk c => exact compCommand_setSampling unsampled_decblk c hs vs s
  | decmcu => exact command_setSampling unsampled_decmcu hs vs s
  | decscan => exact command_setSampling unsampled_decscan hs vs s
  | dequant => exact command_setSampling unsampled_dequant hs vs s
  | idct => exact command_setSampling unsampled_idct hs vs s
  | color => exact command_setSampling unsampled_color hs vs s
  | reset => exact absurd rfl hi
  | dccat cat => exact command_setSampling (unsampled_symDccat cat s.sym.comp) hs vs s
  | dcbad b => exact command_setSampling (unsampled_raise (α := Unit) .dccat) hs vs s
  | eob => exact command_setSampling (unsampled_symEob s.sym.comp s.sym.k).storeK hs vs s
  | zrl => exact command_setSampling (unsampled_zeroRun 16 s.sym.comp s.sym.k).storeK hs vs s
  | zrun run => exact command_setSampling (unsampled_zeroRun run.toNat s.sym.comp s.sym.k).storeK hs vs s
  | accoef run size => exact command_setSampling (unsampled_symAccoef run size s.sym.comp s.sym.k).storeK hs vs s
  | acbad run size =>
    exact command_setSampling (unsampled_raise (α := Nat) .acsize).storeK hs vs s

end Sys2Proof.Machine
end

section
/-! The host's registers and elements (10_state R29, R32, 20_memory R70, R72, 46_control R243): what a read returns and
what a written register reads back as. -/

namespace Sys2Proof.Machine

/-! ## Words of several fields -/

/-- A field placed above the bits of another adds to it. -/
theorem toNat_or_shiftLeft {x y : Word} {n : Nat} (hx : x.toNat < 2 ^ n) (hy : y.toNat * 2 ^ n < 2 ^ 32) :
    (x ||| y <<< n).toNat = x.toNat + y.toNat * 2 ^ n := by
  rw [BitVec.toNat_or, BitVec.toNat_shiftLeft, Nat.shiftLeft_eq, Nat.mod_eq_of_lt hy, Nat.or_comm, Nat.mul_comm,
    ← Nat.two_pow_add_eq_or_of_lt hx, Nat.add_comm]

/-- The layout of `COMPc` (10_state R32). -/
theorem toNat_compWord (c : CompReg) :
    c.word.toNat = c.qt.toNat + 4 * c.dct.toNat + 16 * c.act.toNat + 256 * c.hs.toNat + 4096 * c.vs.toNat := by
  have h1 := c.qt.isLt
  have h2 := c.dct.isLt
  have h3 := c.act.isLt
  have h4 := c.hs.isLt
  have h5 := c.vs.isLt
  have small : ∀ {w : Nat} (b : BitVec w), b.toNat < 16 → (b.setWidth 32).toNat = b.toNat := fun b hb => by
    rw [BitVec.toNat_setWidth, Nat.mod_eq_of_lt (by omega)]
  have e1 := small c.qt (by omega)
  have e2 := small c.dct (by omega)
  have e3 := small c.act (by omega)
  have e4 := small c.hs (by omega)
  have e5 := small c.vs (by omega)
  have f2 := toNat_or_shiftLeft (x := c.qt.setWidth 32) (y := c.dct.setWidth 32) (n := 2) (by omega) (by omega)
  have f3 := toNat_or_shiftLeft (x := c.qt.setWidth 32 ||| c.dct.setWidth 32 <<< 2) (y := c.act.setWidth 32) (n := 4)
    (by omega) (by omega)
  have f4 := toNat_or_shiftLeft (x := c.qt.setWidth 32 ||| c.dct.setWidth 32 <<< 2 ||| c.act.setWidth 32 <<< 4)
    (y := c.hs.setWidth 32) (n := 8) (by omega) (by omega)
  rw [CompReg.word, toNat_or_shiftLeft (by omega) (by omega)]
  omega

/-! ## Reads -/

variable (s : State)

theorem toNat_statusWord : (statusWord s).toNat = s.valid.toNat + 2 * s.phase.code.toNat + 16 * s.rfail.toNat := by
  unfold statusWord
  cases s.valid <;> cases s.rfail <;> cases s.phase <;> rfl

theorem toNat_bitWord (b : Bool) : (bitWord b).toNat = b.toNat := by cases b <;> rfl

theorem toNat_extended {w : Nat} (b : BitVec w) (hw : w ≤ 32) : (b.setWidth 32 : Word).toNat = b.toNat :=
  BitVec.toNat_setWidth_of_le hw

theorem regRead_comp (c : Fin 3) : regRead s (8 + c) = s.comps[c].word := by
  fin_cases c <;> rfl

theorem regRead_pred (c : Fin 3) : regRead s (16 + c) = s.pred[c] := by
  fin_cases c <;> rfl

/-- Register numbers above 18 name no register (10_state R32). -/
theorem regRead_of_gt {n : Nat} (hn : 19 ≤ n) : regRead s n = 0 := by
  obtain ⟨m, rfl⟩ := Nat.exists_eq_add_of_le' hn
  rfl

/-- Settles O55, register by register and element by element. -/
theorem readsHaveNoEffect : Obligations.ReadsHaveNoEffect := by
  intro s rest
  refine ⟨fun n hp => ?_, fun a hp => ?_, rfl, fun n hn => regRead_of_gt s hn, fun n p hm hp => ?_,
    fun n f hm hf => ?_,
    rfl, toNat_extended _ (by simp), toNat_extended _ (by simp), toNat_extended _ (by simp),
    toNat_extended _ (by simp), fun c => ?_, rfl, rfl, toNat_extended _ (by simp), rfl, rfl, fun c => by rw [regRead_pred]; rfl,
    addressRead_address s, fun a ha => addressRead_none s ha, fun e => ⟨fun he => ?_, fun he => ?_⟩⟩
  · simp only [step, hp]; rfl
  · simp only [step, hp]; rfl
  · have codes : ∀ x ∈ [(0, Phase.idle), (1, .decode), (2, .coef), (3, .deq), (4, .spatial), (5, .rgb)],
        x.2.code.toNat = x.1 := by decide
    rw [show regRead s 1 = statusWord s from rfl, toNat_statusWord, hp, codes _ hm]
  · have codes : ∀ x ∈ [(0, FaultCode.none), (1, .underrun), (2, .nocode), (3, .dccat), (4, .acsize), (5, .acrun),
        (6, .table), (7, .config), (8, .sequence), (9, .illcmd), (10, .range), (11, .resource)],
        x.2.code.toNat = x.1 := by decide
    rw [show regRead s 2 = s.fault.code from rfl, hf, codes _ hm]
  · rw [regRead_comp, toNat_compWord]; rfl
  · rw [memRead, if_neg (mt (elemInRange_iff s e).mp he)]
  · rw [memRead, if_pos ((elemInRange_iff s e).mpr he)]
    cases e with
    | ent | offs | sym | q => exact toNat_extended _ (by simp)
    | code | grid => rfl
    | htSet | htBuilt | qtSet => exact toNat_bitWord _

/-! ## Writes -/

/-- A field of `n` bits at bit 0, cut from a word and read back, is the word under a mask. -/
theorem setWidth_setWidth_eq_and {n : Nat} (hn : n ≤ 32) (v : Word) :
    (v.setWidth n).setWidth 32 = v &&& BitVec.ofNat 32 (2 ^ n - 1) := by
  have hp : 2 ^ n ≤ 2 ^ 32 := Nat.pow_le_pow_right (by simp) hn
  have h0 := Nat.two_pow_pos n
  apply BitVec.eq_of_toNat_eq
  rw [toNat_extended _ hn, BitVec.toNat_setWidth, BitVec.toNat_and, BitVec.toNat_ofNat,
    Nat.mod_eq_of_lt (by omega : 2 ^ n - 1 < 2 ^ 32), Nat.and_two_pow_sub_one_eq_mod]

/-- The bits of a written `COMPc` that exist, bit by bit (10_state R32). -/
theorem word_ofWord (v : Word) : (CompReg.ofWord v).word = v &&& 0xFF3F#32 := by
  ext i hi
  simp only [CompReg.word, CompReg.ofWord, BitVec.getElem_or, BitVec.getElem_setWidth, BitVec.getLsbD_setWidth,
    BitVec.getElem_shiftLeft, BitVec.getLsbD_ushiftRight, BitVec.getElem_and]
  interval_cases i <;> simp

variable (n : Nat) (v : Word)

/-- A read-only or absent register ignores a write (10_state R32). -/
theorem regWrite_of_readOnly {n : Nat} (hn : n < 4 ∨ 12 ≤ n) : regWrite s n v = s := by
  unfold regWrite
  split
  case h_9 => rfl
  all_goals omega

theorem regWrite_ncomp : (regWrite s n v).ncomp = if n = 4 then v.setWidth 2 else s.ncomp := by
  unfold regWrite
  split <;> simp_all

theorem regWrite_width : (regWrite s n v).width = if n = 5 then v.setWidth 16 else s.width := by
  unfold regWrite
  split <;> simp_all

theorem regWrite_height : (regWrite s n v).height = if n = 6 then v.setWidth 16 else s.height := by
  unfold regWrite
  split <;> simp_all

theorem regWrite_rsti : (regWrite s n v).rsti = if n = 7 then v.setWidth 16 else s.rsti := by
  unfold regWrite
  split <;> simp_all

theorem regWrite_comps (c : Fin 3) :
    (regWrite s n v).comps[c] = if n = 8 + c.val then CompReg.ofWord v else s.comps[c] := by
  by_cases h : n = 8 + c.val
  · subst h
    rw [if_pos rfl]
    fin_cases c <;> simp [regWrite]
  · rw [if_neg h]
    unfold regWrite
    split
    case h_5 | h_6 | h_7 => fin_cases c <;> simp_all
    all_goals rfl

theorem regWrite_entLen : (regWrite s n v).entLen = if n = 11 then v else s.entLen := by
  unfold regWrite
  split <;> simp_all

theorem regRead_regWrite_comp (c : Fin 3) : regRead (regWrite s (8 + c) v) (8 + c) = v &&& 0xFF3F#32 := by
  rw [regRead_comp, regWrite_comps, if_pos rfl, word_ofWord]

/-- A written register reads back as its fields (10_state R32). -/
theorem regRead_regWrite_same : regRead (regWrite s n v) n =
    if n = 4 then v &&& 0x3#32 else if 5 ≤ n ∧ n ≤ 7 then v &&& 0xFFFF#32
    else if 8 ≤ n ∧ n ≤ 10 then v &&& 0xFF3F#32 else if n = 11 then v else regRead s n := by
  have low16 : (v.setWidth 16).setWidth 32 = v &&& 0xFFFF#32 := setWidth_setWidth_eq_and (n := 16) (by simp) v
  by_cases hn : n < 4 ∨ 12 ≤ n
  · rw [regWrite_of_readOnly s v hn, if_neg (by omega), if_neg (by omega), if_neg (by omega), if_neg (by omega)]
  · have h4 : 4 ≤ n := by omega
    have h11 : n ≤ 11 := by omega
    interval_cases n
    · exact setWidth_setWidth_eq_and (n := 2) (by simp) v
    · exact low16
    · exact low16
    · exact low16
    · exact regRead_regWrite_comp s v 0
    · exact regRead_regWrite_comp s v 1
    · exact regRead_regWrite_comp s v 2
    · rfl

/-- A write of one register leaves every other one: each field of the header belongs to one register number. -/
theorem regRead_regWrite_other {m : Nat} (hm : m ≠ n) : regRead (regWrite s n v) m = regRead s m := by
  have h0 := regWrite_comps s n v 0
  have h1 := regWrite_comps s n v 1
  have h2 := regWrite_comps s n v 2
  have hn := hm.symm
  rw [regWrite_frame]
  unfold regRead
  split <;> simp_all [statusWord, regWrite_ncomp, regWrite_width, regWrite_height, regWrite_rsti, regWrite_entLen]

/-- Settles O56: each writable register has one field lemma, and no other field of the state changes. -/
theorem registerWrites : Obligations.RegisterWrites := by
  intro s v n _
  refine ⟨regRead_regWrite_same s n v, fun m hm => regRead_regWrite_other s n v hm,
    fun hn => regWrite_of_readOnly s v hn, by rw [regWrite_frame], by rw [regWrite_frame], fun k q => ?_,
    by rw [regWrite_frame], ?_⟩
  · exact ht_congr (by rw [regWrite_frame]) (by rw [regWrite_frame]) k q
  · rintro c rfl
    have hc : (regWrite s (8 + c) v).comps[c] = CompReg.ofWord v := by rw [regWrite_comps, if_pos rfl]
    simp only [qTableOf, dcTableOf, acTableOf, hc]
    simp [tableId, CompReg.ofWord, Nat.shiftRight_eq_div_pow]

end Sys2Proof.Machine
end

section
/-! The canonical form of the memories (20_memory R72, log 5): every step keeps it. -/

namespace Sys2Proof.Machine

variable {s t : State} {i : Instr}

/-! ## The stores -/

/-- The memories of a Huffman table are in canonical form. -/
def HuffTable.Canonical (x : HuffTable) : Prop :=
  Memory.wf x.offs = true ∧ Memory.wf x.sym = true ∧ Memory.wf x.code = true

theorem memoriesOk_iff (s : State) : MemoriesOk s ↔ Memory.wf s.ent = true ∧ Memory.wf s.grid.cells = true ∧
    (∀ k q, (s.ht k q).Canonical) ∧ ∀ q : Fin 4, Memory.wf s.qTables[q].q = true := Iff.rfl

theorem canonical_setHt {k : HuffClass} {q : Fin 4} {x : HuffTable} (hs : ∀ k q, (s.ht k q).Canonical)
    (hx : x.Canonical) (k' : HuffClass) (q' : Fin 4) : ((setHt k q x s).ht k' q').Canonical := by
  rw [setHt_ht_iff]
  split
  · exact hx
  · exact hs k' q'

theorem memoriesOk_setHt {k : HuffClass} {q : Fin 4} {x : HuffTable} (hm : MemoriesOk s) (hx : x.Canonical) :
    MemoriesOk (setHt k q x s) := by
  obtain ⟨he, hg, ht, hq⟩ := (memoriesOk_iff s).mp hm
  exact (memoriesOk_iff _).mpr ⟨by simpa using he, by simpa using hg, canonical_setHt ht hx, by simpa using hq⟩

theorem setQt_qTables_iff (s : State) (q q' : Fin 4) (x : QuantTable) :
    (setQt q x s).qTables[q'] = if q' = q then x else s.qTables[q'] := by
  by_cases h : q' = q
  · subst h; simp
  · have : (q : Nat) ≠ q' := fun e => h (Fin.ext e.symm)
    simp [Vector.getElem_set_ne, this, h]

theorem memoriesOk_setQt {q : Fin 4} {x : QuantTable} (hm : MemoriesOk s) (hx : Memory.wf x.q = true) :
    MemoriesOk (setQt q x s) := by
  obtain ⟨he, hg, ht, hq⟩ := (memoriesOk_iff s).mp hm
  refine (memoriesOk_iff _).mpr ⟨he, hg, fun k q => by rw [setQt_ht]; exact ht k q, fun q' => ?_⟩
  rw [setQt_qTables_iff]
  split
  · exact hx
  · exact hq q'

/-- A fault leaves the empty grid, and the other memories as they are (60_exceptions R262). -/
theorem memoriesOk_raise {f : FaultCode} (hm : MemoriesOk s) : MemoriesOk (raise f s) := by
  obtain ⟨he, -, ht, hq⟩ := (memoriesOk_iff s).mp hm
  exact (memoriesOk_iff _).mpr ⟨he, rfl, fun k q => by rw [raise_ht]; exact ht k q, hq⟩

/-- A reset leaves every memory empty (10_state R47). -/
theorem memoriesOk_resetEngine (s : State) : MemoriesOk (resetEngine s) := by
  refine (memoriesOk_iff _).mpr ⟨rfl, rfl, fun k q => ?_, fun q => ?_⟩
  · rw [resetEngine_ht]; exact ⟨rfl, rfl, rfl⟩
  · rw [resetEngine_qTables]; rfl

/-! ## Instructions -/

theorem canonical_builtTable {k : HuffClass} {q : Fin 4} (h : (s.ht k q).Canonical) :
    (builtTable s k q).Canonical := by
  obtain ⟨ho, hs, hc⟩ := h
  exact ⟨ho, hs, wf_assignLengths _ _ _ _ hc⟩

/-- HTBUILD is the one instruction that stores in a table, and it stores codes (41_huffman_engine R150). -/
theorem exec_tables_canonical (hr : i ≠ .reset) (h : exec i s = .next t) (hs : ∀ k q, (s.ht k q).Canonical)
    (k : HuffClass) (q : Fin 4) : (t.ht k q).Canonical := by
  cases i with
  | htbuild k' q' =>
    rcases exec_after hr h with ⟨-, rfl⟩ | ⟨-, rfl, -, -⟩ | ⟨-, f, u, -, rfl, hu⟩
    · exact hs k q
    · exact canonical_setHt hs (canonical_builtTable (hs k' q')) k q
    · rw [raise_ht, show u = _ from hu]
      have hx : HuffTable.Canonical { s.ht k' q' with built := false } := hs k' q'
      exact canonical_setHt hs hx k q
  | _ => rw [huffmanTablesKept.1 _ s t hr (by simp) h k q]; exact hs k q

theorem AcSymbolRuns.cells_wf {c : Fin 3} (h : AcSymbolRuns c s t) (hg : Memory.wf s.grid.cells = true) :
    Memory.wf t.grid.cells = true := by
  obtain ⟨m, k, hm, -, rfl⟩ := h
  exact hm.wf hg

/-- Whatever an instruction that completes has done to the grid, it has done by single stores. -/
theorem after_cells_wf (ha : After s t i) (hg : Memory.wf s.grid.cells = true) : Memory.wf t.grid.cells = true := by
  cases i with
  | nop | rdbit | rdbits | align | htbuild | decsym => rw [after_grid ha (by simp)]; exact hg
  | scaninit => rw [show t = _ from ha.1]; rfl
  | decdc c =>
    obtain ⟨e, -, -, diff, q, hd, -, rfl⟩ := ha
    exact (dcItem_decoded hd e).wf hg
  | decac c =>
    obtain ⟨e, -, -, vs, q, hd, rfl⟩ := ha
    exact (acItems_decoded hd e).wf hg
  | decblk c =>
    obtain ⟨e, -, -, hd⟩ := ha
    exact hd.decoded.wf hg
  | decmcu => exact ha.2.scanned.wf hg
  | decscan => exact ha.2.wf hg
  | dequant | idct | color => exact Staged.wf ha hg
  | reset => rw [show t = _ from ha]; rfl
  | dccat => exact Decoded.wf ha hg
  | eob | zrl | zrun | accoef => exact AcSymbolRuns.cells_wf ha hg
  | dcbad | acbad => exact ha.elim

theorem exec_cells_wf (hr : i ≠ .reset) (h : exec i s = .next t) (hg : Memory.wf s.grid.cells = true) :
    Memory.wf t.grid.cells = true := by
  rcases exec_after hr h with ⟨-, rfl⟩ | ⟨-, ha⟩ | ⟨-, f, u, -, rfl, -⟩
  · exact hg
  · exact after_cells_wf ha hg
  · rfl

/-- Every instruction keeps the canonical form: `ENT` and `QT` are the host's, a table changes by HTBUILD, the grid by
single stores. -/
theorem exec_memoriesOk (h : exec i s = .next t) (hm : MemoriesOk s) : MemoriesOk t := by
  by_cases hr : i = .reset
  · subst hr
    rw [exec_reset h]
    exact memoriesOk_resetEngine s
  · obtain ⟨he, hg, ht, hq⟩ := (memoriesOk_iff s).mp hm
    have hf := exec_frame hr h
    refine (memoriesOk_iff t).mpr ⟨?_, exec_cells_wf hr h hg, exec_tables_canonical hr h ht, ?_⟩
    · rw [hf]; exact he
    · rw [hf]; exact hq

/-! ## Operations of the host -/

theorem issue_memoriesOk {w : Word} (h : issue w s = .next t) (hm : MemoriesOk s) : MemoriesOk t := by
  rw [issue] at h
  split at h
  · exact exec_memoriesOk h hm
  · rcases plainCommand_after (P := fun t => t = raise .illcmd s) (fun _ => rfl) h with ⟨-, rfl⟩ | ⟨-, rfl⟩
    · exact hm
    · exact memoriesOk_raise hm

theorem elemStore_memoriesOk (e : Elem) (v : Word) (hm : MemoriesOk s) : MemoriesOk (elemStore s e v) := by
  obtain ⟨he, hg, ht, hq⟩ := (memoriesOk_iff s).mp hm
  cases e with
  | ent j => exact ⟨Memory.wf_write _ _ he, hg, ht, hq⟩
  | offs k q j =>
    obtain ⟨ho, hs, hc⟩ := ht k q
    exact memoriesOk_setHt hm ⟨Memory.wf_write _ _ ho, hs, hc⟩
  | sym k q j =>
    obtain ⟨ho, hs, hc⟩ := ht k q
    exact memoriesOk_setHt hm ⟨ho, Memory.wf_write _ _ hs, hc⟩
  | htSet k q => exact memoriesOk_setHt hm (ht k q)
  | code | htBuilt => exact hm
  | q q j => exact memoriesOk_setQt hm (Memory.wf_write _ _ (hq q))
  | qtSet q => exact memoriesOk_setQt hm (hq q)
  | grid u p j => exact ⟨he, Memory.wf_write _ _ hg, ht, hq⟩

theorem addressWrite_memoriesOk (a : Address) (v : Word) (hm : MemoriesOk s) : MemoriesOk (addressWrite s a v) := by
  rcases addressWrite_cases s v a with e | ⟨e, h⟩
  · rw [e]; exact hm
  · rw [h, memWrite]
    split
    · exact elemStore_memoriesOk e v hm
    · exact hm

theorem hostStep_memoriesOk {o : HostOp} (h : hostStep o s = .next t) (hm : MemoriesOk s) : MemoriesOk t := by
  cases o with
  | regRead n => cases h; exact hm
  | regWrite n v =>
    cases n with
    | zero => exact issue_memoriesOk h hm
    | succ n => cases h; rw [regWrite_frame]; exact hm
  | memRead a => cases h; exact hm
  | memWrite a v => cases h; exact addressWrite_memoriesOk a v hm

/-- Settles O59: taking an entry off the queue touches no memory, and each kind of entry keeps the canonical form. -/
theorem memoriesInvariant : Obligations.MemoriesInvariant := by
  intro s t hm h
  rw [step] at h
  split at h
  · cases h; exact hm
  · next p rest hp =>
    have hm' : MemoriesOk { s with pending := rest } := hm
    cases p with
    | op o => exact hostStep_memoriesOk h hm'
    | hardReset => cases h; exact memoriesOk_resetEngine _
    | symbol k b => exact exec_memoriesOk h hm'

end Sys2Proof.Machine
end

section
/-! Runs of coefficient stores and the host's writes of single elements (20_memory R72, R78, R81, 46_control R243): where
each goes, and what every element reads as behind it. -/

namespace Sys2Proof.Machine

/-! ## Coefficient stores -/

/-- Settles O27: the words a run of stores leaves are those of its values, which fit. -/
theorem coefficientStores : Obligations.CoefficientStores := by
  intro s c m vs hm hfit
  obtain ⟨inside, outside⟩ := word_storeCoefs s c hm
  refine ⟨fun n hn => ?_, fun u p i hp hi hne => outside u p i hp hi ?_, ?_⟩
  · have hv : fits (vs.getD n 0) = true := by
      rw [List.getD_eq_getElem vs 0 hn]
      exact hfit _ (List.getElem_mem hn)
    rw [Grid.read, inside n hn, toInt_ofInt_of_fits hv]
  · rintro ⟨n, hn, hu, hc, he⟩
    exact hne ⟨hu, hc, n, hn, he⟩
  · rw [storeCoefs_frame]

/-! ## The store of one element -/

variable (s : State) (e : Elem) (v : Word)

/-- A write of this element clears `BUILT` of the table (20_memory R78). -/
def Elem.Unbuilds (e : Elem) (k : HuffClass) (q : Fin 4) : Prop :=
  (∃ j, e = .offs k q j ∨ e = .sym k q j) ∨ e = .htSet k q

/-- A part of the tables that a replaced table shares with the one it replaces reads as before. -/
theorem setHt_part {α : Type} (f : HuffTable → α) {k : HuffClass} {q : Fin 4} {x : HuffTable} (h : f x = f (s.ht k q))
    (k' : HuffClass) (q' : Fin 4) : f ((setHt k q x s).ht k' q') = f (s.ht k' q') := by
  rw [setHt_ht_iff]
  split
  · next e => obtain ⟨rfl, rfl⟩ := e; exact h
  · rfl

/-- A memory of the tables behind the store of one of its elements. -/
theorem find_setHt {w : Nat} (f : HuffTable → Memory w) {k : HuffClass} {q : Fin 4} {j : Nat} {b : BitVec w}
    {x : HuffTable} (h : f x = (f (s.ht k q)).write j b) (k' : HuffClass) (q' : Fin 4) (j' : Nat) :
    (f ((setHt k q x s).ht k' q')).find j' =
      if k = k' ∧ q = q' ∧ j = j' then some b else (f (s.ht k' q')).find j' := by
  rw [setHt_ht_iff]
  by_cases e : k' = k ∧ q' = q
  · obtain ⟨rfl, rfl⟩ := e
    simp only [and_self, if_true, h, Memory.find_write, true_and, eq_comm (a := j)]
  · rw [if_neg e, if_neg fun e' => e ⟨e'.1.symm, e'.2.1.symm⟩]

@[simp] theorem elemStore_cfg : (elemStore s e v).cfg = s.cfg := by rw [elemStore_frame]
@[simp] theorem elemStore_nUnits : (elemStore s e v).nUnits = s.nUnits := by rw [elemStore_frame]
@[simp] theorem elemStore_memEpoch : (elemStore s e v).memEpoch = s.memEpoch := by rw [elemStore_frame]

/-! What each kind of element holds behind the store of `e`. -/

theorem entAt_elemStore (i : Nat) :
    entAt (elemStore s e v) i = if e = .ent i then v.setWidth 8 else entAt s i := by
  cases e with
  | ent j =>
    simp only [elemStore, entAt, Memory.find_write, Elem.ent.injEq, eq_comm (a := i)]
    split <;> rfl
  | _ => simp [elemStore, entAt]

theorem offsByte_elemStore (k : HuffClass) (q : Fin 4) (j : Nat) :
    offsByte (elemStore s e v) k q j = if e = .offs k q j then v.setWidth 8 else offsByte s k q j := by
  rw [offsByte, offsByte, elemStore_memEpoch]
  cases e with
  | offs k' q' j' =>
    rw [show ((elemStore s (.offs k' q' j') v).ht k q).offs.find j = _ from find_setHt s HuffTable.offs rfl k q j]
    simp only [Elem.offs.injEq]
    split <;> rfl
  | sym | htSet => simp only [elemStore, setHt_part s HuffTable.offs, reduceCtorEq, if_false]
  | _ => rfl

theorem symAt_elemStore (k : HuffClass) (q : Fin 4) (j : Nat) :
    symAt (elemStore s e v) k q j = if e = .sym k q j then v.setWidth 8 else symAt s k q j := by
  rw [symAt, symAt, elemStore_memEpoch]
  cases e with
  | sym k' q' j' =>
    rw [show ((elemStore s (.sym k' q' j') v).ht k q).sym.find j = _ from find_setHt s HuffTable.sym rfl k q j]
    simp only [Elem.sym.injEq]
    split <;> rfl
  | offs | htSet => simp only [elemStore, setHt_part s HuffTable.sym, reduceCtorEq, if_false]
  | _ => rfl

theorem codeAt_elemStore (k : HuffClass) (q : Fin 4) (j : Nat) :
    codeAt (elemStore s e v) k q j = codeAt s k q j := by
  rw [codeAt, codeAt, elemStore_memEpoch]
  cases e with
  | offs | sym | htSet => simp only [elemStore, setHt_part s HuffTable.code]
  | _ => rfl

theorem set_elemStore (k : HuffClass) (q : Fin 4) :
    ((elemStore s e v).ht k q).set = if e = .htSet k q then v.getLsbD 0 else (s.ht k q).set := by
  cases e with
  | htSet k' q' =>
    simp only [elemStore, setHt_ht_iff, Elem.htSet.injEq, eq_comm (a := k), eq_comm (a := q)]
    split <;> rfl
  | offs | sym => simp only [elemStore, setHt_part s HuffTable.set, reduceCtorEq, if_false]
  | _ => rfl

theorem built_elemStore_of_unbuilds {k : HuffClass} {q : Fin 4} (h : e.Unbuilds k q) :
    ((elemStore s e v).ht k q).built = false := by
  rcases h with ⟨j, rfl | rfl⟩ | rfl <;> simp [elemStore]

theorem built_elemStore {k : HuffClass} {q : Fin 4} (h : ¬ e.Unbuilds k q) :
    ((elemStore s e v).ht k q).built = (s.ht k q).built := by
  cases e with
  | offs k' q' j =>
    rw [elemStore, setHt_ht_other]
    rintro ⟨rfl, rfl⟩; exact h (.inl ⟨j, .inl rfl⟩)
  | sym k' q' j =>
    rw [elemStore, setHt_ht_other]
    rintro ⟨rfl, rfl⟩; exact h (.inl ⟨j, .inr rfl⟩)
  | htSet k' q' =>
    rw [elemStore, setHt_ht_other]
    rintro ⟨rfl, rfl⟩; exact h (.inr rfl)
  | _ => rfl

theorem quantAt_elemStore (q : Fin 4) (i : Nat) :
    quantAt (elemStore s e v) q i = if e = .q q i then v.setWidth 16 else quantAt s q i := by
  rw [quantAt, quantAt, elemStore_memEpoch]
  cases e with
  | q q' i' =>
    simp only [elemStore, setQt_qTables_iff, Elem.q.injEq]
    by_cases h : q = q'
    · subst h
      simp only [if_true, Memory.find_write, true_and, eq_comm (a := i)]
      split <;> rfl
    · rw [if_neg h, if_neg fun h' => h h'.1.symm]
  | qtSet q' =>
    simp only [elemStore, setQt_qTables_iff, reduceCtorEq, if_false]
    split
    · next h => subst h; rfl
    · rfl
  | offs | sym | htSet => simp only [elemStore, setHt_qTables, reduceCtorEq, if_false]
  | _ => rfl

theorem quantSet_elemStore (q : Fin 4) :
    (elemStore s e v).qTables[q].set = if e = .qtSet q then v.getLsbD 0 else s.qTables[q].set := by
  cases e with
  | qtSet q' =>
    simp only [elemStore, setQt_qTables_iff, Elem.qtSet.injEq, eq_comm (a := q)]
    split <;> rfl
  | q q' i =>
    simp only [elemStore, setQt_qTables_iff, reduceCtorEq, if_false]
    split
    · next h => subst h; rfl
    · rfl
  | offs | sym | htSet => simp only [elemStore, setHt_qTables, reduceCtorEq, if_false]
  | _ => rfl

/-- Elements of the grid that lie in range have keys of their own. -/
theorem gridWord_elemStore {u p i : Nat} (he : Present s e) (h : Present s (.grid u p i)) :
    (elemStore s e v).grid.word u p i = if e = .grid u p i then v else s.grid.word u p i := by
  obtain ⟨-, hp, hi⟩ := h
  cases e with
  | grid u' p' i' =>
    obtain ⟨-, hp', hi'⟩ := he
    simp only [elemStore, Grid.word, Memory.find_write, gridKey_inj hp hp' hi hi', Elem.grid.injEq,
      eq_comm (a := u), eq_comm (a := p), eq_comm (a := i)]
    split <;> rfl
  | offs | sym | htSet => simp only [elemStore, setHt_grid, reduceCtorEq, if_false]
  | _ => rfl

/-! ## What the host reads behind a write -/

variable {s e} {e' : Elem}

theorem memWrite_of_present (he : Present s e) : memWrite s e v = elemStore s e v :=
  if_pos ((elemInRange_iff s e).mpr he)

/-- A write outside the valid range does nothing (20_memory R72). -/
theorem memWrite_of_not_present (he : ¬ Present s e) : memWrite s e v = s :=
  if_neg (mt (elemInRange_iff s e).mp he)

theorem memRead_of_present (he : Present s e) : memRead s e = elemWord s e :=
  if_pos ((elemInRange_iff s e).mpr he)

/-- A write moves no bound of a valid range. -/
theorem present_elemStore : Present (elemStore s e v) e' ↔ Present s e' := by
  cases e' <;> simp [Present]

theorem memRead_elemStore (he' : Present s e') : memRead (elemStore s e v) e' = elemWord (elemStore s e v) e' :=
  memRead_of_present ((present_elemStore v).mpr he')

/-- What an element reads back as behind a write of `v` to it: the word cut to its width; `CODE` and `BUILT` as before
(46_control R243). -/
def readBack (s : State) (v : Word) : Elem → Word
  | .ent _ | .offs _ _ _ | .sym _ _ _ => v &&& 0xFF#32
  | .code k q j => memRead s (.code k q j)
  | .htBuilt k q => memRead s (.htBuilt k q)
  | .htSet _ _ | .qtSet _ => v &&& 0x1#32
  | .q _ _ => v &&& 0xFFFF#32
  | .grid _ _ _ => v

/-- A flag cut from a word and read back is the word under a mask. -/
theorem bitWord_getLsbD_zero : bitWord (v.getLsbD 0) = v &&& 0x1#32 := by
  have h := setWidth_setWidth_eq_and (n := 1) (by simp) v
  rw [BitVec.setWidth_one] at h
  rw [← show _ = v &&& 0x1#32 from h]
  cases v.getLsbD 0 <;> rfl

theorem elemWord_elemStore_same (he : Present s e) : elemWord (elemStore s e v) e = readBack s v e := by
  have byte : (v.setWidth 8).setWidth 32 = v &&& 0xFF#32 := setWidth_setWidth_eq_and (n := 8) (by simp) v
  cases e with
  | ent i => rw [elemWord, entAt_elemStore, if_pos rfl]; exact byte
  | offs k q j => rw [elemWord, offsByte_elemStore, if_pos rfl]; exact byte
  | sym k q j => rw [elemWord, symAt_elemStore, if_pos rfl]; exact byte
  | code k q j => exact (memRead_of_present he).symm
  | htBuilt k q => exact (memRead_of_present he).symm
  | htSet k q => rw [elemWord, set_elemStore, if_pos rfl]; exact bitWord_getLsbD_zero v
  | qtSet q => rw [elemWord, quantSet_elemStore, if_pos rfl]; exact bitWord_getLsbD_zero v
  | q q i => rw [elemWord, quantAt_elemStore, if_pos rfl]; exact setWidth_setWidth_eq_and (n := 16) (by simp) v
  | grid u p i => rw [elemWord, gridWord_elemStore s _ v he he, if_pos rfl]; rfl

/-- An element reads as before behind the write of another one, but for a `BUILT` the write clears. -/
theorem elemWord_elemStore_other (he : Present s e) (he' : Present s e') (hne : e' ≠ e)
    (hb : ∀ k q, e' = .htBuilt k q → ¬ e.Unbuilds k q) : elemWord (elemStore s e v) e' = elemWord s e' := by
  cases e' with
  | ent i => rw [elemWord, entAt_elemStore, if_neg hne.symm]; rfl
  | offs k q j => rw [elemWord, offsByte_elemStore, if_neg hne.symm]; rfl
  | sym k q j => rw [elemWord, symAt_elemStore, if_neg hne.symm]; rfl
  | code k q j => exact codeAt_elemStore s e v k q j
  | htSet k q => rw [elemWord, set_elemStore, if_neg hne.symm]; rfl
  | htBuilt k q => rw [elemWord, built_elemStore s e v (hb k q rfl)]; rfl
  | q q i => rw [elemWord, quantAt_elemStore, if_neg hne.symm]; rfl
  | qtSet q => rw [elemWord, quantSet_elemStore, if_neg hne.symm]; rfl
  | grid u p i => rw [elemWord, gridWord_elemStore s e v he he', if_neg hne.symm]; rfl

theorem regRead_elemStore (n : Nat) : regRead (elemStore s e v) n = regRead s n := by
  rw [elemStore_frame]; rfl

/-- Settles O57: outside its range a write does nothing; inside it is the store of one element. -/
theorem memoryWrites : Obligations.MemoryWrites := by
  intro s v
  refine ⟨addressWrite_address s v, fun a ha => addressWrite_none s v ha, fun e => ?_⟩
  by_cases he : Present s e
  · simp only [memWrite_of_present v he]
    refine ⟨fun hn => absurd he hn, fun _ => ?_, fun _ k q hu => built_elemStore_of_unbuilds s e v hu,
      fun e' hne he' hb => ?_, fun n => regRead_elemStore v n⟩
    · rw [memRead_elemStore v he, elemWord_elemStore_same v he]; cases e <;> rfl
    · rw [memRead_elemStore v he', elemWord_elemStore_other v he he' hne hb, memRead_of_present he']
  · rw [memWrite_of_not_present v he]
    exact ⟨fun _ => rfl, fun h => absurd h he, fun h => absurd h he, fun _ _ _ _ => rfl, fun _ => rfl⟩

end Sys2Proof.Machine
end

section
/-! DECMCU (41_huffman_engine R162, R166): what it does on a unit that stands at the cursor, on one that breaks, and that
these are all. -/

namespace Sys2Proof.Machine

variable {s t : State}

theorem exec_decmcu (hv : s.valid = true) : exec .decmcu s = .next (decmcuBody s).state := command_valid hv

/-- What DECMCU has raised it has raised where `BLKIDX` and `PHASE` still stood. -/
theorem exec_decmcu_of_invalid (hv : s.valid = true) (h : exec .decmcu s = .next t) (ht : t.valid = false) :
    t.blkIdx = s.blkIdx ∧ t.phase = s.phase := by
  rcases exec_after (by simp) h with ⟨h0, -⟩ | ⟨-, -, hu⟩ | ⟨-, f, u, -, rfl, hb⟩
  · rw [hv] at h0; cases h0
  · rw [hu.frame, hv] at ht; cases ht
  · have hd : Decoded [0, 1, 2] s u := hb
    exact ⟨hd.blkIdx, by rw [raise_phase, hd.frame]⟩

theorem exec_decmcu_of_decodes (hr : UnitReady s) (h : UnitDecodes s t) : exec .decmcu s = .next t := by
  rw [exec_decmcu hr.1, decmcuBody_ready hr, decodeUnit_of_decodes h, Ran.state_done]

theorem exec_decmcu_of_breaks (hr : UnitReady s) (h : UnitBreaks s t) : exec .decmcu s = .next t := by
  rw [exec_decmcu hr.1, decmcuBody_ready hr, decodeUnit_of_breaks h, Ran.state_raised]

/-- A unit that breaks leaves the latch down. -/
theorem UnitBreaks.valid (h : UnitBreaks s t) (hr : UnitReady s) : t.valid = false := by
  have e := decodeUnit_of_breaks h
  rcases decodeUnit_cases s hr.2.2.1 with ⟨t', -, e'⟩ | ⟨f, u, -, -, e'⟩
  · rw [e] at e'; cases e'
  · rw [e] at e'; cases e'; rfl

/-- Where the checks pass, a DECMCU that raises has met a unit that breaks. -/
theorem unitBreaks_of_exec (hr : UnitReady s) (h : exec .decmcu s = .next t) (ht : t.valid = false) :
    UnitBreaks s t := by
  obtain ⟨u, hu | hu⟩ := unit_good_or_breaks hr.2.2.1
  · rw [exec_decmcu_of_decodes hr hu] at h
    cases h
    rw [hu.frame, hr.1] at ht; cases ht
  · rw [exec_decmcu_of_breaks hr hu] at h
    cases h
    exact hu

/-- Settles O31: a unit decodes or breaks, and DECMCU follows it. -/
theorem decmcuResult : Obligations.DecmcuResult := by
  intro s t
  refine ⟨fun hr hu => ⟨exec_decmcu_of_decodes hr hu, by rw [hu.frame], by rw [hu.frame, hr.2.1]⟩,
    fun hr hu => ⟨exec_decmcu_of_breaks hr hu, hu.valid hr⟩, fun hv h => ⟨fun ht => ?_,
      exec_decmcu_of_invalid hv h, fun ht hr => unitBreaks_of_exec hr h ht⟩⟩
  exact (after_of_valid (by simp) h ht).2

end Sys2Proof.Machine
end

section
/-! The encodings of 30_encoding: a command word is its two fields `OP` and `ARG`, each operand form takes the arguments that
encode its operands, and so decoding and encoding are inverse to each other, for the symbols by their nibbles. -/

namespace Sys2Proof.Machine

/-! ## The two fields of a command word (30_encoding R100) -/

@[simp] theorem opField_commandWord (arg op : Byte) : opField (commandWord arg op) = op := by
  ext i hi
  simp [opField, commandWord]

@[simp] theorem argField_commandWord (arg op : Byte) : argField (commandWord arg op) = arg := by
  ext i hi
  simp [argField, commandWord, show 8 + i < 16 by omega, show i < 16 by omega, ← BitVec.getLsbD_eq_getElem, hi]

@[simp] theorem commandWord_fields (w : BitVec 16) : commandWord (argField w) (opField w) = w := by
  ext i hi
  by_cases h : i < 8
  · simp [argField, opField, commandWord, h, hi]
  · simp [argField, opField, commandWord, h, show i - 8 < 8 by omega, show 8 + (i - 8) = i by omega, hi]

theorem toNat_argField (w : BitVec 16) : (argField w).toNat = w.toNat / 256 := by
  have := w.isLt
  simp [argField, Nat.shiftRight_eq_div_pow]
  omega

theorem commandWord_ext_iff {v w : BitVec 16} : v = w ↔ opField v = opField w ∧ argField v = argField w := by
  refine ⟨by rintro rfl; exact ⟨rfl, rfl⟩, fun ⟨ho, ha⟩ => ?_⟩
  rw [← commandWord_fields v, ho, ha, commandWord_fields]

@[simp] theorem opField_and (v w : BitVec 16) : opField (v &&& w) = opField v &&& opField w := by
  simp [opField]

@[simp] theorem argField_and (v w : BitVec 16) : argField (v &&& w) = argField v &&& argField w := by
  simp [argField, BitVec.ushiftRight_and_distrib]

/-! ## The operand forms (30_encoding R100 to R103): which arguments each takes -/

variable {arg op : Byte} {i j : Instr}

theorem formNone_eq_ok_iff : formNone arg j = .ok i ↔ arg = 0 ∧ i = j := by
  by_cases h : arg = 0
  · simpa [formNone, h] using eq_comm
  · rw [formNone, if_neg h]
    exact ⟨nofun, fun e => absurd e.1 h⟩

theorem encodeT_of_arg : ∀ arg : Byte, arg &&& 0xF8#8 = 0 → encodeT (argClass arg) (argTable arg) = arg := by decide

theorem arg_of_encodeT (k : HuffClass) (t : Fin 4) : encodeT k t &&& 0xF8#8 = 0 ∧
    argClass (encodeT k t) = k ∧ argTable (encodeT k t) = t := by
  cases k <;> revert t <;> decide

theorem formT_eq_ok_iff {f : HuffClass → Fin 4 → Instr} :
    formT arg f = .ok i ↔ ∃ k t, arg = encodeT k t ∧ i = f k t := by
  constructor
  · intro h
    rw [formT] at h
    split at h
    · next hz => cases h; exact ⟨_, _, (encodeT_of_arg arg hz).symm, rfl⟩
    · cases h
  · rintro ⟨k, t, rfl, rfl⟩
    obtain ⟨hz, hk, ht⟩ := arg_of_encodeT k t
    rw [formT, if_pos hz, hk, ht]

/-- An operand in the low `n` bits of `ARG`, the others zero, with a bound: every operand within the bound has one argument. -/
theorem operand_eq_ok_iff {n bound : Nat} {zeros : Byte} {f : BitVec n → Instr} {a b : Illegal} (hn : n ≤ 8)
    (hz : ∀ x : Byte, x &&& zeros = 0 ↔ (x.setWidth n).setWidth 8 = x) :
    (if arg &&& zeros = 0 then (if (arg.setWidth n).toNat ≤ bound then .ok (f (arg.setWidth n)) else .error a)
      else .error b : Except Illegal Instr) = .ok i ↔
    ∃ c : BitVec n, c.toNat ≤ bound ∧ arg = c.setWidth 8 ∧ i = f c := by
  constructor
  · intro h
    split at h
    · next h0 =>
      split at h <;> cases h
      exact ⟨_, ‹_›, ((hz arg).mp h0).symm, rfl⟩
    · cases h
  · rintro ⟨c, hc, rfl, rfl⟩
    have back : (c.setWidth 8).setWidth n = c := by
      rw [BitVec.setWidth_setWidth_of_le _ hn, BitVec.setWidth_eq]
    rw [if_pos ((hz _).mpr (by rw [back])), back, if_pos hc]

theorem formC_eq_ok_iff {f : BitVec 2 → Instr} :
    formC arg f = .ok i ↔ ∃ c : BitVec 2, c.toNat ≤ 2 ∧ arg = c.setWidth 8 ∧ i = f c :=
  operand_eq_ok_iff (by decide) (by decide)

theorem formN_eq_ok_iff {f : BitVec 5 → Instr} :
    formN arg f = .ok i ↔ ∃ n : BitVec 5, n.toNat ≤ 16 ∧ arg = n.setWidth 8 ∧ i = f n :=
  operand_eq_ok_iff (by decide) (by decide)

/-! ## Decoding an encoding (30_encoding R104, R109, R112) -/

theorem decodeWord_commandWord (arg op : Byte) : decodeWord (commandWord arg op) = decodeOp op arg := by
  simp [decodeWord]

theorem toNat_symbolByte : ∀ run size : BitVec 4, (symbolByte run size).toNat = 16 * run.toNat + size.toNat := by decide

theorem decodeAc_symbolByte {run size : BitVec 4} (h0 : ¬ (run.toNat = 0 ∧ size.toNat = 0))
    (h1 : ¬ (run.toNat = 15 ∧ size.toNat = 0)) :
    decodeAc (symbolByte run size) =
      if size.toNat = 0 then .zrun run else if size.toNat ≤ 10 then .accoef run size else .acbad run size := by
  have hr := run.isLt
  have hs := size.isLt
  rw [decodeAc_eq, toNat_symbolByte, if_neg (by omega), if_neg (by omega),
    show (16 * run.toNat + size.toNat) / 16 = run.toNat by omega,
    show (16 * run.toNat + size.toNat) % 16 = size.toNat by omega]
  simp only [BitVec.ofNat_toNat, BitVec.setWidth_eq]

/-- Settles O1: the argument of every operand form and the byte of every symbol is read back as its operands. -/
theorem decodeEncode : Obligations.DecodeEncode := by
  intro i hi
  cases i with
  | rdbits n =>
    have hn : n.toNat ≤ 16 := of_decide_eq_true hi
    rw [encode, decode, decodeWord_commandWord]
    exact formN_eq_ok_iff.mpr ⟨n, hn, rfl, rfl⟩
  | htbuild k t | decsym k t =>
    rw [encode, decode, decodeWord_commandWord]
    exact formT_eq_ok_iff.mpr ⟨k, t, rfl, rfl⟩
  | decdc c | decac c | decblk c =>
    have hc : c.toNat ≤ 2 := of_decide_eq_true hi
    rw [encode, decode, decodeWord_commandWord]
    exact formC_eq_ok_iff.mpr ⟨c, hc, rfl, rfl⟩
  | dccat cat =>
    have hc : cat.toNat ≤ 11 := of_decide_eq_true hi
    simp [encode, decode, decodeSymbolByte, decodeDc_eq, hc, DcSym.toInstr]
  | dcbad b =>
    have hb : 12 ≤ b.toNat := of_decide_eq_true hi
    simp [encode, decode, decodeSymbolByte, decodeDc_eq, show ¬ b.toNat ≤ 11 by omega, DcSym.toInstr]
  | zrun run =>
    obtain ⟨h1, h14⟩ : 1 ≤ run.toNat ∧ run.toNat ≤ 14 := of_decide_eq_true hi
    rw [encode, decode, decodeSymbolByte, decodeAc_symbolByte (by omega) (by omega)]
    rfl
  | accoef run size =>
    obtain ⟨h1, h10⟩ : 1 ≤ size.toNat ∧ size.toNat ≤ 10 := of_decide_eq_true hi
    rw [encode, decode, decodeSymbolByte, decodeAc_symbolByte (by omega) (by omega), if_neg (by omega), if_pos h10]
    rfl
  | acbad run size =>
    have h11 : 11 ≤ size.toNat := of_decide_eq_true hi
    rw [encode, decode, decodeSymbolByte, decodeAc_symbolByte (by omega) (by omega), if_neg (by omega),
      if_neg (by omega)]
    rfl
  | _ => rfl

/-! ## Encoding what was decoded -/

/-- A command decoded from its fields is well formed, and its encoding has these fields. -/
theorem encode_of_decodeOp (h : decodeOp op arg = .ok i) :
    i.wellFormed = true ∧ encode i = .command (commandWord arg op) := by
  have code : ∀ {n : Nat}, op.toNat = n → op = BitVec.ofNat 8 n := fun e => by simp [← e]
  rw [decodeOp] at h
  split at h
  case h_4 ho =>
    obtain ⟨n, hn, rfl, rfl⟩ := formN_eq_ok_iff.mp h
    exact ⟨decide_eq_true hn, by rw [code ho]; rfl⟩
  case h_6 ho | h_7 ho =>
    obtain ⟨k, t, rfl, rfl⟩ := formT_eq_ok_iff.mp h
    exact ⟨rfl, by rw [code ho]; rfl⟩
  case h_8 ho | h_9 ho | h_10 ho =>
    obtain ⟨c, hc, rfl, rfl⟩ := formC_eq_ok_iff.mp h
    exact ⟨decide_eq_true hc, by rw [code ho]; rfl⟩
  case h_17 => cases h
  all_goals
    next ho =>
      obtain ⟨rfl, rfl⟩ := formNone_eq_ok_iff.mp h
      exact ⟨rfl, by rw [code ho]; rfl⟩

/-- A byte is its two nibbles (30_encoding R111). -/
theorem nibbles (b : Byte) :
    (BitVec.ofNat 4 (b.toNat / 16)).toNat = b.toNat / 16 ∧ (BitVec.ofNat 4 (b.toNat % 16)).toNat = b.toNat % 16 ∧
      symbolByte (BitVec.ofNat 4 (b.toNat / 16)) (BitVec.ofNat 4 (b.toNat % 16)) = b := by
  have hb := b.isLt
  have hi : (BitVec.ofNat 4 (b.toNat / 16)).toNat = b.toNat / 16 := Nat.mod_eq_of_lt (by omega)
  have lo : (BitVec.ofNat 4 (b.toNat % 16)).toNat = b.toNat % 16 := Nat.mod_eq_of_lt (by omega)
  refine ⟨hi, lo, BitVec.eq_of_toNat_eq ?_⟩
  rw [toNat_symbolByte, hi, lo]
  omega

theorem encode_decodeSymbolByte (k : HuffClass) (b : Byte) :
    (decodeSymbolByte k b).wellFormed = true ∧ encode (decodeSymbolByte k b) = .symbol k b := by
  cases k with
  | dc =>
    rw [decodeSymbolByte, decodeDc_eq]
    split
    · next h => exact ⟨decide_eq_true h, rfl⟩
    · next h => exact ⟨decide_eq_true (by omega), rfl⟩
  | ac =>
    obtain ⟨hi, lo, hb⟩ := nibbles b
    rw [decodeSymbolByte, decodeAc_eq]
    split_ifs with h0 h1 h2 h3
    · exact ⟨rfl, by rw [BitVec.eq_of_toNat_eq (x := b) (y := 0x00#8) h0]; rfl⟩
    · exact ⟨rfl, by rw [BitVec.eq_of_toNat_eq (x := b) (y := 0xF0#8) h1]; rfl⟩
    · refine ⟨decide_eq_true (by omega), ?_⟩
      rw [h2] at hb
      exact congrArg (Encoded.symbol .ac) hb
    · exact ⟨decide_eq_true (by omega), congrArg (Encoded.symbol .ac) hb⟩
    · exact ⟨decide_eq_true (by omega), congrArg (Encoded.symbol .ac) hb⟩

/-- Settles O2: a command word by its fields, a symbol byte by its class. -/
theorem encodeDecode : Obligations.EncodeDecode := by
  intro e i h
  cases e with
  | command w =>
    obtain ⟨hw, he⟩ := encode_of_decodeOp h
    exact ⟨hw, by rw [he, commandWord_fields]⟩
  | symbol k b =>
    cases h
    exact encode_decodeSymbolByte k b

end Sys2Proof.Machine
end

section
/-! The operation code table (30_encoding R104): the rows have different operation codes, so a word selects at most the row of
its own code, and the decoder asks of the argument what that row asks. -/

namespace Sys2Proof.Machine

variable {w : BitVec 16} {r : OpcodeRow}

/-- The operation code of a row. -/
def OpcodeRow.code (r : OpcodeRow) : Nat := (opField r.pattern).toNat

/-- A row of the table looks at all of `OP`, and asks for zeros in the argument bits of its mask. -/
theorem selects_iff (hr : r ∈ opcodeRows) : r.selects w = true ↔
    (opField w).toNat = r.code ∧ argField w &&& argField r.mask = 0 ∧ r.constraint w = true := by
  have shape : ∀ r ∈ opcodeRows, opField r.mask = BitVec.allOnes 8 ∧ argField r.pattern = 0 := by decide
  obtain ⟨hm, hp⟩ := shape r hr
  simp only [OpcodeRow.selects, OpcodeRow.code, Bool.and_eq_true, decide_eq_true_eq, commandWord_ext_iff, opField_and,
    argField_and, hm, hp, BitVec.and_allOnes, ← BitVec.toNat_eq, and_assoc]

theorem codes : opcodeRows.map OpcodeRow.code =
    [0x00, 0x01, 0x10, 0x11, 0x12, 0x20, 0x21, 0x22, 0x23, 0x24, 0x25, 0x26, 0x30, 0x31, 0x32, 0xFF] := rfl

theorem code_nodup : (opcodeRows.map OpcodeRow.code).Nodup := by
  rw [codes]
  decide

theorem code_inj {r' : OpcodeRow} (hr : r ∈ opcodeRows) (hr' : r' ∈ opcodeRows) (h : r.code = r'.code) : r = r' :=
  List.inj_on_of_nodup_map code_nodup hr hr' h

/-- No word selects two rows: the selected rows share its operation code. -/
theorem length_selected_le (w : BitVec 16) : (opcodeRows.filter (·.selects w)).length ≤ 1 := by
  have same : (opcodeRows.filter (·.selects w)).map OpcodeRow.code =
      List.replicate (opcodeRows.filter (·.selects w)).length (opField w).toNat := by
    refine List.map_eq_replicate_iff.mpr fun r hr => ?_
    obtain ⟨hr, hs⟩ := List.mem_filter.mp hr
    exact ((selects_iff hr).mp hs).1.symm
  have distinct : ((opcodeRows.filter (·.selects w)).map OpcodeRow.code).Nodup :=
    code_nodup.sublist (List.filter_sublist.map _)
  rw [same] at distinct
  exact List.nodup_replicate.mp distinct

/-- Of all rows only the one with the operation code of a word may be selected. -/
theorem selected_of_code {n : Nat} (ho : (opField w).toNat = n) (hf : opcodeRows.find? (·.code = n) = some r) :
    (opcodeRows.find? (·.selects w)).map (·.instr w) =
      if argField w &&& argField r.mask = 0 ∧ r.constraint w = true then some (r.instr w) else none := by
  have hr := List.mem_of_find?_eq_some hf
  have hc : r.code = n := by simpa using List.find?_some hf
  have hs := (selects_iff (w := w) hr).trans (and_iff_right (ho.trans hc.symm))
  cases hw : opcodeRows.find? (·.selects w) with
  | none => exact (if_neg fun h => List.find?_eq_none.mp hw r hr (hs.mpr h)).symm
  | some r' =>
    have hr' := List.mem_of_find?_eq_some hw
    have hs' := List.find?_some hw
    obtain rfl : r' = r := code_inj hr' hr (by rw [hc, ← ho, ((selects_iff hr').mp hs').1])
    exact (if_pos (hs.mp hs')).symm

/-! ## The operand forms, as the rows of the table write them over the whole word -/

variable (w)

theorem formNone_row (i : Instr) : (formNone (argField w) i).toOption =
    if argField w &&& argField 0xFFFF#16 = 0 ∧ true = true then some i else none := by
  have hm : argField w &&& argField 0xFFFF#16 = argField w := BitVec.and_allOnes
  rw [formNone, hm]
  simp only [and_true]
  split <;> rfl

theorem formT_row (f : HuffClass → Fin 4 → Instr) : (formT (argField w) f).toOption =
    if argField w &&& argField 0xF8FF#16 = 0 ∧ true = true then some (f (wordClass w) (wordTable w)) else none := by
  have hk : argClass (argField w) = wordClass w := by simp [argClass, wordClass, argField]
  have ht : argTable (argField w) = wordTable w := by
    simp [argTable, wordTable, Fin.ext_iff, toNat_argField]
  have hm : argField 0xF8FF#16 = 0xF8#8 := by decide
  rw [formT, hk, ht, hm]
  simp only [and_true]
  split <;> rfl

/-- Two checks in a row pass where both conditions hold. -/
theorem toOption_checks {P Q : Prop} [Decidable P] [Decidable Q] (i : Instr) (a b : Illegal) :
    (if P then (if Q then .ok i else .error a) else .error b : Except Illegal Instr).toOption =
      if P ∧ decide Q = true then some i else none := by
  by_cases hp : P <;> by_cases hq : Q <;> simp [hp, hq, Except.toOption]

theorem formC_row (f : BitVec 2 → Instr) : (formC (argField w) f).toOption =
    if argField w &&& argField 0xFCFF#16 = 0 ∧ decide (w.toNat / 256 % 4 ≤ 2) = true then
      some (f (BitVec.ofNat 2 (w.toNat / 256))) else none := by
  have hc : (argField w).setWidth 2 = BitVec.ofNat 2 (w.toNat / 256) := by
    rw [← toNat_argField, BitVec.ofNat_toNat]
  have hm : argField 0xFCFF#16 = 0xFC#8 := by decide
  rw [formC, hc, hm, BitVec.toNat_ofNat]
  exact toOption_checks _ _ _

theorem formN_row (f : BitVec 5 → Instr) : (formN (argField w) f).toOption =
    if argField w &&& argField 0xE0FF#16 = 0 ∧ decide (w.toNat / 256 % 32 ≤ 16) = true then
      some (f (BitVec.ofNat 5 (w.toNat / 256))) else none := by
  have hn : (argField w).setWidth 5 = BitVec.ofNat 5 (w.toNat / 256) := by
    rw [← toNat_argField, BitVec.ofNat_toNat]
  have hm : argField 0xE0FF#16 = 0xE0#8 := by decide
  rw [formN, hn, hm, BitVec.toNat_ofNat]
  exact toOption_checks _ _ _

/-- The decoder answers the row the word selects. -/
theorem decodeWord_toOption :
    (decodeWord w).toOption = (opcodeRows.find? (·.selects w)).map (·.instr w) := by
  rw [decodeWord, decodeOp]
  split
  case h_4 ho => exact (formN_row w _).trans (selected_of_code ho rfl).symm
  case h_6 ho | h_7 ho => exact (formT_row w _).trans (selected_of_code ho rfl).symm
  case h_8 ho | h_9 ho | h_10 ho => exact (formC_row w _).trans (selected_of_code ho rfl).symm
  case h_17 =>
    have none_selected : opcodeRows.find? (·.selects w) = none := List.find?_eq_none.mpr fun r hr hs => by
      have hm : (opField w).toNat ∈ opcodeRows.map OpcodeRow.code :=
        ((selects_iff hr).mp hs).1 ▸ List.mem_map_of_mem hr
      rw [codes] at hm
      simp only [List.mem_cons, List.not_mem_nil, or_false] at hm
      tauto
    rw [none_selected]
    rfl
  all_goals
    next ho => exact (formNone_row w _).trans (selected_of_code ho rfl).symm

theorem decodeWord_error_iff : (∃ e, decodeWord w = .error e) ↔ ¬ ∃ r ∈ opcodeRows, r.selects w = true := by
  have h := decodeWord_toOption w
  cases hd : decodeWord w with
  | error e =>
    rw [hd] at h
    simpa using Option.map_eq_none_iff.mp h.symm
  | ok i =>
    rw [hd] at h
    obtain ⟨r, hr, -⟩ := Option.map_eq_some_iff.mp h.symm
    have hs := List.find?_some hr
    exact ⟨nofun, fun hn => absurd ⟨r, List.mem_of_find?_eq_some hr, hs⟩ hn⟩

theorem decodeCmd_error_iff (v : Word) : (∃ e, decodeCmd v = .error e) ↔
    ¬ (v.toNat < 65536 ∧ ∃ r ∈ opcodeRows, r.selects (v.setWidth 16) = true) := by
  have upper : v >>> 16 = 0 ↔ v.toNat < 65536 := by
    rw [BitVec.toNat_eq, BitVec.toNat_ushiftRight, Nat.shiftRight_eq_div_pow]
    simp
  by_cases hv : v >>> 16 = 0
  · rw [decodeCmd, if_pos hv, decodeWord_error_iff, and_iff_right (upper.mp hv)]
  · rw [decodeCmd, if_neg hv]
    exact ⟨fun _ h => hv (upper.mpr h.1), fun _ => ⟨_, rfl⟩⟩

/-- Settles O3: row by row for the decoder; the rest follows from the rows. -/
theorem opcodeTable : Obligations.OpcodeTable :=
  ⟨fun w => ⟨decodeWord_toOption w, length_selected_le w⟩, decodeCmd_error_iff⟩

end Sys2Proof.Machine
end

section
/-! Values and positions (30_encoding R106 to R110): the raw value fields, the zigzag map, the blocks of the grammar, and the
symbols and sample words written out. -/

namespace Sys2Proof.Machine

theorem extend_small {n v : Nat} (h : v < 2 ^ n) : extend v (n + 1) = (v : Int) - (2 ^ (n + 1) - 1) := by
  simp [extend, h]

theorem extend_large {n v : Nat} (h : 2 ^ n ≤ v) : extend v (n + 1) = v := by
  simp [extend, Nat.not_lt.mpr h]

/-- Settles O6: the raw values below `2 ^ n` of `n + 1` bits are the negative ones, and both halves are reached. -/
theorem extendRange : Obligations.ExtendRange := by
  refine ⟨rfl, fun s hs _ => ?_⟩
  obtain ⟨n, rfl⟩ : ∃ n, s = n + 1 := ⟨s - 1, by omega⟩
  rw [Nat.add_sub_cancel]
  have double : (2 : Int) ^ (n + 1) = 2 * 2 ^ n := by ring
  have doubleNat : 2 ^ (n + 1) = 2 * 2 ^ n := by ring
  have cast : ((2 ^ n : Nat) : Int) = 2 ^ n := by push_cast; rfl
  refine ⟨fun v hv => ?_, fun v hl hv => ?_, fun x hl hx => ?_⟩
  · rw [extend_small hv]
    omega
  · rw [extend_large hl]
    omega
  · rcases abs_cases x with ⟨ha, h0⟩ | ⟨ha, h0⟩
    · refine ⟨x.toNat, by omega, ?_⟩
      rw [extend_large (by omega)]
      omega
    · refine ⟨(x + (2 ^ (n + 1) - 1)).toNat, by omega, ?_⟩
      rw [extend_small (by omega)]
      omega

/-- The operand `compArg c` names component `c` and no other. -/
theorem exists_compArg {c : Fin 3} {P : Fin 3 → Prop} : (∃ e, compIndex (compArg c) = some e ∧ P e) ↔ P c := by simp

/-- Settles O29: a command that ends with `VALID = 1` has completed, and what it then has decoded is of the grammar. -/
theorem blockSound : Obligations.BlockSound := by
  intro s t c _ ht
  refine ⟨fun h => ?_, fun h => ?_, fun h => ?_⟩
  · exact (exists_compArg.mp (after_of_valid (by simp) h ht)).2
  · exact (exists_compArg.mp (after_of_valid (by simp) h ht)).2
  · obtain ⟨-, diff, q, hd, -⟩ := exists_compArg.mp (after_of_valid (by simp) h ht)
    exact ⟨diff, q, hd⟩

/-- Settles O4, by the values of the two decoders. -/
theorem symbolMaps : Obligations.SymbolMaps := by
  intro b
  rw [decodeSymbolByte, decodeSymbolByte, decodeDc_eq, decodeAc_eq]
  constructor
  · split <;> rfl
  · split_ifs <;> rfl

/-- Settles O5: the decoders evaluate the fourteen words. -/
theorem sampleWords : Obligations.SampleWords := by
  unfold Obligations.SampleWords
  decide

/-- Settles O7, position by position. -/
theorem zigzagWalk : Obligations.ZigzagWalk := ⟨by decide, by decide, rfl, by decide⟩

end Sys2Proof.Machine
end

section
/-! The Bit Reader's commands (40_bit_reader R134 to R138): RDBIT, RDBITS and ALIGN run their procedures, so the laws of the
procedures say what the commands return. -/

namespace Sys2Proof.Machine

/-! ## The commands by their procedures -/

theorem exec_rdbit {s : State} (hv : s.valid = true) : exec .rdbit s = .next (returnBits (readBit s)) :=
  plainCommand_valid (f := fun s => returnBits (readBit s)) hv

theorem exec_rdbits {s : State} {n : BitVec 5} (hv : s.valid = true) (hn : n.toNat ≤ 16) :
    exec (.rdbits n) s = .next (returnBits (readBits n.toNat s)) := by
  show execRdbits n s = _
  rw [execRdbits, if_pos hn, plainCommand_valid hv]

theorem exec_align {s : State} (hv : s.valid = true) : exec .align s = .next (align s) := plainCommand_valid hv

/-- The state behind an RDBIT that finds a bit. -/
def afterBit (s : State) : State :=
  setResult (BitVec.ofNat 32 (streamBit s (cursorPos s))) (atPos (cursorPos s + 1) s)

theorem exec_rdbit_some {s : State} (hv : s.valid = true) (h : cursorPos s < streamEnd s) :
    exec .rdbit s = .next (afterBit s) := by
  rw [exec_rdbit hv, readBit_some h, returnBits, afterBit]

theorem exec_rdbits_some {s : State} {n : BitVec 5} (hv : s.valid = true) (hn : n.toNat ≤ 16)
    (h : n.toNat = 0 ∨ cursorPos s + n.toNat ≤ streamEnd s) :
    exec (.rdbits n) s = .next (setResult (BitVec.ofNat 32 (streamField s (cursorPos s) n.toNat))
      (atPos (cursorPos s + n.toNat) s)) := by
  rw [exec_rdbits hv hn, readBits_eq, if_pos h, returnBits]

theorem exec_rdbits_none {s : State} {n : BitVec 5} (hv : s.valid = true) (hn : n.toNat ≤ 16)
    (h : ¬ (n.toNat = 0 ∨ cursorPos s + n.toNat ≤ streamEnd s)) :
    exec (.rdbits n) s = .next (setFail (atEnd s)) := by
  rw [exec_rdbits hv hn, readBits_eq, if_neg h, returnBits]

/-- Settles O15: either command returns what its procedure reads, or FAIL. -/
theorem bitReads : Obligations.BitReads := by
  refine fun s hv => ⟨?_, fun n hn => ?_⟩
  · split
    · next h => exact exec_rdbit_some hv h
    · next h => rw [exec_rdbit hv, readBit_none (by omega)]; rfl
  · split
    · next h => exact exec_rdbits_some hv hn h
    · next h => exact exec_rdbits_none hv hn h

/-! ## Fields -/

/-- The first bit of a field is its most significant. -/
theorem streamField_succ_left (s : State) (p n : Nat) :
    streamField s p (n + 1) = streamBit s p * 2 ^ n + streamField s (p + 1) n := by
  rw [Nat.add_comm n 1, streamField_add]
  simp [streamField]

/-- Two states agree on a field whose bytes they agree on. -/
theorem streamField_congr {s x : State} {p n e : Nat} (hent : ∀ i, 8 * i < e → entAt s i = entAt x i)
    (h : n = 0 ∨ p + n ≤ e) : streamField s p n = streamField x p n := by
  induction n with
  | zero => rfl
  | succ n ih =>
    have hbit : streamBit s (p + n) = streamBit x (p + n) := by
      rw [streamBit, streamBit, hent _ (by omega)]
    rw [streamField, streamField, ih (by omega), hbit]

/-! ## Bit by bit -/

@[simp] theorem afterBit_rfail (s : State) : (afterBit s).rfail = false := rfl
@[simp] theorem streamEnd_afterBit (s : State) : streamEnd (afterBit s) = streamEnd s := rfl

/-- The result word of RDBIT is the bit itself. -/
@[simp] theorem afterBit_result_toNat (s : State) : (afterBit s).result.toNat = streamBit s (cursorPos s) := by
  have := streamBit_le s (cursorPos s)
  rw [afterBit, setResult_result, BitVec.toNat_ofNat, Nat.mod_eq_of_lt (by omega)]

@[simp] theorem streamField_afterBit (s : State) (p n : Nat) : streamField (afterBit s) p n = streamField s p n :=
  streamField_congr (fun _ _ => rfl) (.inr le_rfl)

theorem cursorPos_afterBit {s : State} (h : cursorPos s < streamEnd s) : cursorPos (afterBit s) = cursorPos s + 1 := by
  have := streamEnd_le s
  exact cursorPos_atPos s (by omega)

theorem bitsSingly_some {s : State} (n v : Nat) (hv : s.valid = true) (h : cursorPos s + n ≤ streamEnd s) :
    ∃ t, bitsSingly n v s = some (v * 2 ^ n + streamField s (cursorPos s) n, t) ∧
      t.byteIdx = (atPos (cursorPos s + n) s).byteIdx ∧ t.bitIdx = (atPos (cursorPos s + n) s).bitIdx := by
  induction n generalizing v s with
  | zero => exact ⟨s, by simp [bitsSingly, streamField]⟩
  | succ n ih =>
    have hlt : cursorPos s < streamEnd s := by omega
    have hpos := cursorPos_afterBit hlt
    obtain ⟨t, ht, hbyte, hbit⟩ := ih (s := afterBit s) (2 * v + streamBit s (cursorPos s)) hv
      (by rw [hpos, streamEnd_afterBit]; omega)
    rw [hpos, streamField_afterBit] at ht
    rw [hpos, Nat.add_right_comm] at hbyte hbit
    refine ⟨t, ?_, hbyte, hbit⟩
    simp only [bitsSingly, exec_rdbit_some hv hlt, afterBit_rfail, afterBit_result_toNat, Bool.false_eq_true, if_false]
    rw [ht, streamField_succ_left]
    congr 2
    ring

/-- Settles O16: both ways read the field at the cursor. -/
theorem bitsOneByOne : Obligations.BitsOneByOne := by
  intro s n hv hn h
  obtain ⟨t, ht, hbyte, hbit⟩ := bitsSingly_some n.toNat 0 hv h
  rw [Nat.zero_mul, Nat.zero_add] at ht
  exact ⟨_, t, _, ht, exec_rdbits_some hv hn (.inr h), rfl, streamField_lt .., rfl, hbyte.symm, hbit.symm⟩

/-! ## Alignment -/

theorem align_valid (s : State) : (align s).valid = s.valid := by
  obtain ⟨p, hp⟩ := align_atPos s
  rw [hp, atPos_valid]

/-- Settles O17, by the law of `Align()` and its idempotence. -/
theorem alignResult : Obligations.AlignResult := by
  refine fun s hv => ⟨align s, exec_align hv, ?_, align_eq s⟩
  rw [exec_align (by rw [align_valid, hv]), align_align]

/-! ## The stream alone -/

/-- Settles O18: whether the bits are left, the field they make and the cursor behind them are all of the stream and the
cursor. -/
theorem bitReaderReadsStreamOnly : Obligations.BitReaderReadsStreamOnly := by
  intro s x n hs hx hn hend hent hpos
  by_cases h : n.toNat = 0 ∨ cursorPos s + n.toNat ≤ streamEnd s
  · refine ⟨_, _, exec_rdbits_some hs hn h, exec_rdbits_some hx hn (by rwa [← hpos, ← hend]), ?_, rfl, ?_⟩
    · rw [setResult_result, setResult_result, streamField_congr hent h, hpos]
    · rw [hpos]; rfl
  · refine ⟨_, _, exec_rdbits_none hs hn h, exec_rdbits_none hx hn (by rwa [← hpos, ← hend]), rfl, rfl, ?_⟩
    rw [atEnd, atEnd, hpos, hend]; rfl

end Sys2Proof.Machine
end

section
/-! Code generation (41_huffman_engine R150, R151): what HTBUILD stores, and that the codes of valid counts fit their
lengths and none is the leading bits of another. -/

namespace Sys2Proof.Machine

variable {s t : State} {k : HuffClass} {i : Fin 4} {offs : Nat → Nat} {l l' j j' : Nat}

/-! ## HTBUILD -/

theorem exec_htbuild (hv : s.valid = true) : exec (.htbuild k i) s = .next (htbuildBody k i s).state := command_valid hv

theorem exec_htbuild_legal (hv : s.valid = true) (hs : (s.ht k i).set = true) (hl : OffsetsLegal s k i) :
    exec (.htbuild k i) s = .next (setHt k i (builtTable s k i) s) := by
  rw [exec_htbuild hv, htbuild_done s k i ((tableWellFormed_iff s k i).mpr ⟨hs, hl⟩), Ran.state_done]

theorem exec_htbuild_refused (hv : s.valid = true) (h : ¬ ((s.ht k i).set = true ∧ OffsetsLegal s k i)) :
    exec (.htbuild k i) s = .next (raise .table (setHt k i { s.ht k i with built := false } s)) := by
  rw [← tableWellFormed_iff, Bool.not_eq_true] at h
  rw [exec_htbuild hv, htbuild_raised s k i h, Ran.state_raised, setBuilt_eq]

/-- The entries of the store HTBUILD leaves: a code for each length, and above the last length what was there. -/
theorem find_builtTable (hl : OffsetsLegal s k i) (j : Nat) :
    (∀ l, HasLength s k i l j → (builtTable s k i).code.find j =
      some (BitVec.ofNat 32 (firstCode (offsAt s k i) (l - 1) + (j - offsAt s k i (l - 1))))) ∧
    (offsAt s k i 16 ≤ j → (builtTable s k i).code.find j = (s.ht k i).code.find j) := by
  obtain ⟨hin, hout⟩ := find_assignLengths (offs := offsAt s k i) (n := 16) (l := 1) le_rfl
    (fun l h1 h2 => hl.2.1 l h1 (by omega)) (s.ht k i).code j
  exact ⟨fun l ⟨h1, h16, hlo, hhi⟩ => hin l h1 (by omega) hlo hhi, fun h => hout (.inr h)⟩

/-- No code needs more than 24 bits (41_huffman_engine R150): the `j`-th code of `l` bits is at most `j * 2^(l-1)`. -/
theorem firstCode_add_lt (hl : OffsetsLegal s k i) (hj : HasLength s k i l j) :
    firstCode (offsAt s k i) (l - 1) + (j - offsAt s k i (l - 1)) < 2 ^ 24 := by
  obtain ⟨-, hmono, h162⟩ := hl
  obtain ⟨h1, h16, hlo, hhi⟩ := hj
  have hfirst := firstCode_le hmono (l := l - 1) (by omega)
  have hlast := offs_mono hmono h16 le_rfl
  have hpow : 2 ^ (l - 1) ≤ 2 ^ 15 := Nat.pow_le_pow_right (by simp) (by omega)
  calc firstCode (offsAt s k i) (l - 1) + (j - offsAt s k i (l - 1))
      ≤ offsAt s k i (l - 1) * 2 ^ (l - 1) + (j - offsAt s k i (l - 1)) * 2 ^ (l - 1) :=
        Nat.add_le_add hfirst (Nat.le_mul_of_pos_right _ (by positivity))
    _ = j * 2 ^ (l - 1) := by rw [← Nat.add_mul, Nat.add_sub_cancel' hlo]
    _ ≤ 162 * 2 ^ 15 := Nat.mul_le_mul (by omega) hpow
    _ < 2 ^ 24 := by norm_num

/-- Settles O19: the store HTBUILD leaves is `builtTable`, read entry by entry. -/
theorem htbuildResult : Obligations.HtbuildResult := by
  intro s k i hv
  exact ⟨fun hs hl => ⟨(builtTable s k i).code, exec_htbuild_legal hv hs hl,
      fun l j hj => (find_builtTable hl j).1 l hj, fun j hj => (find_builtTable hl j).2 hj,
      fun l j hj => firstCode_add_lt hl hj⟩,
    exec_htbuild_refused hv⟩

/-! ## Codes of valid counts -/

/-- The running value doubles at least once for each length. -/
theorem firstCode_mul_le (offs : Nat → Nat) (l d : Nat) : firstCode offs l * 2 ^ d ≤ firstCode offs (l + d) := by
  induction d with
  | zero => simp
  | succ d ih =>
    have hstep : firstCode offs (l + (d + 1)) = 2 * (firstCode offs (l + d) + codeCount offs (l + d + 1)) := rfl
    rw [hstep, pow_succ, ← Nat.mul_assoc]
    omega

/-- The running value, measured in codes of 15 bits, is the Kraft sum so far. -/
theorem firstCode_mul_eq_kraftSum (offs : Nat → Nat) (hl : l ≤ 15) :
    firstCode offs l * 2 ^ (15 - l) = kraftSum offs l := by
  induction l with
  | zero => simp [firstCode, kraftSum]
  | succ l ih =>
    have hpow : 2 ^ (15 - l) = 2 * 2 ^ (15 - (l + 1)) := by
      rw [← pow_succ', show 15 - (l + 1) + 1 = 15 - l by omega]
    rw [kraftSum, ← ih (by omega), firstCode, hpow, show 16 - (l + 1) = 15 - l by omega, hpow]
    ring

theorem kraftSum_mono (offs : Nat → Nat) : Monotone (kraftSum offs) :=
  monotone_nat_of_le_succ fun _ => Nat.le_add_right _ _

/-- Where the counts meet the Kraft sum, the running value behind the codes of `l` bits is at most `2^l`. -/
theorem firstCode_add_codeCount_le (hk : kraftSum offs 16 ≤ 2 ^ 16) (h1 : 1 ≤ l) (h16 : l ≤ 16) :
    firstCode offs (l - 1) + codeCount offs l ≤ 2 ^ l := by
  obtain ⟨m, rfl⟩ : ∃ m, l = m + 1 := ⟨l - 1, by omega⟩
  have hsum : (firstCode offs m + codeCount offs (m + 1)) * 2 ^ (16 - (m + 1)) = kraftSum offs (m + 1) := by
    rw [kraftSum, ← firstCode_mul_eq_kraftSum offs (by omega), show 16 - (m + 1) = 15 - m by omega, Nat.add_mul]
  refine Nat.le_of_mul_le_mul_right (c := 2 ^ (16 - (m + 1))) ?_ (by positivity)
  calc (firstCode offs m + codeCount offs (m + 1)) * 2 ^ (16 - (m + 1))
      = kraftSum offs (m + 1) := hsum
    _ ≤ 2 ^ 16 := (kraftSum_mono offs h16).trans hk
    _ = 2 ^ (m + 1) * 2 ^ (16 - (m + 1)) := by rw [← pow_add, Nat.add_sub_cancel' h16]

theorem CodesBuilt.lt (hb : CodesBuilt s k i) (hk : kraftSum (offsAt s k i) 16 ≤ 2 ^ 16) (hj : HasLength s k i l j) :
    (codeAt s k i j).toNat < 2 ^ l := by
  rw [hb l j hj]
  obtain ⟨h1, h16, hlo, hhi⟩ := hj
  have := firstCode_add_codeCount_le hk h1 h16
  unfold codeCount at this
  omega

/-- A code and its successor, extended by zeros to a greater length, are not above the codes of that length. -/
theorem CodesBuilt.succ_mul_le (hb : CodesBuilt s k i) (hj : HasLength s k i l j) (hj' : HasLength s k i l' j')
    (hlt : l < l') : ((codeAt s k i j).toNat + 1) * 2 ^ (l' - l) ≤ (codeAt s k i j').toNat := by
  rw [hb l j hj, hb l' j' hj']
  obtain ⟨h1, h16, hlo, hhi⟩ := hj
  obtain ⟨m, rfl⟩ : ∃ m, l = m + 1 := ⟨l - 1, by omega⟩
  have hnext : 2 * (firstCode (offsAt s k i) m + (j - offsAt s k i m) + 1) ≤ firstCode (offsAt s k i) (m + 1) := by
    simp only [Nat.add_sub_cancel] at hlo
    simp only [firstCode, codeCount, Nat.add_sub_cancel]
    omega
  calc (firstCode (offsAt s k i) m + (j - offsAt s k i m) + 1) * 2 ^ (l' - (m + 1))
      = 2 * (firstCode (offsAt s k i) m + (j - offsAt s k i m) + 1) * 2 ^ (l' - 1 - (m + 1)) := by
        rw [show l' - (m + 1) = l' - 1 - (m + 1) + 1 by omega, pow_succ]; ring
    _ ≤ firstCode (offsAt s k i) (m + 1) * 2 ^ (l' - 1 - (m + 1)) := Nat.mul_le_mul_right _ hnext
    _ ≤ firstCode (offsAt s k i) (l' - 1) := by
        have := firstCode_mul_le (offsAt s k i) (m + 1) (l' - 1 - (m + 1))
        rwa [Nat.add_sub_cancel' (by omega)] at this
    _ ≤ _ := Nat.le_add_right _ _

/-- No code of a table HTBUILD has filled is the leading bits of another. -/
theorem CodesBuilt.prefixFree (hb : CodesBuilt s k i) (hj : HasLength s k i l j) (hj' : HasLength s k i l' j')
    (hne : j ≠ j') (hle : l ≤ l') : (codeAt s k i j').toNat / 2 ^ (l' - l) ≠ (codeAt s k i j).toNat := by
  intro h
  rcases Nat.lt_or_eq_of_le hle with hlt | rfl
  · have := (Nat.le_div_iff_mul_le (by positivity)).mpr (hb.succ_mul_le hj hj' hlt)
    omega
  · rw [Nat.sub_self, pow_zero, Nat.div_one, hb l j' hj', hb l j hj] at h
    have hlo := hj.2.2.1
    have hlo' := hj'.2.2.1
    omega

/-- Settles O20: HTBUILD keeps the offsets and leaves the codes they give. -/
theorem codesPrefixFree : Obligations.CodesPrefixFree := by
  intro s t k i hv hs hl hk h l j l' j' hj hj'
  rw [exec_htbuild_legal hv hs hl] at h
  cases h
  have hb := codesBuilt_built s k i hl
  rw [← offsAt_built s k i k i] at hk
  exact ⟨hb.lt hk hj, fun hne hle => hb.prefixFree hj hj' hne hle⟩

end Sys2Proof.Machine
end

section
/-! Symbol decode (41_huffman_engine R151, R153, R154, R164): DECSYM, and that it recovers the symbols of codes emitted one
after another. -/

namespace Sys2Proof.Machine

variable {s : State} {k : HuffClass} {i : Fin 4} {p l j : Nat}

/-! ## DECSYM -/

theorem exec_decsym (hv : s.valid = true) : exec (.decsym k i) s = .next (decsymBody k i s).state := command_valid hv

theorem exec_decsym_firstMatch (hv : s.valid = true) (hr : Ready s k i) (hf : FirstMatch s k i (cursorPos s) l j) :
    exec (.decsym k i) s = .next (setResult ((symAt s k i j).setWidth 32) (atPos (cursorPos s + l) s)) := by
  rw [exec_decsym hv, decsymBody, require_pos ((tableReady_iff s k i).mpr hr), decodeSymbol_of_firstMatch hf]
  rfl

theorem exec_decsym_noCode (hv : s.valid = true) (hr : Ready s k i) (hn : NoCode s k i (cursorPos s)) :
    exec (.decsym k i) s = .next (setFail (lostCode (cursorPos s) s)) := by
  rw [exec_decsym hv, decsymBody, require_pos ((tableReady_iff s k i).mpr hr), decodeSymbol_of_noCode hn]
  rfl

theorem exec_decsym_notReady (hv : s.valid = true) (hr : ¬ Ready s k i) :
    exec (.decsym k i) s = .next (raise .table s) := by
  rw [← tableReady_iff, Bool.not_eq_true] at hr
  rw [exec_decsym hv, decsymBody, require_neg hr, Ran.state_raised]

/-- Where a code at the cursor is lost, the cursor goes behind 16 bits, or to the end of the stream. -/
theorem lostCode_cursorPos (s : State) : lostCode (cursorPos s) s =
    if cursorPos s + 16 ≤ streamEnd s then raise .nocode (atPos (cursorPos s + 16) s)
    else raise .underrun (atPos (max (cursorPos s) (streamEnd s)) s) := by
  rw [lostCode, atPos_cursorPos, atEnd]

/-- Settles O21: a ready table has a first match at the cursor or no code. -/
theorem decsymResult : Obligations.DecsymResult := by
  refine fun s k i hv => ⟨fun l j hr hf => exec_decsym_firstMatch hv hr hf, fun hr hn => ?_, exec_decsym_notReady hv⟩
  rw [exec_decsym_noCode hv hr hn, lostCode_cursorPos, setFail]

/-! ## Emitted codes -/

/-- The leading bits of a field. -/
theorem streamField_div (s : State) (p m n : Nat) : streamField s p (m + n) / 2 ^ n = streamField s p m := by
  rw [streamField_add, Nat.mul_comm, Nat.mul_add_div (by positivity), Nat.div_eq_of_lt (streamField_lt ..), Nat.add_zero]

/-- In a table HTBUILD has filled an entry has one length. -/
theorem HasLength.unique {l' : Nat} (hl : OffsetsLegal s k i) (h : HasLength s k i l j) (h' : HasLength s k i l' j) :
    l = l' := by
  obtain ⟨h1, h16, hlo, hhi⟩ := h
  obtain ⟨h1', h16', hlo', hhi'⟩ := h'
  rcases Nat.lt_trichotomy l l' with hlt | rfl | hlt
  · have := offs_mono hl.2.1 (x := l) (y := l' - 1) (by omega) (by omega)
    omega
  · rfl
  · have := offs_mono hl.2.1 (x := l') (y := l - 1) (by omega) (by omega)
    omega

/-- As no code is the leading bits of another, the code that stands at a position is the only one. -/
theorem CodeIs.firstMatch (hl : OffsetsLegal s k i) (hb : CodesBuilt s k i) (h : CodeIs s k i p l j)
    (he : p + l ≤ streamEnd s) : FirstMatch s k i p l j := by
  have unique : ∀ {a b x y}, CodeIs s k i p a x → CodeIs s k i p b y → a ≤ b → x = y := by
    intro a b x y ⟨hx, ex⟩ ⟨hy, ey⟩ hab
    by_contra hne
    refine hb.prefixFree hx hy hne hab ?_
    have := streamField_div s p a (b - a)
    rwa [Nat.add_sub_cancel' hab, ← ex, ← ey] at this
  refine ⟨h, he, fun l' j' h' => ?_⟩
  rcases Nat.lt_or_ge l l' with hlt | hge
  · exact .inl hlt
  · obtain rfl := unique h' h hge
    exact .inr ⟨h'.1.unique hl h.1, le_rfl⟩

/-! The stream and the tables behind a returned result are those before. -/

@[simp] theorem streamEnd_setResult (v : Word) : streamEnd (setResult v s) = streamEnd s := rfl
@[simp] theorem cursorPos_setResult (v : Word) : cursorPos (setResult v s) = cursorPos s := rfl
@[simp] theorem symAt_setResult (v : Word) : symAt (setResult v s) k i j = symAt s k i j := by cases k <;> rfl
@[simp] theorem ready_setResult (v : Word) : Ready (setResult v s) k i ↔ Ready s k i := by simp [Ready]
@[simp] theorem ready_atPos (q : Nat) : Ready (atPos q s) k i ↔ Ready s k i := by simp [Ready]

@[simp] theorem codeIs_setResult (v : Word) : CodeIs (setResult v s) k i p l j ↔ CodeIs s k i p l j := by
  have hfield : streamField (setResult v s) p l = streamField s p l := streamField_congr (fun _ _ => rfl) (.inr le_rfl)
  have hoffs : offsAt (setResult v s) k i = offsAt s k i := by cases k <;> rfl
  have hcode : codeAt (setResult v s) k i = codeAt s k i := by cases k <;> rfl
  rw [CodeIs, CodeIs, HasLength, HasLength, hfield, hoffs, hcode]

@[simp] theorem firstMatch_setResult (v : Word) : FirstMatch (setResult v s) k i p l j ↔ FirstMatch s k i p l j := by
  simp [FirstMatch]

@[simp] theorem emitted_setResult (v : Word) (js : List Nat) :
    Emitted (setResult v s) k i p js ↔ Emitted s k i p js := by
  induction js generalizing p with
  | nil => rfl
  | cons j js ih => simp [Emitted, ih]

@[simp] theorem emitted_atPos (q : Nat) (js : List Nat) : Emitted (atPos q s) k i p js ↔ Emitted s k i p js := by
  induction js generalizing p with
  | nil => rfl
  | cons j js ih => simp [Emitted, ih]

/-- Where every code that stands in the stream is the first match, emitted codes are read one by one. -/
theorem readSymbols_of_emitted {js : List Nat} (hv : s.valid = true) (hr : Ready s k i)
    (hf : ∀ p l j, CodeIs s k i p l j → p + l ≤ streamEnd s → FirstMatch s k i p l j)
    (h : Emitted s k i (cursorPos s) js) :
    ∃ t, readSymbols k i js.length s = some (js.map fun j => (symAt s k i j).setWidth 32, t) ∧ t.valid = true := by
  induction js generalizing s with
  | nil => exact ⟨s, rfl, hv⟩
  | cons j js ih =>
    obtain ⟨l, hc, he, hrest⟩ := h
    have hm := hf _ l j hc he
    obtain ⟨t, ht, htv⟩ := ih (s := setResult ((symAt s k i j).setWidth 32) (atPos (cursorPos s + l) s)) hv
      (by simpa using hr) (by simpa using hf) (by simpa [cursorPos_atPos s hm.lt.1] using hrest)
    refine ⟨t, ?_, htv⟩
    simp only [List.length_cons, readSymbols, exec_decsym_firstMatch hv hr hm, ht]
    simp

/-- Settles O22: each emitted code is the first match where it stands. -/
theorem symbolsRecovered : Obligations.SymbolsRecovered := fun _ _ _ _ hv hr hl hb _ h =>
  readSymbols_of_emitted hv hr (fun _ _ _ hc he => hc.firstMatch hl hb he) h

end Sys2Proof.Machine
end

section
/-! The checks of the decode commands, in their order: SEQUENCE, CONFIG, TABLE (41_huffman_engine R156 to R164, 60_exceptions
R276).  The three commands on one block share them, and so do the two on units. -/

namespace Sys2Proof.Machine

variable {s u : State} {c : Fin 3} {i : Instr}

/-! ## The commands by their procedures -/

theorem exec_decdc (hv : s.valid = true) :
    exec (.decdc (compArg c)) s = .next (blockChecks c (dcReady c) s (decodeDC c)).state :=
  (compCommand_compArg c decdcBody s).trans (command_valid hv)

theorem exec_decac (hv : s.valid = true) :
    exec (.decac (compArg c)) s = .next (blockChecks c (acReady c) s (decodeAC c)).state :=
  (compCommand_compArg c decacBody s).trans (command_valid hv)

theorem exec_decblk (hv : s.valid = true) :
    exec (.decblk (compArg c)) s =
      .next (blockChecks c (fun s => dcReady c s && acReady c s) s (decodeBlock c)).state :=
  (compCommand_compArg c decblkBody s).trans (command_valid hv)

theorem dcReady_iff : dcReady c s = true ↔ Ready s .dc (dcTableOf s c) := tableReady_iff ..

theorem acReady_iff : acReady c s = true ↔ Ready s .ac (acTableOf s c) := tableReady_iff ..

theorem blockTablesReady_iff :
    (dcReady c s && acReady c s) = true ↔ Ready s .dc (dcTableOf s c) ∧ Ready s .ac (acTableOf s c) := by
  rw [Bool.and_eq_true, dcReady_iff, acReady_iff]

/-! ## Blocks -/

/-- The commands on one block check alike and differ in the tables they use and in what they then decode. -/
theorem exec_blockCommand (hv : s.valid = true)
    (hi : i ∈ [Instr.decdc (compArg c), .decac (compArg c), .decblk (compArg c)]) :
    ∃ tables go, exec i s = .next (blockChecks c tables s go).state := by
  simp only [List.mem_cons, List.not_mem_nil, or_false] at hi
  rcases hi with rfl | rfl | rfl
  · exact ⟨_, _, exec_decdc hv⟩
  · exact ⟨_, _, exec_decac hv⟩
  · exact ⟨_, _, exec_decblk hv⟩

theorem exec_block_sequence (hv : s.valid = true)
    (hi : i ∈ [Instr.decdc (compArg c), .decac (compArg c), .decblk (compArg c)]) (hp : s.phase ≠ .decode) :
    exec i s = .next (raise .sequence s) := by
  obtain ⟨tables, go, e⟩ := exec_blockCommand hv hi
  rw [e, blockChecks_sequence hp, Ran.state_raised]

theorem exec_block_config (hv : s.valid = true)
    (hi : i ∈ [Instr.decdc (compArg c), .decac (compArg c), .decblk (compArg c)]) (hp : s.phase = .decode)
    (hc : ¬ ((s.ncomp.toNat = 1 ∨ s.ncomp.toNat = 3) ∧ c.val < s.ncomp.toNat)) :
    exec i s = .next (raise .config s) := by
  obtain ⟨tables, go, e⟩ := exec_blockCommand hv hi
  rw [e, blockChecks_config hp hc, Ran.state_raised]

/-! ## Units -/

theorem decmcuBody_sequence (hp : s.phase ≠ .decode) : decmcuBody s = .raised (raise .sequence s) := by
  rw [decmcuBody, require_neg (decide_eq_false hp)]

theorem decmcuBody_config (hp : s.phase = .decode) (hc : ¬ (s.ncomp.toNat = 1 ∨ s.ncomp.toNat = 3)) :
    decmcuBody s = .raised (raise .config s) := by
  rw [← ncompOk_iff, Bool.not_eq_true] at hc
  rw [decmcuBody, require_pos (decide_eq_true hp), require_neg hc]

theorem decmcuBody_table (hp : s.phase = .decode) (hc : s.ncomp.toNat = 1 ∨ s.ncomp.toNat = 3)
    (hlt : c.val < s.ncomp.toNat) (ht : ¬ (Ready s .dc (dcTableOf s c) ∧ Ready s .ac (acTableOf s c))) :
    decmcuBody s = .raised (raise .table s) := by
  have hall : ¬ allReady s = true := fun h => ht ((allReady_iff hc).mp h c hlt)
  rw [decmcuBody, require_pos (decide_eq_true hp), require_pos ((ncompOk_iff s).mpr hc),
    require_neg (Bool.eq_false_iff.mpr hall)]

theorem exec_decscan (hv : s.valid = true) : exec .decscan s = .next (decscanBody s).state := command_valid hv

/-- In phase DECODE, DECSCAN is its loop. -/
theorem decscanBody_of_decode (hp : s.phase = .decode) : decscanBody s = scanFrom (unitsLeft s) s := by
  rw [decscanBody, require_pos (decide_eq_true hp)]

/-- DECSCAN raises what its first unit raises. -/
theorem decscanBody_of_raised (hp : s.phase = .decode) (h : decmcuBody s = .raised u) : decscanBody s = .raised u := by
  rw [decscanBody_of_decode hp, unitsLeft, scanFrom, if_pos hp, h, Ran.andThen_raised]

/-- DECMCU and DECSCAN check alike. -/
theorem exec_unit_of_raised (hv : s.valid = true) (hi : i ∈ [Instr.decmcu, .decscan]) (hp : s.phase = .decode)
    (h : decmcuBody s = .raised u) : exec i s = .next u := by
  simp only [List.mem_cons, List.not_mem_nil, or_false] at hi
  rcases hi with rfl | rfl
  · rw [exec_decmcu hv, h, Ran.state_raised]
  · rw [exec_decscan hv, decscanBody_of_raised hp h, Ran.state_raised]

theorem exec_unit_sequence (hv : s.valid = true) (hi : i ∈ [Instr.decmcu, .decscan]) (hp : s.phase ≠ .decode) :
    exec i s = .next (raise .sequence s) := by
  simp only [List.mem_cons, List.not_mem_nil, or_false] at hi
  rcases hi with rfl | rfl
  · rw [exec_decmcu hv, decmcuBody_sequence hp, Ran.state_raised]
  · rw [exec_decscan hv, decscanBody, require_neg (decide_eq_false hp), Ran.state_raised]

/-- Settles O23: the commands on a block share one sequence of checks, and so do those on units. -/
theorem decodeChecks : Obligations.DecodeChecks := by
  intro s hv legal dc ac
  refine ⟨fun c i hi => ?_, fun c hp hc i hi => exec_block_config hv hi hp fun h => absurd h.2 (by omega),
    fun c hp hl hc => ⟨fun h => ?_, fun h => ?_, fun h => ⟨?_, fun i hi =>
      exec_unit_of_raised hv hi hp (decmcuBody_table hp hl hc h)⟩⟩⟩
  · rcases List.mem_append.mp (show i ∈ [Instr.decdc (compArg c), .decac (compArg c), .decblk (compArg c)] ++
      [.decmcu, .decscan] from hi) with hi | hi
    · exact ⟨exec_block_sequence hv hi, fun hp hl => exec_block_config hv hi hp fun h => hl h.1⟩
    · exact ⟨exec_unit_sequence hv hi, fun hp hl => exec_unit_of_raised hv hi hp (decmcuBody_config hp hl)⟩
  · rw [exec_decdc hv, blockChecks_table hp hl hc (Bool.eq_false_iff.mpr <| mt dcReady_iff.mp h), Ran.state_raised]
  · rw [exec_decac hv, blockChecks_table hp hl hc (Bool.eq_false_iff.mpr <| mt acReady_iff.mp h), Ran.state_raised]
  · rw [exec_decblk hv, blockChecks_table hp hl hc (Bool.eq_false_iff.mpr <| mt blockTablesReady_iff.mp h), Ran.state_raised]

end Sys2Proof.Machine
end

section
/-! The commands on one block where their checks pass (41_huffman_engine R155 to R160, R166): what they do on items that stand
at the cursor and on items that break. -/

namespace Sys2Proof.Machine

variable {s u : State} {c : Fin 3}

theorem exec_decdc_ready (hb : BlockReady c s) (hr : Ready s .dc (dcTableOf s c)) :
    exec (.decdc (compArg c)) s = .next (decodeDC c s).state := by
  rw [exec_decdc hb.1, blockChecks_ready hb (dcReady_iff.mpr hr)]

theorem exec_decac_ready (hb : BlockReady c s) (hr : Ready s .ac (acTableOf s c)) :
    exec (.decac (compArg c)) s = .next (decodeAC c s).state := by
  rw [exec_decac hb.1, blockChecks_ready hb (acReady_iff.mpr hr)]

theorem exec_decblk_ready (hb : BlockReady c s) (hd : Ready s .dc (dcTableOf s c)) (ha : Ready s .ac (acTableOf s c)) :
    exec (.decblk (compArg c)) s = .next (decodeBlock c s).state := by
  rw [exec_decblk hb.1, blockChecks_ready hb (blockTablesReady_iff.mpr ⟨hd, ha⟩)]

theorem exec_decdc_of_item {diff : Int} {p' : Nat} (hb : BlockReady c s) (hr : Ready s .dc (dcTableOf s c))
    (hd : DcItem s (dcTableOf s c) (cursorPos s) diff p') (hf : fits (predAt s c + diff) = true) :
    exec (.decdc (compArg c)) s =
      .next (atPos p' (putCoef c 0 (predAt s c + diff) (setPred c (predAt s c + diff) s))) := by
  rw [exec_decdc_ready hb hr, decodeDC_of_item s c hd, if_pos hf, Ran.state_done]

theorem exec_decdc_of_breaks (hb : BlockReady c s) (hr : Ready s .dc (dcTableOf s c)) (h : DcBreaks c s u) :
    exec (.decdc (compArg c)) s = .next u := by
  rw [exec_decdc_ready hb hr, decodeDC_of_breaks h, Ran.state_raised]

/-- Settles O24: a good DC item is decoded, and each fault is a way for a DC item to break. -/
theorem decdcResult : Obligations.DecdcResult := by
  intro s c hb hr d p
  have breaks : ∀ {u}, DcBreaks c s u → exec (.decdc (compArg c)) s = .next u := exec_decdc_of_breaks hb hr
  refine ⟨fun diff p' hd hf => ?_, fun hn => breaks (.inl ⟨hn, rfl⟩),
    fun l j hm h12 => breaks (.inr (.inl ⟨l, j, hm, .inl ⟨h12, rfl⟩⟩)),
    fun l j hm h11 he => breaks (.inr (.inl ⟨l, j, hm, .inr ⟨h11, he, rfl⟩⟩)),
    fun diff p' hd hf => breaks (.inr (.inr ⟨diff, p', hd, hf, rfl⟩))⟩
  have e := exec_decdc_of_item hb hr hd hf
  refine ⟨_, e, rfl, cursorPos_atPos _ hd.bounds.2.1, ?_, fun x hx => ?_, ?_, fun v q x hq hx hn => ?_⟩
  · rw [predAt_atPos, predAt_putCoef, predAt_setPred_same s c hf]
  · exact exec_pred_of_comp (.inl rfl) (compIndex_compArg c) hx e
  · exact Grid.read_put_same _ _ _ _ hf
  · exact decdc_grid ⟨c, compIndex_compArg c, hb.2.1, diff, p', hd, hf, rfl⟩ hq hx hn

/-- Settles O25: the values of the items fill the zigzag positions from 1 to 64. -/
theorem decacResult : Obligations.DecacResult := by
  intro s c vs p' hb hr ha
  have hlen := (ha.bounds (by omega)).1
  exact ⟨by omega, by rw [exec_decac_ready hb hr, decodeAC_of_items s c ha, Ran.state_done]⟩

/-- Settles O28: a block decodes or breaks, and DECBLK follows it. -/
theorem decblkResult : Obligations.DecblkResult := by
  intro s c hb hd ha
  refine ⟨fun t ht => ?_, fun u hu => ?_, block_good_or_breaks c s⟩
  · rw [exec_decblk_ready hb hd ha, decodeBlock_of_decodes ht, Ran.state_done]
  · rw [exec_decblk_ready hb hd ha, decodeBlock_of_breaks hu, Ran.state_raised]

end Sys2Proof.Machine
end

section
/-! Units and scans (41_huffman_engine R161 to R163): the restart rule, and DECSCAN as units one after another. -/

namespace Sys2Proof.Machine

variable {s u : State}

/-! ## The restart rule -/

theorem restartDue_iff (s : State) : restartDue s = true ↔ s.rsti ≠ 0 ∧ s.blkIdx.toNat % s.rsti.toNat = 0 :=
  decide_eq_true_iff

/-- Settles O30: where a segment opens the predictors are cleared and `Align()` moves the cursor or not. -/
theorem restartRule : Obligations.RestartRule := by
  refine fun s => ⟨fun h0 hm => ?_, fun h => if_neg (mt (restartDue_iff s).mp h)⟩
  have e : restartCheck s = align (clearPred s) := if_pos ((restartDue_iff s).mpr ⟨h0, hm⟩)
  rw [align_eq] at e
  by_cases hc : s.byteIdx.toNat < min s.entLen.toNat s.cfg.entCap.toNat ∧ s.bitIdx ≠ 0#3
  · exact ⟨s.byteIdx + 1, 0, e.trans (if_pos hc), fun _ _ => ⟨rfl, rfl⟩, fun h => absurd hc h⟩
  · exact ⟨s.byteIdx, s.bitIdx, e.trans (if_neg hc), fun h1 h2 => absurd ⟨h1, h2⟩ hc, fun _ => ⟨rfl, rfl⟩⟩

/-! ## DECSCAN -/

/-- A scan that breaks does so in a unit, in phase DECODE. -/
theorem ScanBreaks.broken (h : ScanBreaks s u) (hr : UnitReady s) : u.valid = false ∧ u.phase = .decode := by
  induction h with
  | here s u hu =>
    have hv := hu.valid hr
    exact ⟨hv, (exec_decmcu_of_invalid hr.1 (exec_decmcu_of_breaks hr hu) hv).2.trans hr.2.1⟩
  | later s m u hm hp _ ih => exact ih (hm.ready hr hp)

/-- Settles O32: the loop runs over the units that stand in the stream, up to the one that breaks. -/
theorem decscanResult : Obligations.DecscanResult := by
  refine fun s t hr _ => ⟨fun h => ?_, fun h => ⟨?_, h.broken hr⟩⟩
  · obtain ⟨e, hend⟩ := scanFrom_of_decodes h hr
    exact ⟨by rw [exec_decscan hr.1, decscanBody_of_decode hr.2.1, e, Ran.state_done], hend⟩
  · rw [exec_decscan hr.1, decscanBody_of_decode hr.2.1, scanFrom_of_breaks h hr, Ran.state_raised]

theorem unitsLeft_eq (h : s.blkIdx.toNat < s.nUnits.toNat) : unitsLeft s = s.nUnits.toNat - s.blkIdx.toNat := by
  unfold unitsLeft
  bv_omega

/-- Settles O33: the loop of DECSCAN has so many turns, each a DECMCU; with `VALID = 0` neither does anything. -/
theorem decscanIsDecmcu : Obligations.DecscanIsDecmcu := by
  intro s hp hlt
  cases hv : s.valid
  · exact (execTimes_invalid hv _).trans (command_invalid hv).symm
  · rw [exec_decscan hv, decscanBody_of_decode hp, ← unitsLeft_eq hlt, execTimes_decmcu hv hp le_rfl]

end Sys2Proof.Machine
end

section
/-! The faults of DECAC (60_exceptions R263, R264, R266, R267, R276) and the entropy symbols run alone (42_entropy_symbols
R180 to R187, log 2): a lone symbol is its procedure in the context of the state, so the law of the procedure says what
it does. -/

namespace Sys2Proof.Machine

variable {s u : State} {c : Fin 3}

/-! ## DECAC on a stream that breaks -/

theorem exec_decac_of_breaks (hb : BlockReady c s) (hr : Ready s .ac (acTableOf s c)) (h : AcBreaks c s u) :
    exec (.decac (compArg c)) s = .next u := by
  rw [exec_decac_ready hb hr, decodeAC_of_breaks h, Ran.state_raised]

/-- Settles O26: each fault is a way for the item behind the good ones to break. -/
theorem decacStreamFaults : Obligations.DecacStreamFaults := by
  intro s c vs k q hb hr ha hk tab
  have breaks : ∀ {u}, AcItemBreaks s tab k q u → exec (.decac (compArg c)) s = .next u :=
    fun h => exec_decac_of_breaks hb hr ⟨vs, k, q, ha, hk, h⟩
  exact ⟨fun hn => breaks (.inl ⟨hn, rfl⟩), fun l j hm =>
    ⟨fun h11 => breaks (.inr ⟨l, j, hm, .inl ⟨h11, rfl⟩⟩),
      fun h10 hne hge => breaks (.inr ⟨l, j, hm, .inr (.inl ⟨h10, hne, hge, rfl⟩)⟩),
      fun h1 h10 hlt he => breaks (.inr ⟨l, j, hm, .inr (.inr ⟨h1, h10, hlt, he, rfl⟩)⟩)⟩⟩

/-! ## A symbol in the context of the state -/

theorem loneDc_valid {f : Fin 3 → State → Ran Unit} (hv : s.valid = true) :
    loneDc f s = .next (f s.sym.comp s).state := command_valid hv

theorem loneAc_of_done {f : Fin 3 → Nat → State → Ran Nat} {k : Nat} {m : State} (hv : s.valid = true)
    (h : f s.sym.comp s.sym.k s = .done k m) : loneAc f s = .next { m with sym := { m.sym with k := k } } := by
  rw [loneAc, command_valid hv, h, storeK_done, Ran.state_done]

theorem loneAc_of_raised {f : Fin 3 → Nat → State → Ran Nat} (hv : s.valid = true)
    (h : f s.sym.comp s.sym.k s = .raised u) : loneAc f s = .next u := by
  rw [loneAc, command_valid hv, h, storeK, Ran.andThen_raised, Ran.state_raised]

/-! ## DC symbols -/

/-- Settles O42: the three ways DCCAT ends. -/
theorem dccatResult : Obligations.DccatResult := by
  intro s cat hv _ c p v
  have e : exec (.dccat cat) s = .next (symDccat cat c s).state := loneDc_valid hv
  rw [symDccat_eq] at e
  refine ⟨fun h hf => ?_, fun h hf => ?_, fun h => ?_⟩
  · rw [e, if_pos h.symm, if_pos hf, Ran.state_done]
  · rw [e, if_pos h.symm, if_neg (Bool.eq_false_iff.mp hf), Ran.state_raised]
  · rw [e, if_neg (mt Or.symm h), Ran.state_raised]; rfl

/-- Settles O43: the procedure of an illegal symbol is its fault. -/
theorem badSymbols : Obligations.BadSymbols :=
  fun _ hv => ⟨fun _ => loneDc_valid hv, fun _ _ => loneAc_of_raised hv rfl⟩

/-! ## Runs of zeros -/

/-- The state behind `n` zeros at the zigzag cursor of the context, which moves behind them. -/
def zerosStored (n : Nat) (s : State) : State :=
  { storeCoefs s.sym.comp s.sym.k (List.replicate n 0) s with sym := { s.sym with k := s.sym.k + n } }

theorem exec_eob (hv : s.valid = true) (hk : s.sym.k ≤ 64) : exec .eob s = .next (zerosStored (64 - s.sym.k) s) := by
  have h : symEob s.sym.comp s.sym.k s =
      .done (s.sym.k + (64 - s.sym.k)) (storeCoefs s.sym.comp s.sym.k (List.replicate (64 - s.sym.k) 0) s) := by
    rw [symEob, zeroFill_eq, Nat.add_sub_cancel' hk]
  have e := loneAc_of_done hv h
  rwa [storeCoefs_sym] at e

theorem loneAc_zeroRun {n : Nat} (hv : s.valid = true) (h : s.sym.k + n < 64) :
    loneAc (zeroRun n) s = .next (zerosStored n s) := by
  have e := loneAc_of_done hv ((zeroRun_eq s s.sym.comp n s.sym.k).trans (if_pos h))
  rwa [storeCoefs_sym] at e

theorem loneAc_zeroRun_raised {n : Nat} (hv : s.valid = true) (h : 64 ≤ s.sym.k + n) :
    loneAc (zeroRun n) s = .next (raise .acrun s) :=
  loneAc_of_raised hv ((zeroRun_eq s s.sym.comp n s.sym.k).trans (if_neg (by omega)))

/-- Settles O44: EOB fills the block, ZRL and ZRUN are runs of zeros. -/
theorem runSymbols : Obligations.RunSymbols := by
  rintro s _ hv rfl _ hk zeros
  exact ⟨exec_eob hv (by omega), loneAc_zeroRun hv, loneAc_zeroRun_raised hv,
    fun _ _ _ => ⟨loneAc_zeroRun hv, loneAc_zeroRun_raised hv⟩⟩

/-! ## Coefficients -/

/-- A raw value field of at least one bit encodes no zero, and its magnitude has no more bits. -/
theorem extend_ne_zero_and_abs_le {n v : Nat} (hn : 1 ≤ n) (hn' : n ≤ 11) (hv : v < 2 ^ n) :
    extend v n ≠ 0 ∧ |extend v n| ≤ 2 ^ n - 1 := by
  obtain ⟨small, large, -⟩ := extendRange.2 n hn hn'
  have hpos : (0 : Int) < 2 ^ (n - 1) := by positivity
  rw [abs_le]
  rcases Nat.lt_or_ge v (2 ^ (n - 1)) with h | h
  · obtain ⟨-, hlo, hhi⟩ := small v h
    omega
  · obtain ⟨-, hlo, hhi⟩ := large v h hv
    omega

/-- Settles O45: the run is checked before the field is read, and the field before the value is stored. -/
theorem accoefResult : Obligations.AccoefResult := by
  rintro s _ run size hv rfl _ _ h1 h10 p v
  have e := symAccoef_eq s s.sym.comp run size s.sym.k
  refine ⟨fun hr hf => ⟨?_, ?_⟩, fun hr hf => ?_, fun hr => ?_⟩
  · rw [if_pos hr, if_pos (.inr hf)] at e
    have e' := loneAc_of_done hv e
    rwa [atPos_sym, storeCoefs_sym] at e'
  · obtain ⟨h0, habs⟩ := extend_ne_zero_and_abs_le h1 (by omega) (streamField_lt s p size.toNat)
    have hpow : (2 : Int) ^ size.toNat ≤ 2 ^ 10 := pow_le_pow_right₀ (by norm_num) h10
    exact ⟨h0, habs.trans (by omega)⟩
  · rw [if_pos hr, if_neg (by omega)] at e
    exact loneAc_of_raised hv e
  · rw [if_neg (by omega)] at e
    exact loneAc_of_raised hv e

end Sys2Proof.Machine
end

section
/-! The checks of the grid stages (43_dequantizer R201, 44_inverse_dct R217, 45_color_converter R234, 60_exceptions R270)
and what DEQUANT makes of the blocks of the scan (43_dequantizer R200, R202). -/

namespace Sys2Proof.Machine

variable {s : State}

/-! ## The checks -/

theorem stageChecks_sequence {p : Phase} (h : s.phase ≠ p) (go : State → Ran Unit) :
    stageChecks p s go = .raised (raise .sequence s) := by
  rw [stageChecks, require_neg (decide_eq_false h)]

theorem stageChecks_config {p : Phase} (hp : s.phase = p) (hn : ¬ (s.ncomp.toNat = 1 ∨ s.ncomp.toNat = 3))
    (go : State → Ran Unit) : stageChecks p s go = .raised (raise .config s) := by
  rw [stageChecks, require_pos (decide_eq_true hp), require_neg (Bool.eq_false_iff.mpr (mt (ncompOk_iff s).mp hn))]

theorem exec_dequant (hv : s.valid = true) : exec .dequant s = .next (dequantBody s).state := command_valid hv

/-- Each grid stage begins with its checks. -/
theorem exec_stage {i : Instr} {p : Phase}
    (h : (i, p) ∈ [(Instr.dequant, Phase.coef), (.idct, .deq), (.color, .spatial)]) (hv : s.valid = true) :
    ∃ go, exec i s = .next (stageChecks p s go).state := by
  simp only [List.mem_cons, Prod.mk.injEq, List.not_mem_nil, or_false] at h
  obtain ⟨rfl, rfl⟩ | ⟨rfl, rfl⟩ | ⟨rfl, rfl⟩ := h
  · exact ⟨_, command_valid hv⟩
  · exact ⟨_, command_valid hv⟩
  · exact ⟨_, command_valid hv⟩

theorem dequantBody_of_unset (h : StageReady .coef s) {c : Fin 3} (hc : c.val < s.ncomp.toNat)
    (hq : s.qTables[qTableOf s c].set = false) : dequantBody s = .raised (raise .table s) := by
  have hnot : allQuantSet s = false := Bool.eq_false_iff.mpr fun hall => by
    have hset := (allQuantSet_iff h.2.2).mp hall c hc
    rw [hq] at hset
    exact Bool.false_ne_true hset
  rw [dequantBody, stageChecks_ready h, require_neg hnot]

/-- Settles O34: the three stages share one sequence of checks, behind which DEQUANT looks at the tables. -/
theorem stageChecks_in_order : Obligations.StageChecks := by
  refine fun s hv => ⟨fun i p hi => ?_, fun hr ⟨c, hc, hq⟩ => ?_⟩
  · obtain ⟨go, e⟩ := exec_stage hi hv
    exact ⟨fun hp => by rw [e, stageChecks_sequence hp, Ran.state_raised],
      fun hp hn => by rw [e, stageChecks_config hp hn, Ran.state_raised]⟩
  · rw [exec_dequant hv, dequantBody_of_unset hr hc hq, Ran.state_raised]

/-! ## The blocks of the scan -/

theorem inScan_iff (h : s.ncomp.toNat = 1 ∨ s.ncomp.toNat = 3) (u : Nat) (c : Fin 3) (i : Nat) :
    InScan s u c i ↔ (u < s.nUnits.toNat ∧ c ∈ components s) ∧ i < 64 := by
  rw [InScan, mem_components h, and_assoc]

/-- A stage that asks of every value that it fits completes with each element of the scan replaced by its value and every
other one kept, or raises RANGE. -/
theorem finishStage_inScan {f : Nat → Fin 3 → Grid → Option Grid} {val : Nat → Fin 3 → Grid → Nat → Int}
    (hop : BlockOp f (fun u c g => ∀ i, i < 64 → fits (val u c g i) = true) val) (q : Phase)
    (hn : s.ncomp.toNat = 1 ∨ s.ncomp.toNat = 3) :
    ((∀ u (c : Fin 3) i, InScan s u c i → fits (val u c s.grid i) = true) → ∃ g,
      finishStage q (overUnits s f) s = .done () { s with grid := g, phase := q } ∧
        (∀ u (c : Fin 3) i, InScan s u c i → g.word u c i = BitVec.ofInt 32 (val u c s.grid i)) ∧
        ∀ u p i : Nat, p < 3 → i < 64 → ¬ InScan s u p i → g.word u p i = s.grid.word u p i) ∧
    ((∃ u, ∃ c : Fin 3, ∃ i, InScan s u c i ∧ fits (val u c s.grid i) = false) →
      finishStage q (overUnits s f) s = .raised (raise .range s)) := by
  obtain ⟨completes, raises⟩ := finishStage_spec hop q s
  constructor
  · intro hfit
    obtain ⟨g, e, hg⟩ := completes fun u hu c hc i hi => hfit u c i ((inScan_iff hn u c i).mpr ⟨⟨hu, hc⟩, hi⟩)
    refine ⟨g, e, fun u c i h => ?_, fun u p i hp hi hout => hg.outside u p i hp hi ?_⟩
    · obtain ⟨hd, hi⟩ := (inScan_iff hn u c i).mp h
      exact hg.inside u c i hd hi
    · rintro ⟨c, hd, rfl⟩
      exact hout ((inScan_iff hn u c i).mpr ⟨hd, hi⟩)
  · rintro ⟨u, c, i, h, hbad⟩
    obtain ⟨⟨hu, hc⟩, hi⟩ := (inScan_iff hn u c i).mp h
    exact raises ⟨u, hu, c, hc, fun hall => by simp [hall i hi] at hbad⟩

/-! ## DEQUANT -/

theorem dequantBody_ready (h : StageReady .coef s)
    (hq : ∀ c : Fin 3, c.val < s.ncomp.toNat → s.qTables[qTableOf s c].set = true) :
    dequantBody s = finishStage .deq (overUnits s (dequantBlock s)) s := by
  rw [dequantBody, stageChecks_ready h, require_pos ((allQuantSet_iff h.2.2).mpr hq)]

/-- The laws of a product that fits (43_dequantizer R202). -/
theorem product_laws {u : Nat} {c : Fin 3} {i : Nat} {g' : Grid} (hf : fits (product s u c s.grid i) = true)
    (hw : g'.word u c i = BitVec.ofInt 32 (product s u c s.grid i)) :
    g'.read u c i = product s u c s.grid i ∧
      (s.grid.read u c i = 0 → g'.read u c i = 0) ∧
      (quantAt s (qTableOf s c) i = 1 → g'.word u c i = s.grid.word u c i) ∧
      (0 ≤ s.grid.read u c i → 0 ≤ g'.read u c i) ∧
      (s.grid.read u c i ≤ 0 → g'.read u c i ≤ 0) := by
  have hr : g'.read u c i = product s u c s.grid i := by rw [Grid.read, hw, toInt_ofInt_of_fits hf]
  have hq : (0 : Int) ≤ ((quantAt s (qTableOf s c) i).toNat : Int) := Int.natCast_nonneg _
  rw [hr, hw]
  refine ⟨rfl, fun h => ?_, fun h => ?_, fun h => mul_nonneg h hq, fun h => mul_nonpos_of_nonpos_of_nonneg h hq⟩
  · rw [product, h, zero_mul]
  · have one : product s u c s.grid i = s.grid.read u c i := by simp [product, h]
    rw [one, Grid.read, BitVec.ofInt_toInt]

/-- Settles O35: DEQUANT is the stage of the products, and each word it leaves obeys their laws. -/
theorem dequantResult : Obligations.DequantResult := by
  intro s hr hq _
  obtain ⟨completes, raises⟩ := finishStage_inScan (dequantBlock_op s) .deq hr.2.2
  rw [exec_dequant hr.1, dequantBody_ready hr hq]
  constructor
  · intro hfit
    obtain ⟨g, e, inside, outside⟩ := completes hfit
    exact ⟨_, by rw [e, Ran.state_done], rfl,
      fun u c i h => product_laws (hfit u c i h) (inside u c i h), outside⟩
  · intro hbad
    rw [raises hbad, Ran.state_raised]

end Sys2Proof.Machine
end

section
/-! The Inverse DCT: what IDCT makes of the blocks of the scan (44_inverse_dct R217), the exact arithmetic as the direct
transform over the reals (R210, R212, R216), and the laws of every transform the configuration names (R211, R213 to R215,
R219). -/

namespace Sys2Proof.Machine

variable {s : State} {F : Block}

/-! ## IDCT -/

theorem exec_idct_ready (h : StageReady .deq s) :
    exec .idct s = .next (finishStage .spatial (overUnits s (idctBlock s.cfg.idct)) s).state := by
  rw [← stageChecks_ready h fun s => finishStage .spatial (overUnits s (idctBlock s.cfg.idct)) s]
  exact command_valid h.1

/-- Settles O36: IDCT is the stage of the transforms, and each word it leaves reads back as its value. -/
theorem idctResult : Obligations.IdctResult := by
  intro s hr _
  obtain ⟨completes, raises⟩ := finishStage_inScan (idctBlock_op s.cfg.idct) .spatial hr.2.2
  rw [exec_idct_ready hr]
  constructor
  · intro hfit
    obtain ⟨g, e, inside, outside⟩ := completes hfit
    refine ⟨_, by rw [e, Ran.state_done], rfl, fun u c i h => ?_, outside⟩
    rw [Grid.read, inside u c i h, toInt_ofInt_of_fits (hfit u c i h)]
  · intro hbad
    rw [raises hbad, Ran.state_raised]

/-! ## Rounding the direct transform -/

theorem val_refPlusHalf (F : Block) (i : Nat) :
    (refPlusHalf F i).val = 16 * (refReal F (i / 8) (i % 8) + 1 / 2) := by
  rw [refPlusHalf, Z3.val_add, Z3.val_ofInt, val_refTimes16_eq]
  push_cast
  ring

theorem floor16_eq_of_val {z : Z3} {v : ℝ} (h : z.val = 16 * v) : z.floor16 = ⌊v⌋ := by
  rw [Z3.floor16_eq, h, mul_div_cancel_left₀ v (by norm_num)]

theorem idctRefAt_eq_floor (F : Block) (i : Nat) : idctRefAt F i = ⌊refReal F (i / 8) (i % 8) + 1 / 2⌋ :=
  floor16_eq_of_val (val_refPlusHalf F i)

theorem idctSrcAt_eq_trunc (F : Block) (i : Nat) :
    idctSrcAt F i = truncReal (refReal F (i / 8) (i % 8) + 1 / 2) := by
  have hval := val_refPlusHalf F i
  have hsign : (refPlusHalf F i).nonneg = true ↔ 0 ≤ refReal F (i / 8) (i % 8) + 1 / 2 := by
    rw [Z3.nonneg_iff, hval, mul_nonneg_iff_of_pos_left (by norm_num)]
  have hneg : (refPlusHalf F i).neg.val = 16 * -(refReal F (i / 8) (i % 8) + 1 / 2) := by
    rw [Z3.val_neg, hval, mul_neg]
  rw [idctSrcAt, truncReal, floor16_eq_of_val hval, floor16_eq_of_val hneg, Int.floor_neg, neg_neg]
  exact if_congr hsign rfl rfl

/-- Settles O37: the exact sum is sixteen times the direct transform, and its sign and floor are those of the real. -/
theorem idctIsDirectTransform : Obligations.IdctIsDirectTransform := by
  intro F y x _ hx
  have hdiv : (8 * y + x) / 8 = y := by omega
  have hmod : (8 * y + x) % 8 = x := by omega
  rw [idctRefAt_eq_floor, idctSrcAt_eq_trunc, hdiv, hmod]
  exact ⟨rfl, rfl⟩

/-! ## DC-only blocks -/

/-- Every coefficient but `F[0]` is zero (44_inverse_dct R215). -/
def AcZero (F : Block) : Prop := ∀ j, 1 ≤ j → j < 64 → F.getD j 0 = 0

theorem onlyDc_iff : onlyDc F = true ↔ AcZero F := by
  simp only [onlyDc, List.all_eq_true, List.mem_range, decide_eq_true_eq]
  constructor
  · intro h j h1 h64
    have e := h (j - 1) (by omega)
    rwa [Nat.sub_add_cancel h1] at e
  · exact fun h i hi => h (i + 1) (by omega) (by omega)

theorem val_basis_zero (x : Nat) : (basis x 0).val = rootTwo := by
  simp [basis, twoCosTable, Z1.val]

theorem val_refTimes16_of_acZero (h : AcZero F) (y x : Nat) : (refTimes16 F y x).val = 2 * F.getD 0 0 := by
  rw [val_refTimes16, Finset.sum_eq_single_of_mem 0 (by simp), Finset.sum_eq_single_of_mem 0 (by simp),
    val_basis_zero, val_basis_zero]
  · linear_combination (F.getD 0 0 : ℝ) * rootTwo_sq
  · intro u hu hne
    have hu := Finset.mem_range.mp hu
    rw [h _ (by omega) (by omega), Int.cast_zero, zero_mul, zero_mul]
  · intro v hv hne
    have hv := Finset.mem_range.mp hv
    refine Finset.sum_eq_zero fun u hu => ?_
    have hu := Finset.mem_range.mp hu
    rw [h _ (by omega) (by omega), Int.cast_zero, zero_mul, zero_mul]

/-- The direct transform of a DC-only block is `F[0] / 8` at every place (44_inverse_dct R219). -/
theorem refReal_of_acZero (h : AcZero F) (y x : Nat) : refReal F y x = F.getD 0 0 / 8 := by
  have e := val_refTimes16_of_acZero h y x
  rw [val_refTimes16_eq] at e
  linarith

theorem floor_intCast_div_eight (n : Int) : ⌊(n : ℝ) / 8⌋ = n / 8 := by
  have e := Int.floor_div_natCast (n : ℝ) 8
  rwa [Int.floor_intCast] at e

theorem truncReal_intCast_div_eight (n : Int) : truncReal ((n : ℝ) / 8) = n.tdiv 8 := by
  rw [truncReal]
  split
  · next h =>
    have hn : (0 : Int) ≤ n := by
      have : (0 : ℝ) ≤ n := by linarith
      exact_mod_cast this
    rw [floor_intCast_div_eight, Int.tdiv_eq_ediv_of_nonneg hn]
  · next h =>
    have hn : (0 : Int) ≤ -n := by
      have : (n : ℝ) ≤ 0 := by linarith
      have : n ≤ 0 := by exact_mod_cast this
      omega
    have e : (n : ℝ) / 8 = -(((-n : Int) : ℝ) / 8) := by push_cast; ring
    rw [e, Int.ceil_neg, floor_intCast_div_eight, ← Int.tdiv_eq_ediv_of_nonneg hn, Int.neg_tdiv, neg_neg]

theorem refReal_add_half_of_acZero (h : AcZero F) (y x : Nat) :
    refReal F y x + 1 / 2 = ((F.getD 0 0 + 4 : Int) : ℝ) / 8 := by
  rw [refReal_of_acZero h]
  push_cast
  ring

theorem idctRefAt_of_acZero (h : AcZero F) (i : Nat) : idctRefAt F i = (F.getD 0 0 + 4) / 8 := by
  rw [idctRefAt_eq_floor, refReal_add_half_of_acZero h, floor_intCast_div_eight]

theorem idctSrcAt_of_acZero (h : AcZero F) (i : Nat) : idctSrcAt F i = (F.getD 0 0 + 4).tdiv 8 := by
  rw [idctSrcAt_eq_trunc, refReal_add_half_of_acZero h, truncReal_intCast_div_eight]

theorem idctOtherAt_uniform (h : AcZero F) (i j : Nat) : idctOtherAt F i = idctOtherAt F j := by
  simp only [idctOtherAt, onlyDc_iff.mpr h, if_true]

theorem idctAt_uniform (choice : IdctChoice) (h : AcZero F) (i j : Nat) : idctAt choice F i = idctAt choice F j := by
  cases choice with
  | ref => exact (idctRefAt_of_acZero h i).trans (idctRefAt_of_acZero h j).symm
  | src => exact (idctSrcAt_of_acZero h i).trans (idctSrcAt_of_acZero h j).symm
  | other => exact idctOtherAt_uniform h i j

theorem idctAt_of_zero (choice : IdctChoice) (h : AcZero F) (h0 : F.getD 0 0 = 0) (i : Nat) :
    idctAt choice F i = 0 := by
  cases choice with
  | ref => exact (idctRefAt_of_acZero h i).trans (by rw [h0]; decide)
  | src => exact (idctSrcAt_of_acZero h i).trans (by rw [h0]; decide)
  | other => exact if_pos ⟨onlyDc_iff.mpr h, h0⟩

/-! ## The tolerance -/

theorem inTolerance_of_bounds (h : ∀ j, j < 64 → -2 ^ 28 ≤ F.getD j 0 ∧ F.getD j 0 ≤ 2 ^ 28) :
    inTolerance F = true := by
  rw [inTolerance, List.all_eq_true]
  intro v hv
  obtain ⟨j, hj, rfl⟩ := Vector.getElem_of_mem (Vector.mem_toList_iff.mp hv)
  have hget : F.getD j 0 = F[j] := by simp [Vector.getD, hj]
  have hb := h j hj
  rw [hget] at hb
  exact decide_eq_true (by omega)

theorem abs_cutToOne_le (d : Int) : |cutToOne d| ≤ 1 := by
  unfold cutToOne
  rw [abs_le]
  split
  · omega
  · split <;> omega

theorem abs_truncReal_sub_floor_le (v : ℝ) : |truncReal v - ⌊v⌋| ≤ 1 := by
  have hle := Int.floor_le_ceil v
  have hge := Int.ceil_le_floor_add_one v
  unfold truncReal
  rw [abs_le]
  split <;> omega

/-- Any other transform departs from `idct_ref` by a deviation cut to 1, taken at place 0 where `idct_ref` is uniform,
and not at all on the zero block. -/
theorem abs_idctOtherAt_sub_ref_le (ht : inTolerance F = true) (i : Nat) :
    |idctOtherAt F i - idctRefAt F i| ≤ 1 := by
  simp only [idctOtherAt, ht, if_true]
  split
  · next h =>
    rw [idctRefAt_of_acZero (onlyDc_iff.mp h.1), h.2]
    decide
  · have href : idctRefAt F (if onlyDc F then 0 else i) = idctRefAt F i := by
      split
      · next h => exact idctAt_uniform .ref (onlyDc_iff.mp h) 0 i
      · rfl
    rw [href, add_sub_cancel_left]
    exact abs_cutToOne_le _

theorem abs_idctAt_sub_ref_le (choice : IdctChoice) (h : ∀ j, j < 64 → -2 ^ 28 ≤ F.getD j 0 ∧ F.getD j 0 ≤ 2 ^ 28)
    (i : Nat) : |idctAt choice F i - idctRefAt F i| ≤ 1 := by
  cases choice with
  | ref => simp [idctAt]
  | src =>
    rw [idctAt, idctSrcAt_eq_trunc, idctRefAt_eq_floor]
    exact abs_truncReal_sub_floor_le _
  | other => exact abs_idctOtherAt_sub_ref_le (inTolerance_of_bounds h) i

/-- Settles O38: both roundings and the cut deviation are within 1 of the floor, and a DC-only block has one value. -/
theorem idctConforms : Obligations.IdctConforms := by
  refine fun choice F => ⟨fun h i _ => abs_idctAt_sub_ref_le choice h i, fun h i _ => ?_, fun h => ⟨?_, ?_⟩⟩
  · exact idctAt_of_zero choice (fun j _ hj => h j hj) (h 0 (by norm_num)) i
  · exact fun i j _ _ => idctAt_uniform choice h i j
  · exact fun i _ => ⟨idctRefAt_of_acZero h i, idctSrcAt_of_acZero h i⟩

/-! ## The size of the result -/

/-- By the Cauchy-Schwarz inequality: eight terms, whose squares add up to 16 (`basis_squares`). -/
theorem sum_abs_basis_sq_le {x : Nat} (hx : x < 8) : (∑ u ∈ Finset.range 8, |(basis x u).val|) ^ 2 ≤ 128 := by
  have h := sq_sum_le_card_mul_sum_sq (s := Finset.range 8) (f := fun u => |(basis x u).val|)
  simp only [sq_abs, basis_squares x hx, Finset.card_range] at h
  norm_num at h
  exact h

/-- A weaker form of 44_inverse_dct R211, with the factor 8 for 6.9794. -/
theorem abs_refReal_le {M : ℝ} (hM : ∀ j, j < 64 → |(F.getD j 0 : ℝ)| ≤ M) {y x : Nat} (hy : y < 8) (hx : x < 8) :
    |refReal F y x| ≤ 8 * M := by
  have hM0 : 0 ≤ M := (abs_nonneg _).trans (hM 0 (by norm_num))
  have term : ∀ v ∈ Finset.range 8, ∀ u ∈ Finset.range 8,
      |(F.getD (8 * v + u) 0 : ℝ) * (basis x u).val * (basis y v).val| ≤
        M * (|(basis y v).val| * |(basis x u).val|) := by
    intro v hv u hu
    have hj : 8 * v + u < 64 := by
      have := Finset.mem_range.mp hv
      have := Finset.mem_range.mp hu
      omega
    rw [mul_assoc, abs_mul, abs_mul, mul_comm |(basis x u).val|]
    exact mul_le_mul_of_nonneg_right (hM _ hj) (by positivity)
  have hsum : |16 * refReal F y x| ≤
      M * ((∑ v ∈ Finset.range 8, |(basis y v).val|) * ∑ u ∈ Finset.range 8, |(basis x u).val|) := by
    rw [← val_refTimes16_eq, val_refTimes16, Finset.sum_mul_sum, Finset.mul_sum]
    refine (Finset.abs_sum_le_sum_abs _ _).trans (Finset.sum_le_sum fun v hv => ?_)
    rw [Finset.mul_sum]
    exact (Finset.abs_sum_le_sum_abs _ _).trans (Finset.sum_le_sum (term v hv))
  have hprod : (∑ v ∈ Finset.range 8, |(basis y v).val|) * ∑ u ∈ Finset.range 8, |(basis x u).val| ≤ 128 := by
    linarith [two_mul_le_add_sq (∑ v ∈ Finset.range 8, |(basis y v).val|) (∑ u ∈ Finset.range 8, |(basis x u).val|),
      sum_abs_basis_sq_le hy, sum_abs_basis_sq_le hx]
  rw [abs_mul, abs_of_pos (by norm_num : (0 : ℝ) < 16)] at hsum
  linarith [mul_le_mul_of_nonneg_left hprod hM0]

theorem abs_idctRefAt_le {M : Int} (hM : ∀ j, j < 64 → |F.getD j 0| ≤ M) {i : Nat} (hi : i < 64) :
    |idctRefAt F i| ≤ 8 * M := by
  have h := abs_le.mp (abs_refReal_le (M := M) (fun j hj => by exact_mod_cast hM j hj)
    (show i / 8 < 8 by omega) (show i % 8 < 8 by omega))
  rw [idctRefAt_eq_floor, abs_le, Int.le_floor, ← Int.lt_add_one_iff, Int.floor_lt]
  push_cast
  constructor <;> linarith

/-- Settles O39: `idct_ref` stays within eight times the largest element, and every transform within 1 of it. -/
theorem idctInRange : Obligations.IdctInRange := by
  intro choice F h i hi
  have hmax : ∀ j, j < 64 → |F.getD j 0| ≤ 2 ^ 28 - 1 := by
    intro j hj
    obtain ⟨hlo, hhi⟩ := h j hj
    rw [abs_le]
    omega
  have href := abs_le.mp (abs_idctRefAt_le hmax hi)
  have htol := abs_le.mp (abs_idctAt_sub_ref_le choice (fun j hj => ⟨(h j hj).1.le, (h j hj).2.le⟩) i)
  rw [fits_iff]
  omega

end Sys2Proof.Machine
end

section
/-! The Color Converter: the channels as the printed formulas over the rationals (45_color_converter R230 to R233, R235),
and what COLOR leaves in the planes (R234) and where the samples of a pixel stand (20_memory R79). -/

namespace Sys2Proof.Machine

variable {s : State}

/-! ## The formulas -/

theorem clamp255_eq_max_min (v : Int) : clamp255 v = max 0 (min 255 v) := by
  unfold clamp255
  split_ifs <;> omega

theorem tdiv_of_nonpos {n : Int} (hn : n ≤ 0) (d : Int) : n.tdiv d = -(-n / d) := by
  rw [← Int.tdiv_eq_ediv_of_nonneg (by omega : 0 ≤ -n), Int.neg_tdiv, neg_neg]

theorem truncRat_intCast_div_natCast (n : Int) {d : Nat} (hd : 0 < d) : truncRat (n / d) = n.tdiv d := by
  have hd' : (0 : ℚ) < d := by exact_mod_cast hd
  rcases le_or_gt 0 n with hn | hn
  · have hq : 0 ≤ (n : ℚ) / d := div_nonneg (by exact_mod_cast hn) hd'.le
    rw [truncRat, if_pos hq, Rat.floor_intCast_div_natCast, Int.tdiv_eq_ediv_of_nonneg hn]
  · have hq : (n : ℚ) / d < 0 := div_neg_of_neg_of_pos (by exact_mod_cast hn) hd'
    rw [truncRat, if_neg hq.not_ge, Rat.ceil_intCast_div_natCast, tdiv_of_nonpos hn.le]

/-- Truncation and floor differ only below 0, where the clamp takes both to 0 (45_color_converter R235). -/
theorem clamp255_tdiv (n : Int) {d : Nat} (hd : 0 < d) : clamp255 (n.tdiv d) = clamp255 (n / d) := by
  rcases le_or_gt 0 n with hn | hn
  · rw [Int.tdiv_eq_ediv_of_nonneg hn]
  · have htrunc : 0 ≤ -n / (d : Int) := Int.ediv_nonneg (by omega) (Int.natCast_nonneg d)
    have hfloor : n / (d : Int) < 0 := Int.ediv_neg_of_neg_of_pos hn (by exact_mod_cast hd)
    rw [tdiv_of_nonpos hn.le, clamp255_eq_max_min, clamp255_eq_max_min]
    omega

theorem clamp255_tdiv_eq_truncRat (n : Int) {d : Nat} (hd : 0 < d) :
    clamp255 (n.tdiv d) = max 0 (min 255 (truncRat (n / d))) := by
  rw [clamp255_eq_max_min, truncRat_intCast_div_natCast n hd]

theorem clamp255_tdiv_eq_floor (n : Int) {d : Nat} (hd : 0 < d) :
    clamp255 (n.tdiv d) = max 0 (min 255 (n / d)) := by
  rw [clamp255_tdiv n hd, clamp255_eq_max_min]

/-- A channel with zero chroma: its numerator is a multiple of the denominator. -/
theorem clamp255_tdiv_eq_grayOf {n d y : Int} (hd : d ≠ 0) (h : n = d * (y + 128)) : clamp255 (n.tdiv d) = grayOf y := by
  rw [h, Int.mul_tdiv_cancel_left _ hd, grayOf]

theorem redOf_zero (y : Int) : redOf y 0 = grayOf y := clamp255_tdiv_eq_grayOf (by norm_num) (by ring)

theorem greenOf_zero (y : Int) : greenOf y 0 0 = grayOf y := clamp255_tdiv_eq_grayOf (by norm_num) (by ring)

theorem blueOf_zero (y : Int) : blueOf y 0 = grayOf y := clamp255_tdiv_eq_grayOf (by norm_num) (by ring)

/-- Settles O41: each channel is a clamped quotient, and with zero chroma the quotient is exact. -/
theorem colorSample : Obligations.ColorSample := by
  intro y cb cr
  have thousand : 0 < 1000 := by norm_num
  have million : 0 < 1000000 := by norm_num
  have red := clamp255_tdiv_eq_truncRat (1000 * y + 1402 * cr + 128000) thousand
  have green := clamp255_tdiv_eq_truncRat (1000000 * y - 344136 * cb - 714136 * cr + 128000000) million
  have blue := clamp255_tdiv_eq_truncRat (1000 * y + 1772 * cb + 128000) thousand
  push_cast at red green blue
  exact ⟨red, green, blue, clamp255_tdiv_eq_floor _ thousand, clamp255_tdiv_eq_floor _ million,
    clamp255_tdiv_eq_floor _ thousand, clamp255_eq_max_min _, (redOf_zero y).symm, (greenOf_zero y).symm,
    (blueOf_zero y).symm⟩

/-! ## COLOR -/

theorem exec_color_ready (h : StageReady .spatial s) :
    exec .color s = .next { s with phase := .rgb, grid := colorGrid s } := by
  have e : exec .color s = .next (colorBody s).state := command_valid h.1
  rw [e, colorBody, stageChecks_ready h, finishStage, Ran.state_done]

theorem colorGrid_converted (s : State) :
    Converted (decide (s.ncomp = 3#2)) (fun u i => u < s.nUnits.toNat ∧ i < 64) s.grid (colorGrid s) :=
  colorGrid_spec _ _ _

theorem colorGrid_read {u p i : Nat} (hu : u < s.nUnits.toNat) (hp : p < 3) (hi : i < 64) :
    (colorGrid s).read u p i = sample (decide (s.ncomp = 3#2)) s.grid u p i := by
  rw [Grid.read, (colorGrid_converted s).inside u p i hp hi ⟨hu, hi⟩, toInt_ofInt_of_fits (fits_sample ..)]

theorem colorGrid_word_outside {u p i : Nat} (hu : s.nUnits.toNat ≤ u) (hp : p < 3) (hi : i < 64) :
    (colorGrid s).word u p i = s.grid.word u p i :=
  (colorGrid_converted s).outside u p i hp hi fun hd => hu.not_gt hd.1

/-! ## The samples of a pixel -/

theorem div_eight_lt_ceil8 {a n : Nat} (h : a < n) : a / 8 < ceil8 n := by
  unfold ceil8
  omega

theorem pixelIndex_lt (x y : Nat) : pixelIndex x y < 64 := by
  unfold pixelIndex
  omega

theorem pixelUnit_lt {w h x y : Nat} (hx : x < w) (hy : y < h) : pixelUnit w x y < ceil8 h * ceil8 w := by
  calc pixelUnit w x y
    _ < y / 8 * ceil8 w + ceil8 w := Nat.add_lt_add_left (div_eight_lt_ceil8 hx) _
    _ = (y / 8 + 1) * ceil8 w := (Nat.succ_mul ..).symm
    _ ≤ ceil8 h * ceil8 w := Nat.mul_le_mul_right _ (div_eight_lt_ceil8 hy)

/-- Row and column of units are quotient and remainder of the unit by the units of a row. -/
theorem pixelUnit_div_mod {w x : Nat} (hx : x < w) (y : Nat) :
    pixelUnit w x y / ceil8 w = y / 8 ∧ pixelUnit w x y % ceil8 w = x / 8 := by
  have hcol := div_eight_lt_ceil8 hx
  rw [Nat.div_mod_unique (by omega)]
  exact ⟨by rw [pixelUnit, Nat.mul_comm, Nat.add_comm], hcol⟩

theorem pixel_eq_of_unit_index {w x y x' y' : Nat} (hx : x < w) (hx' : x' < w)
    (hu : pixelUnit w x y = pixelUnit w x' y') (hi : pixelIndex x y = pixelIndex x' y') : x = x' ∧ y = y' := by
  obtain ⟨hrow, hcol⟩ := pixelUnit_div_mod hx y
  obtain ⟨hrow', hcol'⟩ := pixelUnit_div_mod hx' y'
  rw [hu] at hrow hcol
  unfold pixelIndex at hi
  omega

theorem pixelAddress_inj {x y p x' y' p' : Nat} (hx : x < s.width.toNat) (hx' : x' < s.width.toNat)
    (h : pixelAddress s x y p = pixelAddress s x' y' p') : x = x' ∧ y = y' ∧ p = p' := by
  obtain ⟨hu, hp, hi⟩ := Address.grid.inj h
  obtain ⟨ex, ey⟩ := pixel_eq_of_unit_index hx hx' hu hi
  exact ⟨ex, ey, hp⟩

theorem addressRead_grid {u p i : Nat} (hu : u < s.nUnits.toNat) (hp : p < 3) (hi : i < 64) :
    addressRead s (.grid u p i) = s.grid.word u p i :=
  (addressRead_address s (.grid u p i)).trans (memRead_of_present (e := .grid u p i) ⟨hu, hp, hi⟩)

/-- Settles O40: each plane of a unit reads as the sample of the old planes, and a pixel determines its unit and place. -/
theorem colorResult : Obligations.ColorResult := by
  intro s hr
  refine ⟨_, exec_color_ready hr, rfl, fun u i hu hi => ⟨fun h3 => ?_, fun h1 p hp => ?_, fun p hp => ?_⟩,
    fun u p i hp hi hu => colorGrid_word_outside hu hp hi, ?_⟩
  · have three : decide (s.ncomp = 3#2) = true := decide_eq_true (BitVec.eq_of_toNat_eq h3)
    have hread : ∀ p, p < 3 → (colorGrid s).read u p i = sample true s.grid u p i := fun p hp => by
      rw [colorGrid_read hu hp hi, three]
    exact ⟨hread 0 (by omega), hread 1 (by omega), hread 2 (by omega)⟩
  · have one : decide (s.ncomp = 3#2) = false := decide_eq_false fun h => by simp [h] at h1
    rw [colorGrid_read hu hp hi, one]
    rfl
  · rw [colorGrid_read hu hp hi]
    exact sample_range ..
  · intro perRow hsize x y p hx hy hp u i
    have hu : u < s.nUnits.toNat := hsize ▸ pixelUnit_lt hx hy
    exact ⟨hu, pixelIndex_lt x y, rfl, addressRead_grid hu hp (pixelIndex_lt x y),
      fun x' y' p' hx' _ _ => pixelAddress_inj hx hx'⟩

end Sys2Proof.Machine
end

section
/-! Control (46_control): what SCANINIT, NOP and RESET do (R240 to R242), the issue of a word behind the gate (R245), and
the step that performs the oldest pending operation (R243; logs 1, 2, 3). -/

namespace Sys2Proof.Machine

variable {s : State} {i : Instr} {w : Word}

/-! ## SCANINIT -/

/-- The header checks of SCANINIT (46_control R241, 60_exceptions R273). -/
def HeaderOk (s : State) : Prop :=
  (s.ncomp.toNat = 1 ∨ s.ncomp.toNat = 3) ∧ s.width ≠ 0#16 ∧ s.height ≠ 0#16 ∧
    s.entLen.toNat ≤ s.cfg.entCap.toNat

/-- Two checks in a row that report the same fault are one check. -/
theorem require_require {α : Type} (a : Bool) (b : State → Bool) (f : FaultCode) (s : State) (go : State → Ran α) :
    require a f s (fun u => require (b u) f u go) = require (a && b s) f s go := by
  cases a <;> rfl

theorem headerChecks_iff (s : State) :
    (ncompOk s && decide (s.width ≠ 0#16 ∧ s.height ≠ 0#16) && decide (s.entLen.toNat ≤ s.cfg.entCap.toNat)) = true
      ↔ HeaderOk s := by
  simp only [HeaderOk, Bool.and_eq_true, decide_eq_true_eq, ncompOk_iff, and_assoc]

theorem scaninitBody_of_header (h : HeaderOk s) :
    scaninitBody s = require (decide (unitCount s ≤ s.cfg.gridCap)) .resource s fun s => .done () (startScan s) := by
  rw [scaninitBody, require_require, require_require, require_pos ((headerChecks_iff s).mpr h)]

theorem scaninitBody_config (h : ¬ HeaderOk s) : scaninitBody s = .raised (raise .config s) := by
  rw [scaninitBody, require_require, require_require, require_neg (Bool.eq_false_iff.mpr (mt (headerChecks_iff s).mp h))]

theorem HeaderOk.unitCount_bounds (h : HeaderOk s) : 1 ≤ unitCount s ∧ unitCount s ≤ 67108864 := by
  obtain ⟨-, hwidth, hheight, -⟩ := h
  exact Machine.unitCount_bounds hwidth hheight

theorem exec_scaninit (hv : s.valid = true) : exec .scaninit s = .next (scaninitBody s).state := command_valid hv

/-- Settles O14: the three header checks are one, behind which the capacity decides; the units of a header that passes
fit a register. -/
theorem scaninitResult : Obligations.ScaninitResult := by
  intro s hv header units
  rw [exec_scaninit hv]
  refine ⟨fun (h : HeaderOk s) (hcap : unitCount s ≤ s.cfg.gridCap) => ?_, fun (h : ¬ HeaderOk s) => ?_,
    fun (h : HeaderOk s) (hcap : s.cfg.gridCap < unitCount s) => ?_⟩
  · obtain ⟨hpos, hle⟩ := h.unitCount_bounds
    have hcount : (BitVec.ofNat 32 (unitCount s)).toNat = unitCount s := Nat.mod_eq_of_lt (by omega)
    rw [scaninitBody_of_header h, require_pos (decide_eq_true hcap), Ran.state_done]
    exact ⟨_, hcount, by omega, by omega, rfl⟩
  · rw [scaninitBody_config h, Ran.state_raised]
  · rw [scaninitBody_of_header h, require_neg (decide_eq_false hcap.not_ge), Ran.state_raised]

/-! ## The gate -/

theorem issue_of_ok (h : decodeCmd w = .ok i) (s : State) : issue w s = exec i s := by rw [issue, h]

theorem issue_of_error {e : Illegal} (h : decodeCmd w = .error e) (s : State) :
    issue w s = plainCommand (raise .illcmd) s := by rw [issue, h]

theorem exec_invalid (hv : s.valid = false) (hi : i ≠ .reset) : exec i s = .next s := by
  obtain ⟨t, e⟩ := exec_next i s
  have hvalid : s.valid ≠ true := by simp [hv]
  rcases exec_after hi e with ⟨-, rfl⟩ | ⟨h, -⟩ | ⟨h, -⟩
  · exact e
  · exact absurd h hvalid
  · exact absurd h hvalid

/-- RESET has one word (30_encoding R104, R105). -/
theorem eq_of_decodeCmd_reset (h : decodeCmd w = .ok .reset) : w = 0x000000FF#32 := by
  rw [decodeCmd] at h
  split at h
  · next hhigh =>
    have hlow : 0x00FF#16 = w.setWidth 16 := by simpa [encode, commandWord] using (encodeDecode (.command _) _ h).2
    bv_omega
  · cases h

theorem issue_invalid (hv : s.valid = false) (hw : w ≠ 0x000000FF#32) : issue w s = .next s := by
  cases h : decodeCmd w with
  | ok i => rw [issue_of_ok h, exec_invalid hv fun hi => hw (eq_of_decodeCmd_reset (hi ▸ h))]
  | error e => rw [issue_of_error h, plainCommand_invalid hv]

/-- Settles O9: a word is decoded first, and what it decodes to meets the gate. -/
theorem gate : Obligations.Gate :=
  ⟨fun _ _ => issue_invalid, fun s => issue_of_ok rfl s,
    fun _ _ s hv h => by rw [issue_of_error h, plainCommand_valid hv], fun _ _ s _ h => issue_of_ok h s,
    fun _ _ => exec_invalid⟩

/-! ## Steps -/

theorem step_of_pending {p : Pending} {rest : List Pending} (h : s.pending = p :: rest) :
    step s = pendingStep p { s with pending := rest } := by rw [step, h]

theorem step_of_idle (h : s.pending = []) : step s = .next s := by rw [step, h]

theorem step_withFetchWord (nbits n : Nat) (s : State) :
    step (s.withFetchWord nbits n) = pendingStep (wordEntry nbits n) s := step_of_pending rfl

theorem issue_next (w : Word) (s : State) : ∃ t, issue w s = .next t := by
  cases h : decodeCmd w with
  | ok i => rw [issue_of_ok h]; exact exec_next i s
  | error e => exact ⟨_, issue_of_error h s⟩

theorem pendingStep_next (p : Pending) (s : State) : ∃ t, pendingStep p s = .next t := by
  cases p with
  | op o =>
    cases o with
    | regWrite n v =>
      cases n with
      | zero => exact issue_next v s
      | succ n => exact ⟨_, rfl⟩
    | regRead | memRead | memWrite => exact ⟨_, rfl⟩
  | hardReset => exact ⟨_, rfl⟩
  | symbol k b => exact exec_next _ s

theorem step_next (s : State) : ∃ t, step s = .next t := by
  cases h : s.pending with
  | nil => exact ⟨s, step_of_idle h⟩
  | cons p rest => rw [step_of_pending h]; exact pendingStep_next p _

theorem eq_ok_of_toOption {d : Except Illegal Instr} (h : d.toOption = some i) : d = .ok i := by
  cases d with
  | ok j => cases h; rfl
  | error e => cases h

/-- A row of the table decodes to the instruction its queue entry runs. -/
theorem pendingStep_wordEntry {nbits n : Nat} (h : decodeTableWord nbits n = some i) (s : State) :
    pendingStep (wordEntry nbits n) s = exec i s := by
  rw [decodeTableWord] at h
  rw [wordEntry]
  split at h
  · next hn =>
    cases h
    rw [if_pos hn]
    rfl
  · next hn =>
    rw [if_neg hn]
    exact issue_of_ok (eq_ok_of_toOption h) s

/-- Settles O8: a step is the meaning of the entry it takes off the queue. -/
theorem stepRunsDecoded : Obligations.StepRunsDecoded :=
  ⟨fun _ _ _ _ hp h => (step_of_pending hp).trans (issue_of_ok h _), fun _ _ _ => step_of_pending,
    fun _ _ _ _ => step_of_pending, fun _ _ _ _ => step_of_pending, fun _ _ _ _ => step_of_pending,
    fun _ => step_of_idle, fun s _ _ _ h => (step_withFetchWord ..).trans (pendingStep_wordEntry h s), step_next⟩

/-! ## NOP and RESET -/

theorem exec_nop (s : State) : exec .nop s = .next s := congrArg _ (ite_self s)

theorem statusWord_resetEngine (s : State) : statusWord (resetEngine s) = 0x00000001#32 :=
  BitVec.eq_of_toNat_eq (toNat_statusWord _)

theorem word_comp_resetEngine (s : State) (c : Fin 3) : (resetEngine s).comps[c].word = 0 := by
  rw [show (resetEngine s).comps[c] = CompReg.reset by simp [resetEngine, State.reset]]
  decide

theorem regRead_resetEngine (s : State) {n : Nat} (hn : n ≠ 1) : regRead (resetEngine s) n = 0 := by
  unfold regRead
  split
  case h_1 => exact absurd rfl hn
  case h_8 => exact word_comp_resetEngine s 0
  case h_9 => exact word_comp_resetEngine s 1
  case h_10 => exact word_comp_resetEngine s 2
  all_goals rfl

/-- Settles O12: every field of the state a reset leaves is read off it; the reset signal leaves the same. -/
theorem nopAndReset : Obligations.NopAndReset := by
  refine fun s => ⟨exec_nop s, resetEngine s, rfl, statusWord_resetEngine s, fun _ => regRead_resetEngine s,
    fun k q => ?_, fun q => ?_, rfl, rfl, fun _ => step_of_pending⟩
  · rw [resetEngine_ht]; exact ⟨rfl, rfl, rfl, rfl, rfl⟩
  · rw [resetEngine_qTables]; exact ⟨rfl, rfl⟩

end Sys2Proof.Machine
end

section
/-! Raising a fault (60_exceptions R261, R262). -/

namespace Sys2Proof.Machine

/-- FAULT reads as the code of the fault raised (60_exceptions R262). -/
theorem regRead_raise_fault (f : FaultCode) (s : State) : regRead (raise f s) 2 = f.code :=
  congrArg FaultCode.code (raise_fault s f)

/-- Nothing is known of any element of the grid a fault leaves (60_exceptions R262, log 5). -/
theorem raise_grid_word (f : FaultCode) (s : State) (u p i : Nat) :
    (raise f s).grid.word u p i = Config.freeGrid (s.grid.epoch + 1) (gridKey u p i) := by
  rw [raise_grid, Grid.word_forget]

/-- Settles O10: the code, the latch and the grid are read off the state `raise` leaves, which is the old one elsewhere. -/
theorem raiseFrame : Obligations.RaiseFrame := fun f s =>
  ⟨raise_fault s f, raise_valid s f, regRead_raise_fault f s, raise_grid_word f s, rfl⟩

end Sys2Proof.Machine
end

section
/-! The commands in the state a reset leaves (70_reset R302): the stream is empty and the cursor at its start, no table is
set, no component is configured and the phase is IDLE, so every check that a command begins with fails. -/

namespace Sys2Proof.Machine

variable {s : State}

@[simp] theorem resetEngine_valid (s : State) : (resetEngine s).valid = true := rfl
@[simp] theorem resetEngine_phase (s : State) : (resetEngine s).phase = .idle := rfl

/-! ## An empty stream -/

@[simp] theorem streamEnd_resetEngine (s : State) : streamEnd (resetEngine s) = 0 := congrArg (8 * ·) (Nat.zero_min _)
@[simp] theorem cursorPos_resetEngine (s : State) : cursorPos (resetEngine s) = 0 := rfl

/-- A cursor at the end of the stream or behind it stays where it is. -/
theorem atEnd_of_le (h : streamEnd s ≤ cursorPos s) : atEnd s = s := atPos_eq_self s (Nat.max_eq_left h)

theorem exec_rdbit_empty (hv : s.valid = true) (h : streamEnd s ≤ cursorPos s) : exec .rdbit s = .next (setFail s) := by
  rw [exec_rdbit hv, readBit_none h, returnBits]

theorem exec_rdbits_empty {n : BitVec 5} (hv : s.valid = true) (hpos : 1 ≤ n.toNat) (hn : n.toNat ≤ 16)
    (h : streamEnd s ≤ cursorPos s) : exec (.rdbits n) s = .next (setFail s) := by
  rw [exec_rdbits_none hv hn (by omega), atEnd_of_le h]

/-- `ReadBits(0)` returns 0 at every cursor (40_bit_reader R132). -/
theorem exec_rdbits_zero (hv : s.valid = true) : exec (.rdbits 0) s = .next (setResult 0 s) :=
  exec_rdbits hv (by decide)

theorem exec_align_resetEngine (s : State) : exec .align (resetEngine s) = .next (resetEngine s) := by
  rw [exec_align rfl, align_eq, if_neg fun h => h.2 rfl]

/-! ## No table, no header, no scan -/

theorem not_ready_resetEngine (s : State) (k : HuffClass) (q : Fin 4) : ¬ Ready (resetEngine s) k q := by
  rw [Ready, resetEngine_ht]
  exact fun h => Bool.false_ne_true h.1

/-- HTBUILD withdraws a BUILT that a reset has cleared already. -/
theorem exec_htbuild_resetEngine (s : State) (k : HuffClass) (q : Fin 4) :
    exec (.htbuild k q) (resetEngine s) = .next (raise .table (resetEngine s)) := by
  have hset : ((resetEngine s).ht k q).set = false := by rw [resetEngine_ht]; rfl
  have hbuilt : { (resetEngine s).ht k q with built := false } = (resetEngine s).ht k q := by rw [resetEngine_ht]; rfl
  rw [exec_htbuild_refused rfl fun h => Bool.false_ne_true (hset.symm.trans h.1), hbuilt, setHt_ht]

theorem exec_scaninit_resetEngine (s : State) :
    exec .scaninit (resetEngine s) = .next (raise .config (resetEngine s)) := by
  have hncomp : ¬ ((0 : BitVec 2).toNat = 1 ∨ (0 : BitVec 2).toNat = 3) := by decide
  rw [exec_scaninit rfl, scaninitBody_config fun h => hncomp h.1, Ran.state_raised]

theorem exec_stage_resetEngine (s : State) {i : Instr} {p : Phase}
    (h : (i, p) ∈ [(Instr.dequant, Phase.coef), (.idct, .deq), (.color, .spatial)]) (hp : Phase.idle ≠ p) :
    exec i (resetEngine s) = .next (raise .sequence (resetEngine s)) := by
  obtain ⟨go, e⟩ := exec_stage h (resetEngine_valid s)
  rw [e, stageChecks_sequence hp, Ran.state_raised]

/-- Settles O13: each command in the reset state is its rule for an empty stream or for the first of its checks. -/
theorem resetCommands : Obligations.ResetCommands := by
  intro s k i c r
  have hv : r.valid = true := rfl
  have hp : r.phase ≠ .decode := by simp [r]
  have hempty : streamEnd r ≤ cursorPos r := by simp [r]
  have block : ∀ i ∈ [Instr.decdc (compArg c), .decac (compArg c), .decblk (compArg c)],
      exec i r = .next (raise .sequence r) := fun _ hi => exec_block_sequence hv hi hp
  have unit : ∀ i ∈ [Instr.decmcu, .decscan], exec i r = .next (raise .sequence r) :=
    fun _ hi => exec_unit_sequence hv hi hp
  exact ⟨exec_nop r, ⟨_, rfl, rfl⟩, exec_rdbit_empty hv hempty, fun _ hpos hn => exec_rdbits_empty hv hpos hn hempty,
    exec_rdbits_zero hv, exec_align_resetEngine s, exec_htbuild_resetEngine s k i,
    exec_decsym_notReady hv (not_ready_resetEngine s k i), exec_scaninit_resetEngine s,
    block _ (by simp), block _ (by simp), block _ (by simp), unit _ (by simp), unit _ (by simp),
    exec_stage_resetEngine s (p := .coef) (by simp) (by decide),
    exec_stage_resetEngine s (p := .deq) (by simp) (by decide),
    exec_stage_resetEngine s (p := .spatial) (by simp) (by decide)⟩

end Sys2Proof.Machine
end
